-- ==== Sys2Proof/Word.lean ====
section
/-! DEFINITION. The value types of 00_scope.md R8: words, bytes, byte sequences. -/

namespace Sys2Proof

/-- A word: "a 32-bit unsigned integer" (R8). Every register the host sees is one. -/
abbrev Word := BitVec 32

/-- A byte: 8 bits (R8, general-knowledge passage G1 of 93_implementation_defined.md). -/
abbrev Byte := BitVec 8

/-- A byte sequence: "a finite list of bytes, possibly empty" (R8); byte 0 comes first (R10). -/
abbrev Bytes := List Byte

end Sys2Proof
end

