-- ==== Sys2Proof/Syntax.lean ====
section
/-! DEFINITION. The six commands (30_encoding.md R96): one constructor per row of the opcode table. -/

namespace Sys2Proof

/-- A command. Format N commands carry no operand (R91); format B commands carry BL, "an unsigned 8-bit
number used as it stands" (R92, R94). The byte-sequence operands are not in the word (R95). -/
inductive Instr where
  /-- CLEAR, OP 0x00 (R198) -/
  | clear
  /-- PAD bl, OP 0x01 (R135) -/
  | pad (bl : BitVec 8)
  /-- UNPAD bl, OP 0x02 (R138) -/
  | unpad (bl : BitVec 8)
  /-- XOR, OP 0x03 (R153) -/
  | xor
  /-- CBC.ENC, OP 0x04 (R165) -/
  | cbcEnc
  /-- CBC.DEC, OP 0x05 (R169) -/
  | cbcDec
  deriving DecidableEq, Repr

end Sys2Proof
end

