-- ==== Sys2Proof/WellFormed.lean ====
section
/-! DEFINITION. Which command terms stand for a command of R96: the constraint column of the opcode map. -/

namespace Sys2Proof

/-- The constraint of R96: `BL ≠ 0` for PAD and UNPAD (R97: BL = 0 is illegal); none for format N. -/
def Instr.wf : Instr → Bool
  | .clear => true
  | .pad bl => bl != 0
  | .unpad bl => bl != 0
  | .xor => true
  | .cbcEnc => true
  | .cbcDec => true

end Sys2Proof
end

