-- ==== Sys2Proof/Decode.lean ====
section
/-! DEFINITION. The command word (30_encoding.md): its fields (R93), the decoder, total on all words (R99),
which rejects by name, the encoder (R99), and the opcode map as rows of mask and match (R96). -/

namespace Sys2Proof

/-- `OP = w[7:0]` (R93). -/
def opField (w : Word) : BitVec 8 := w.extractLsb' 0 8

/-- `BL = w[15:8]` (R93). -/
def blField (w : Word) : BitVec 8 := w.extractLsb' 8 8

/-- `RSV = w[31:16]` (R93). -/
def rsvField (w : Word) : BitVec 16 := w.extractLsb' 16 16

/-- The four ways a word can be illegal (R97). The engine does not tell them apart: each fails VALIDATE
with IllegalCommandError. -/
inductive DecodeError where
  /-- `w[31:16] ≠ 0` -/
  | reservedBitsSet
  /-- `w[7:0] ≥ 0x06` -/
  | unassignedOpcode
  /-- a format N opcode with `w[15:8] ≠ 0` -/
  | blockLengthNotZero
  /-- a format B opcode with `w[15:8] = 0` -/
  | blockLengthZero
  deriving DecidableEq, Repr

/-- A format N row of the decoder: BL must be 0 (R91). -/
def formatN (bl : BitVec 8) (i : Instr) : Except DecodeError Instr :=
  if bl = 0 then .ok i else .error .blockLengthNotZero

/-- A format B row of the decoder: BL must not be 0 (R92). -/
def formatB (bl : BitVec 8) (i : Instr) : Except DecodeError Instr :=
  if bl = 0 then .error .blockLengthZero else .ok i

/-- The decoder of R99. -/
def decode (w : Word) : Except DecodeError Instr :=
  if rsvField w ≠ 0 then .error .reservedBitsSet
  else if opField w = 0x00#8 then formatN (blField w) .clear
  else if opField w = 0x01#8 then formatB (blField w) (.pad (blField w))
  else if opField w = 0x02#8 then formatB (blField w) (.unpad (blField w))
  else if opField w = 0x03#8 then formatN (blField w) .xor
  else if opField w = 0x04#8 then formatN (blField w) .cbcEnc
  else if opField w = 0x05#8 then formatN (blField w) .cbcDec
  else .error .unassignedOpcode

/-- The encoder of R99. -/
def encode : Instr → Word
  | .clear => 0x00000000#32
  | .pad bl => 0x00000001#32 + BitVec.ofNat 32 (bl.toNat * 256)
  | .unpad bl => 0x00000002#32 + BitVec.ofNat 32 (bl.toNat * 256)
  | .xor => 0x00000003#32
  | .cbcEnc => 0x00000004#32
  | .cbcDec => 0x00000005#32

/-- The decoder on a word of the opcode table: a command is one 32-bit word (R90), numbered from bit 0 as the
table numbers it; the bits at and above `nbits` are 0. -/
def decodeTableWord (nbits w : Nat) : Option Instr :=
  (decode (BitVec.ofNat 32 (w % 2 ^ nbits))).toOption

/-- A row of the opcode map of R96. `needsBlockLen` is its constraint column, `BL ≠ 0`. -/
structure OpcodeRow where
  mnemonic : String
  matchBits : Word
  maskBits : Word
  needsBlockLen : Bool
  deriving DecidableEq, Repr

/-- The opcode map of R96, in its order. -/
def opcodeMap : List OpcodeRow :=
  [ { mnemonic := "CLEAR",   matchBits := 0x00000000#32, maskBits := 0xFFFFFFFF#32, needsBlockLen := false },
    { mnemonic := "PAD",     matchBits := 0x00000001#32, maskBits := 0xFFFF00FF#32, needsBlockLen := true },
    { mnemonic := "UNPAD",   matchBits := 0x00000002#32, maskBits := 0xFFFF00FF#32, needsBlockLen := true },
    { mnemonic := "XOR",     matchBits := 0x00000003#32, maskBits := 0xFFFFFFFF#32, needsBlockLen := false },
    { mnemonic := "CBC.ENC", matchBits := 0x00000004#32, maskBits := 0xFFFFFFFF#32, needsBlockLen := false },
    { mnemonic := "CBC.DEC", matchBits := 0x00000005#32, maskBits := 0xFFFFFFFF#32, needsBlockLen := false } ]

/-- "a word `w` selects the row when `w AND mask = match` and the row's constraint holds" (R96). -/
def OpcodeRow.selects (r : OpcodeRow) (w : Word) : Bool :=
  (w &&& r.maskBits == r.matchBits) && (!r.needsBlockLen || blField w != 0)

/-- The mnemonic of a command (R96, R101). -/
def Instr.mnemonic : Instr → String
  | .clear => "CLEAR"
  | .pad _ => "PAD"
  | .unpad _ => "UNPAD"
  | .xor => "XOR"
  | .cbcEnc => "CBC.ENC"
  | .cbcDec => "CBC.DEC"

/-- The opcode number of a command (R96). -/
def Instr.opcode : Instr → BitVec 8
  | .clear => 0x00#8
  | .pad _ => 0x01#8
  | .unpad _ => 0x02#8
  | .xor => 0x03#8
  | .cbcEnc => 0x04#8
  | .cbcDec => 0x05#8

end Sys2Proof
end

