-- ==== Sys2Proof/Config.lean ====
section
/-! DEFINITION. The parameters of one engine (00_scope.md R6) and the free values: what the spec leaves
open is an `opaque` constant with no body, so no proof can see a value of it. -/

namespace Sys2Proof

/-- The two operand buffers whose contents reset leaves unspecified (R45). -/
inductive BufferId where
  | a
  | b
  deriving DecidableEq, Repr

/-- Free value: byte `j` of the block that `encrypt_block` of BlockCipher number `n` answers for `block`.
R121: "each a total function from sequences of exactly L bytes to sequences of exactly L bytes";
nothing else about it may be assumed (R122, U2). Log entry 2, DESIGN CHOICE (the form). -/
opaque Config.encryptByte : (n : Nat) → (block : Bytes) → (j : Nat) → Byte

/-- Free value: byte `j` of the block that `decrypt_block` of BlockCipher number `n` answers for `block`
(R121). No law relates it to `Config.encryptByte` (R6, R122, R129). Log entry 2. -/
opaque Config.decryptByte : (n : Nat) → (block : Bytes) → (j : Nat) → Byte

/-- Free value: the byte that address `addr` of an operand buffer holds after reset number `epoch`, as long
as nothing has written it. R45: "a different arbitrary value for every byte, fixed once reset is over".
Log entry 3. -/
opaque Config.unspecifiedByte : (which : BufferId) → (epoch : Nat) → (addr : Nat) → Byte

/-- Which BlockCipher is wired to the port (R121: "fixed for the life of the engine"). `wired n` is an
arbitrary one; the other three are the test doubles of 95_test_vectors.md (R129): `ident` the source's
identity cipher, `inc` and `rot` the spec's own. -/
inductive Cipher where
  | wired (n : Nat)
  | ident
  | inc
  | rot
  deriving DecidableEq, Repr

/-- The parameters of R6, with the spec's names. No step and no host access changes them. -/
structure Config where
  /-- the block length in bytes, the cipher's native block size -/
  L : Nat
  /-- the capacity in bytes of each of the buffers A, B, W -/
  CAP : Nat
  /-- the BlockCipher that supplies `E` and `D` -/
  cipher : Cipher
  deriving DecidableEq, Repr

/-- The ranges of R6: `1 ≤ L ≤ 255` and `6·L + 7 ≤ CAP < 2^31`. A configuration outside them is refused
(U3, U5 of 93_implementation_defined.md). -/
def Config.legal (c : Config) : Bool :=
  decide (1 ≤ c.L) && decide (c.L ≤ 255) && decide (6 * c.L + 7 ≤ c.CAP) && decide (c.CAP < 2 ^ 31)

/-- The defaults of R6: L = 16, CAP = 4096; no default cipher exists ("must be supplied"), so it is an
arbitrary one. -/
def Config.standard : Config where
  L := 16
  CAP := 4096
  cipher := .wired 0

end Sys2Proof
end

