-- ==== Sys2Proof/Machine/State.lean ====
section
/-! DEFINITION. The state of one engine (10_state.md R20), the host's moves still to come, and the state right
after reset (R45). Plain data. -/

namespace Sys2Proof.Machine

/-- STATE, the sequencer position: the seven values of R23. Value 7 "is never held" and cannot be written
down here (U10). -/
inductive Phase where
  | idle
  | validate
  | pad
  | process
  | unpad
  | done
  | failed
  deriving DecidableEq, Repr

/-- The error kinds of 60_exceptions.md R211, in the order of their codes 1 to 7. -/
inductive ErrorKind where
  /-- code 1; never raised by the engine (R212) -/
  | invalidKeyLength
  /-- code 2; never raised by the engine (R213) -/
  | invalidBlockLength
  /-- code 3 (R214) -/
  | invalidLength
  /-- code 4 (R215) -/
  | lengthMismatch
  /-- code 5 (R216) -/
  | padding
  /-- code 6 (R217) -/
  | illegalCommand
  /-- code 7 (R218) -/
  | capacity
  deriving DecidableEq, Repr

/-- What the unlisted bytes of a buffer are: zero (W always; A and B after CLEAR), or left unspecified by
reset number `epoch` (A and B, R45). -/
inductive Fill where
  | zero
  | unspecified (which : BufferId) (epoch : Nat)
  deriving DecidableEq, Repr

/-- The contents of a buffer: the listed (address, byte) pairs, addresses strictly rising, over a fill. -/
structure Memory where
  fill : Fill
  cells : List Host.Cell
  deriving DecidableEq, Repr

/-- The byte-addressed spaces the host sees (20_memory.md R60). -/
inductive Space where
  | a
  | b
  | out
  deriving DecidableEq, Repr

/-- The host's moves (44_control.md R204): register and buffer accesses (R64, R65, R199 to R202) and reset. -/
inductive Access where
  | regRead (off : Nat)
  | regWrite (off : Nat) (v : Word)
  | memRead (space : Space) (addr : Nat)
  | memWrite (space : Space) (addr : Nat) (v : Byte)
  | reset
  deriving DecidableEq, Repr

/-- An entry of the schedule: "An execution is a single sequence of atomic events, each either one host
access or one engine step" (20_memory.md R72). -/
inductive Event where
  | engine
  | host (access : Access)
  deriving DecidableEq, Repr

/-- The complete state (R20), the parameters (R6) and the two fields of the model's own. -/
structure State where
  /-- the parameters; BLKLEN and CAPR read L and CAP from here (R35, R36) -/
  config : Config
  /-- CMD (R27): the last accepted command word, unchanged -/
  cmd : Word
  /-- STATUS.STATE (R23, R28) -/
  phase : Phase
  /-- ERR.KIND (R29); `none` is code 0 -/
  err : Option ErrorKind
  /-- LEN_A (R30) -/
  lenA : Word
  /-- LEN_B (R31) -/
  lenB : Word
  /-- LEN_OUT (R32) -/
  lenOut : Word
  /-- IDX (R33) -/
  idx : Word
  /-- NBLK (R34) -/
  nblk : Word
  /-- WLEN, hidden (R40) -/
  wlen : Word
  /-- buffer A (R38) -/
  a : Memory
  /-- buffer B (R39) -/
  b : Memory
  /-- buffer W, hidden (R40) -/
  w : Memory
  /-- CHAIN, hidden, L bytes (R21) -/
  chain : Bytes
  /-- the model's own: what happens next, first entry first (log entry 4) -/
  events : List Event
  /-- the model's own: how many resets there have been (log entry 3) -/
  resets : Nat
  deriving DecidableEq, Repr

/-- Why the model stops. Both are safe: the model stops where the spec has no transition. -/
inductive Fault where
  /-- Raised by every meaning in IDLE, DONE and FAILED, where the engine has "no step" (R194). Safe.
  `step` never raises it: it asks for an engine step only while busy. -/
  | noStep
  /-- Raised by a meaning in a busy state its command never enters, and by `engineStep` for an illegal word
  outside VALIDATE: the pairs of which R24 says "An empty cell means the pair cannot occur" (treatment
  `stuck`, as U10 of 93_implementation_defined.md). Safe; unreachable under `EngineInv`. -/
  | unreachablePair
  deriving DecidableEq, Repr

/-- Why the model gives no meaning. -/
inductive Refusal where
  /-- An instruction without a meaning. No arm uses it: all six commands are modelled. Safe. -/
  | notModelled (mnemonic : String)
  /-- Raised by `step` when L or CAP is outside the ranges of R6 (treatment `refuse`, U3 and U5). Safe. -/
  | illegalConfiguration
  deriving DecidableEq, Repr

/-- The values of R45 for an engine with parameters `config`, at its reset number `epoch`, with `events` still
to come. -/
def State.resetWith (config : Config) (epoch : Nat) (events : List Event) : State where
  config := config
  cmd := 0
  phase := .idle
  err := none
  lenA := 0
  lenB := 0
  lenOut := 0
  idx := 0
  nblk := 0
  wlen := 0
  a := { fill := .unspecified .a epoch, cells := [] }
  b := { fill := .unspecified .b epoch, cells := [] }
  w := { fill := .zero, cells := [] }
  chain := List.replicate config.L 0
  events := events
  resets := epoch

/-- The machine right after reset (R45, R240) with the default parameters of R6 and no host move pending. -/
def State.reset : State := State.resetWith Config.standard 0 []

end Sys2Proof.Machine
end

