-- ==== Sys2Proof/Machine/Functions.lean ====
section
/-! DEFINITION. The pure functions of the source: `pad`, `unpad` (41_padder.md), `xor` (42_blockxor.md),
`cbc_encrypt`, `cbc_decrypt` (43_cbc_engine.md), for a block length `1 ≤ m ≤ 255` and any pair `E`, `D`. `Ok` and
`Err` of R9 are `Except.ok` and `Except.error`. Outside `1..255` the spec gives these functions no value (N9, N10 of
91_not_in_source.md) and the engine cannot be asked: what the Lean terms answer there is the model's choice, marked
DESIGN CHOICE in log entry 16, and no rule of the spec. -/

namespace Sys2Proof.Machine

/-- `n = m - (len mod m)`, the padding count (R130), for `1 ≤ m ≤ 255`. DESIGN CHOICE at `m = 0`: 0 (log entry 16). -/
def padCount (len m : Nat) : Nat := m - len % m

/-- `data ‖ rep(n, n)` (R130), for `1 ≤ m ≤ 255`. DESIGN CHOICE outside, where the spec gives no value (N9, N10): at
`m = 0` the data itself, above 255 bytes of value `n mod 256` (log entry 16). -/
def padBytes (data : Bytes) (m : Nat) : Bytes :=
  data ++ List.replicate (padCount data.length m) (BitVec.ofNat 8 (padCount data.length m))

/-- `pad(data, m)` (R130): "Deterministic, total, never fails". -/
def pad (data : Bytes) (m : Nat) : Except ErrorKind Bytes := .ok (padBytes data m)

/-- `unpad(data, m)` (R133), for `1 ≤ m ≤ 255`: the length check first, then the count, then all `n` trailing bytes.
DESIGN CHOICE outside (log entry 16): at `m = 0` always a failure, above 255 a count of at most 255. -/
def unpad (data : Bytes) (m : Nat) : Except ErrorKind Bytes :=
  let k := data.length
  if k < 1 ∨ k % m ≠ 0 then .error .invalidLength
  else
    let n := (data.getD (k - 1) 0).toNat
    if n < 1 ∨ m < n then .error .padding
    else if (data.drop (k - n)).any (fun v => v != BitVec.ofNat 8 n) then .error .padding
    else .ok (data.take (k - n))

/-- Bytewise exclusive or, lane by lane (R150, R152). -/
def xorBytes (x y : Bytes) : Bytes := List.zipWith (fun u v => u ^^^ v) x y

/-- `xor(a, b)` (R150), for operands of every equal length, 0 included. -/
def xor (x y : Bytes) : Except ErrorKind Bytes :=
  if x.length ≠ y.length then .error .lengthMismatch else .ok (xorBytes x y)

/-- The blocks `q[i·m .. (i+1)·m)`, `0 ≤ i < len(q) div m`, in order (R10). -/
def blocksOf (m : Nat) (q : Bytes) : List Bytes :=
  (List.range (q.length / m)).map fun i => (q.drop (i * m)).take m

/-- `C[i] = E(V[i] XOR P[i])`, `V[i+1] = C[i]` (R160), from the chaining value `v`. -/
def encBlocks (E : Bytes → Bytes) (v : Bytes) : List Bytes → List Bytes
  | [] => []
  | p :: ps => E (xorBytes v p) :: encBlocks E (E (xorBytes v p)) ps

/-- `P[i] = D(C[i]) XOR prev[i]`, `prev[i+1] = C[i]` (R161), from the chaining value `prev`. -/
def decBlocks (D : Bytes → Bytes) (prev : Bytes) : List Bytes → List Bytes
  | [] => []
  | c :: cs => xorBytes (D c) prev :: decBlocks D c cs

/-- `cbc_encrypt(p, iv)` (R160) for block length `L`, `1 ≤ L ≤ 255` (R6), and cipher `E`. -/
def cbcEncrypt (E : Bytes → Bytes) (L : Nat) (p iv : Bytes) : Except ErrorKind Bytes :=
  if iv.length ≠ L then .error .invalidLength
  else .ok (encBlocks E iv (blocksOf L (padBytes p L))).flatten

/-- `cbc_decrypt(c, iv)` (R161) for block length `L`, `1 ≤ L ≤ 255` (R6), and cipher `D`. -/
def cbcDecrypt (D : Bytes → Bytes) (L : Nat) (c iv : Bytes) : Except ErrorKind Bytes :=
  if iv.length ≠ L then .error .invalidLength
  else if c.length % L ≠ 0 then .error .invalidLength
  else unpad (decBlocks D iv (blocksOf L c)).flatten L

end Sys2Proof.Machine
end

