-- ==== Sys2Proof/Machine/Cipher.lean ====
section
/-! DEFINITION. The BlockCipher port (40_blockcipher_port.md R120, R121): `E` and `D` of the wired cipher, total
functions whose answer is always a block of L bytes, evaluated inside the step that asks (R127). -/

namespace Sys2Proof.Machine

/-- Byte `j` of `E(block)`, `0 ≤ j < L`: the wired cipher's free value, or the test doubles of
95_test_vectors.md. -/
def encryptByte (c : Cipher) (L : Nat) (block : Bytes) (j : Nat) : Byte :=
  match c with
  | .wired n => Config.encryptByte n block j
  | .ident => block.getD j 0
  | .inc => block.getD j 0 + 1
  | .rot => block.getD ((j + 1) % L) 0 + 1

/-- Byte `j` of `D(block)`. -/
def decryptByte (c : Cipher) (L : Nat) (block : Bytes) (j : Nat) : Byte :=
  match c with
  | .wired n => Config.decryptByte n block j
  | .ident => block.getD j 0
  | .inc => block.getD j 0 - 1
  | .rot => block.getD ((j + L - 1) % L) 0 - 1

/-- `encrypt_block` at the port. -/
def Cipher.E (c : Cipher) (L : Nat) (block : Bytes) : Bytes :=
  (List.range L).map (encryptByte c L block)

/-- `decrypt_block` at the port. -/
def Cipher.D (c : Cipher) (L : Nat) (block : Bytes) : Bytes :=
  (List.range L).map (decryptByte c L block)

/-- `E`, as this engine is wired. -/
def State.encryptBlock (s : State) (block : Bytes) : Bytes := Cipher.E s.config.cipher s.config.L block

/-- `D`, as this engine is wired. -/
def State.decryptBlock (s : State) (block : Bytes) : Bytes := Cipher.D s.config.cipher s.config.L block

/-- The named premise of R129: "for every block `b` of L bytes, `D(E(b)) = b`". -/
def CipherInv (E D : Bytes → Bytes) (L : Nat) : Prop :=
  ∀ block : Bytes, block.length = L → D (E block) = block

end Sys2Proof.Machine
end

