-- ==== Sys2Proof/Machine/Flags.lean ====
section
/-! DEFINITION. The engine's two status indications (10_state.md R25): STATUS.BUSY and ERR.KIND, and the words
STATUS and ERR composed from them. There are no condition codes. -/

namespace Sys2Proof.Machine

/-- The numbers of R23. -/
def Phase.code : Phase → BitVec 3
  | .idle => 0
  | .validate => 1
  | .pad => 2
  | .process => 3
  | .unpad => 4
  | .done => 5
  | .failed => 6

/-- BUSY: "1 exactly when STATE is VALIDATE, PAD, PROCESS or UNPAD" (R25). -/
def Phase.busy : Phase → Bool
  | .idle => false
  | .validate => true
  | .pad => true
  | .process => true
  | .unpad => true
  | .done => false
  | .failed => false

/-- The codes of 60_exceptions.md R211. -/
def ErrorKind.code : ErrorKind → BitVec 4
  | .invalidKeyLength => 1
  | .invalidBlockLength => 2
  | .invalidLength => 3
  | .lengthMismatch => 4
  | .padding => 5
  | .illegalCommand => 6
  | .capacity => 7

/-- Busy (R12): the engine has a step. -/
def State.busy (s : State) : Bool := s.phase.busy

/-- The STATUS word (R28): `[31:4] 0, [3] BUSY, [2:0] STATE`. -/
def State.statusWord (s : State) : Word :=
  0#28 ++ BitVec.ofBool s.phase.busy ++ s.phase.code

/-- ERR.KIND (R29): the code, 0 for none. -/
def errCode : Option ErrorKind → BitVec 4
  | none => 0
  | some k => k.code

/-- The ERR word (R29): `[31:4] 0, [3:0] KIND`, that is `zext_32(code)` (R222). -/
def State.errWord (s : State) : Word := (errCode s.err).setWidth 32

end Sys2Proof.Machine
end

