-- ==== Sys2Proof/Machine/Ops.lean ====
section
/-! DEFINITION. The shared operations: reading and writing buffers, entry to FAILED (the one exception entry,
60_exceptions.md R222), and the two ways out of it: command start (R191, R225) and reset (R240). -/

namespace Sys2Proof.Machine

/-- What an unlisted address of a buffer reads as: 0, or the free value of R45. -/
def Fill.byte : Fill → Nat → Byte
  | .zero, _ => 0
  | .unspecified which epoch, addr => Config.unspecifiedByte which epoch addr

/-- The byte listed for an address. -/
def lookupCell (addr : Nat) : List Host.Cell → Option Byte
  | [] => none
  | c :: cs => if c.1 = addr then some c.2 else lookupCell addr cs

/-- Lists `v` at `addr`, in the place of an earlier entry for `addr`. -/
def insertCell (addr : Nat) (v : Byte) : List Host.Cell → List Host.Cell
  | [] => [(addr, v)]
  | c :: cs =>
    if addr < c.1 then (addr, v) :: c :: cs
    else if addr = c.1 then (addr, v) :: cs
    else c :: insertCell addr v cs

/-- Lists nothing at `addr`. -/
def eraseCell (addr : Nat) (cs : List Host.Cell) : List Host.Cell :=
  cs.filter fun c => c.1 != addr

/-- Byte `addr` of a buffer. -/
def Memory.read (m : Memory) (addr : Nat) : Byte :=
  (lookupCell addr m.cells).getD (m.fill.byte addr)

/-- Writes one byte. Over a zero fill, writing 0 removes the entry; over an unspecified fill every written
byte is listed, since what was there before is no known value (log entry 3). -/
def Memory.write (m : Memory) (addr : Nat) (v : Byte) : Memory :=
  if m.fill = .zero ∧ v = 0 then { m with cells := eraseCell addr m.cells }
  else { m with cells := insertCell addr v m.cells }

/-- `X[addr .. addr + len bs) <- bs` (R9). -/
def Memory.writeBytes (m : Memory) (addr : Nat) : Bytes → Memory
  | [] => m
  | v :: vs => (m.write addr v).writeBytes (addr + 1) vs

/-- `X[addr .. addr + n)` (R9). -/
def Memory.readBytes (m : Memory) (addr n : Nat) : Bytes :=
  (List.range n).map fun j => m.read (addr + j)

/-- A buffer with every byte 0: `rep(0, CAP)`. -/
def Memory.zeros : Memory := { fill := .zero, cells := [] }

/-- Addresses strictly rising. -/
def ascending : List Host.Cell → Bool
  | [] => true
  | [_] => true
  | c :: d :: cs => decide (c.1 < d.1) && ascending (d :: cs)

/-- The canonical form: addresses strictly rising, and over a zero fill no listed byte is 0. -/
def Memory.wf (m : Memory) : Bool :=
  ascending m.cells && (decide (m.fill ≠ .zero) || m.cells.all fun c => c.2 != 0)

/-- Every listed address is inside `[0, cap)`. -/
def Memory.within (m : Memory) (cap : Nat) : Bool :=
  m.cells.all fun c => decide (c.1 < cap)

/-- ENTRY TO FAILED, `raise k` (R222), "the whole effect of that step". CMD, LEN_A, LEN_B, A, B, IDX, NBLK are
not changed. -/
def State.raise (s : State) (k : ErrorKind) : State :=
  { s with
    err := some k
    lenOut := 0
    wlen := 0
    w := Memory.zeros
    chain := List.replicate s.config.L 0
    phase := .failed }

/-- COMMAND START (44_control.md R191), one atomic event; the only way out of FAILED but reset (R225). -/
def State.commandStart (s : State) (v : Word) : State :=
  { s with
    cmd := v
    err := none
    lenOut := 0
    idx := 0
    nblk := 0
    wlen := 0
    w := Memory.zeros
    chain := List.replicate s.config.L 0
    phase := .validate }

/-- RESET (70_reset_and_hazards.md R240), "at any moment and in any state". The parameters stay; the bytes of A
and B are unspecified anew. -/
def State.hostReset (s : State) : State :=
  State.resetWith s.config (s.resets + 1) s.events

end Sys2Proof.Machine
end

