-- ==== Sys2Proof/Machine/Operands.lean ====
section
/-! DEFINITION. The operand forms (30_encoding.md R94, R95; 20_memory.md R78): `A[0..LEN_A)`, `B[0..LEN_B)`, the
block length operand, block `i` of a buffer, the IV. -/

namespace Sys2Proof.Machine

/-- `OP = CMD[7:0]` (R27). -/
def State.op (s : State) : BitVec 8 := opField s.cmd

/-- `zext_32(CMD[15:8])` as a length: BL "used as it stands" (R94). -/
def blockLen (bl : BitVec 8) : Nat := bl.toNat

/-- Operand A: `A[0..LEN_A)` (R30). -/
def State.operandA (s : State) : Bytes := s.a.readBytes 0 s.lenA.toNat

/-- Operand B: `B[0..LEN_B)` (R31). -/
def State.operandB (s : State) : Bytes := s.b.readBytes 0 s.lenB.toNat

/-- The IV: `B[0..L)` (R166, R170), the operand B once `LEN_B = L` has been checked (R62). -/
def State.iv (s : State) : Bytes := s.b.readBytes 0 s.config.L

/-- Block `i` of a buffer: `X[i·m .. (i+1)·m)` (R78). -/
def Memory.block (m : Memory) (len i : Nat) : Bytes := m.readBytes (i * len) len

/-- `W[0..WLEN)` (R40). -/
def State.work (s : State) : Bytes := s.w.readBytes 0 s.wlen.toNat

end Sys2Proof.Machine
end

