-- ==== Sys2Proof/Machine/Control.lean ====
section
/-! DEFINITION. VALIDATE: the checks of 44_control.md R193 and the rule that the first failing one is raised; the
command CLEAR (R198); what a meaning answers outside the states of its command (R24). -/

namespace Sys2Proof.Machine

/-- A check of R193: its condition, and the error it raises when the condition holds. -/
abbrev Check := Bool × ErrorKind

/-- "The first check whose condition holds raises its error" (R193). -/
def firstError : List Check → Option ErrorKind
  | [] => none
  | c :: cs => if c.1 then some c.2 else firstError cs

/-- The VALIDATE step of R192: the first error that applies, or the command's success rule. -/
def State.validateStep (s : State) (checks : List Check) (passed : State) : State :=
  match firstError checks with
  | some k => s.raise k
  | none => passed

/-- Check 1 as far as the operand shows it: BL = 0 is illegal for PAD and UNPAD (R97, R135, R138). Every
other illegal word is refused by the decoder (`illegalStep`). -/
def checkBlockLen (bl : BitVec 8) : Check := (bl == 0, .illegalCommand)

/-- Check 2: `LEN_A > CAP`. -/
def State.checkLenA (s : State) : Check := (decide (s.config.CAP < s.lenA.toNat), .capacity)

/-- Check 3: `LEN_B > CAP`. -/
def State.checkLenB (s : State) : Check := (decide (s.config.CAP < s.lenB.toNat), .capacity)

/-- Check 4: `LEN_A ≠ LEN_B`. -/
def State.checkSameLen (s : State) : Check := (s.lenA != s.lenB, .lengthMismatch)

/-- Check 5: `LEN_B ≠ L`. -/
def State.checkIvLen (s : State) : Check := (s.lenB.toNat != s.config.L, .invalidLength)

/-- Check 6: `LEN_A mod L ≠ 0`. -/
def State.checkMultiple (s : State) : Check := (s.lenA.toNat % s.config.L != 0, .invalidLength)

/-- Check 7: `LEN_A + (m − (LEN_A mod m)) > CAP`. -/
def State.checkPadded (s : State) (m : Nat) : Check :=
  (decide (s.config.CAP < s.lenA.toNat + padCount s.lenA.toNat m), .capacity)

/-- The engine's step in a state the command never enters: no step in a quiescent state (R194), and a busy
state that R24 does not pair with the command cannot occur. -/
def offPath (p : Phase) : Host.Outcome State Fault Refusal :=
  if p.busy then .fault .unreachablePair else .fault .noStep

/-- The step of an illegal word (R97): VALIDATE raises IllegalCommandError "before anything else is checked". -/
def illegalStep (s : State) : Host.Outcome State Fault Refusal :=
  match s.phase with
  | .validate => .next (s.raise .illegalCommand)
  | p => offPath p

/-- The VALIDATE step of CLEAR (R198). -/
def State.clearValidated (s : State) : State :=
  { s with a := Memory.zeros, b := Memory.zeros, lenA := 0, lenB := 0, phase := .idle }

/-- CLEAR (R198). It "is subject to check 1 only" (R193). -/
def execClear (s : State) : Host.Outcome State Fault Refusal :=
  match s.phase with
  | .validate => .next (s.validateStep [] s.clearValidated)
  | p => offPath p

end Sys2Proof.Machine
end

