-- ==== Sys2Proof/Machine/BlockXor.lean ====
section
/-! DEFINITION. BlockXor (42_blockxor.md): the command XOR. -/

namespace Sys2Proof.Machine

/-- The VALIDATE checks of XOR (R153, R193). -/
def State.xorChecks (s : State) : List Check :=
  [s.checkLenA, s.checkLenB, s.checkSameLen]

/-- The VALIDATE step of XOR, every check passed: "the only change is `STATE <- PROCESS`" (R153). -/
def State.xorValidated (s : State) : State := { s with phase := .process }

/-- The PROCESS step of XOR (R154): "One step for the whole operand". -/
def State.xorStep (s : State) : State :=
  { s with
    w := s.w.writeBytes 0 (xorBytes s.operandA (s.b.readBytes 0 s.lenA.toNat))
    wlen := s.lenA
    lenOut := s.lenA
    phase := .done }

/-- XOR (R153). -/
def execXor (s : State) : Host.Outcome State Fault Refusal :=
  match s.phase with
  | .validate => .next (s.validateStep s.xorChecks s.xorValidated)
  | .process => .next s.xorStep
  | p => offPath p

end Sys2Proof.Machine
end

