-- ==== Sys2Proof/Machine/Padder.lean ====
section
/-! DEFINITION. The Padder (41_padder.md): the PAD and UNPAD steps, which the CBC commands share, and the
commands PAD and UNPAD. -/

namespace Sys2Proof.Machine

/-- The buffer writes of the PAD step (R137, R167): `W[0..LEN_A) <- A[0..LEN_A)`, then `n` bytes of value `n`
from LEN_A on. -/
def State.paddedWork (s : State) (m : Nat) : Memory :=
  (s.w.writeBytes 0 s.operandA).writeBytes s.lenA.toNat
    (List.replicate (padCount s.lenA.toNat m) (BitVec.ofNat 8 (padCount s.lenA.toNat m)))

/-- `LEN_A + n` (R137, R167). -/
def State.paddedLen (s : State) (m : Nat) : Nat := s.lenA.toNat + padCount s.lenA.toNat m

/-- The VALIDATE checks of PAD (R135, R193). -/
def State.padChecks (s : State) (bl : BitVec 8) : List Check :=
  [checkBlockLen bl, s.checkLenA, s.checkPadded (blockLen bl)]

/-- The VALIDATE step of PAD, every check passed (R136). -/
def State.padValidated (s : State) : State := { s with phase := .pad }

/-- The PAD step of the command PAD (R137). -/
def State.padStep (s : State) (bl : BitVec 8) : State :=
  { s with
    w := s.paddedWork (blockLen bl)
    wlen := BitVec.ofNat 32 (s.paddedLen (blockLen bl))
    lenOut := BitVec.ofNat 32 (s.paddedLen (blockLen bl))
    phase := .done }

/-- PAD bl (R135). -/
def execPad (bl : BitVec 8) (s : State) : Host.Outcome State Fault Refusal :=
  match s.phase with
  | .validate => .next (s.validateStep (s.padChecks bl) s.padValidated)
  | .pad => .next (s.padStep bl)
  | p => offPath p

/-- The VALIDATE checks of UNPAD (R138, R193): "checks 1 and 2 only". -/
def State.unpadChecks (s : State) (bl : BitVec 8) : List Check :=
  [checkBlockLen bl, s.checkLenA]

/-- The VALIDATE step of UNPAD, every check passed (R139). -/
def State.unpadValidated (s : State) : State :=
  { s with
    w := s.w.writeBytes 0 s.operandA
    wlen := s.lenA
    phase := .unpad }

/-- The UNPAD step (R140) with block length `m`: for UNPAD the operand, for CBC.DEC the parameter L. -/
def State.unpadStep (s : State) (m : Nat) : State :=
  match Sys2Proof.Machine.unpad s.work m with
  | .ok r => { s with lenOut := BitVec.ofNat 32 r.length, phase := .done }
  | .error k => s.raise k

/-- UNPAD bl (R138). -/
def execUnpad (bl : BitVec 8) (s : State) : Host.Outcome State Fault Refusal :=
  match s.phase with
  | .validate => .next (s.validateStep (s.unpadChecks bl) s.unpadValidated)
  | .unpad => .next (s.unpadStep (blockLen bl))
  | p => offPath p

end Sys2Proof.Machine
end

