-- ==== Sys2Proof/Machine/CbcEngine.lean ====
section
/-! DEFINITION. CbcEngine (43_cbc_engine.md): the commands CBC.ENC and CBC.DEC, one PROCESS step per block. -/

namespace Sys2Proof.Machine

/-- "Let `i = IDX`" (R168, R171). -/
def State.blockIndex (s : State) : Nat := s.idx.toNat

/-- `i + 1 = NBLK` (R168, R171). -/
def State.lastBlock (s : State) : Bool := s.blockIndex + 1 == s.nblk.toNat

/-- The VALIDATE checks of CBC.ENC (R165, R193). -/
def State.encChecks (s : State) : List Check :=
  [s.checkLenA, s.checkLenB, s.checkIvLen, s.checkPadded s.config.L]

/-- The VALIDATE step of CBC.ENC, every check passed (R166). -/
def State.encValidated (s : State) : State := { s with chain := s.iv, phase := .pad }

/-- The PAD step of CBC.ENC (R167). -/
def State.encPadStep (s : State) : State :=
  { s with
    w := s.paddedWork s.config.L
    wlen := BitVec.ofNat 32 (s.paddedLen s.config.L)
    nblk := BitVec.ofNat 32 (s.paddedLen s.config.L / s.config.L)
    phase := .process }

/-- What CBC.ENC gives the port for block `i`: `X[j] = CHAIN[j] XOR W[i*L + j]` (R168). -/
def State.encInput (s : State) : Bytes := xorBytes s.chain (s.w.block s.config.L s.blockIndex)

/-- The PROCESS step of CBC.ENC (R168). -/
def State.encStep (s : State) : State :=
  { s with
    w := s.w.writeBytes (s.blockIndex * s.config.L) (s.encryptBlock s.encInput)
    chain := s.encryptBlock s.encInput
    idx := BitVec.ofNat 32 (s.blockIndex + 1)
    lenOut := if s.lastBlock then s.wlen else s.lenOut
    phase := if s.lastBlock then .done else .process }

/-- CBC.ENC (R165). -/
def execCbcEnc (s : State) : Host.Outcome State Fault Refusal :=
  match s.phase with
  | .validate => .next (s.validateStep s.encChecks s.encValidated)
  | .pad => .next s.encPadStep
  | .process => .next s.encStep
  | p => offPath p

/-- The VALIDATE checks of CBC.DEC (R169, R193). -/
def State.decChecks (s : State) : List Check :=
  [s.checkLenA, s.checkLenB, s.checkIvLen, s.checkMultiple]

/-- The VALIDATE step of CBC.DEC, every check passed (R170). An empty ciphertext goes straight to UNPAD (R172). -/
def State.decValidated (s : State) : State :=
  { s with
    chain := s.iv
    nblk := BitVec.ofNat 32 (s.lenA.toNat / s.config.L)
    wlen := s.lenA
    phase := if 0 < s.lenA.toNat then .process else .unpad }

/-- What CBC.DEC gives the port for block `i`: the ciphertext block `C[i] = A[i*L .. (i+1)*L)` (R171). -/
def State.decInput (s : State) : Bytes := s.a.block s.config.L s.blockIndex

/-- The PROCESS step of CBC.DEC (R171). CHAIN is loaded with the CIPHERTEXT block. -/
def State.decStep (s : State) : State :=
  { s with
    w := s.w.writeBytes (s.blockIndex * s.config.L) (xorBytes (s.decryptBlock s.decInput) s.chain)
    chain := s.decInput
    idx := BitVec.ofNat 32 (s.blockIndex + 1)
    phase := if s.lastBlock then .unpad else .process }

/-- CBC.DEC (R169). -/
def execCbcDec (s : State) : Host.Outcome State Fault Refusal :=
  match s.phase with
  | .validate => .next (s.validateStep s.decChecks s.decValidated)
  | .process => .next s.decStep
  | .unpad => .next (s.unpadStep s.config.L)
  | p => offPath p

/-- A use of the port (R120). -/
inductive PortCall where
  | encrypt (block : Bytes)
  | decrypt (block : Bytes)
  deriving DecidableEq, Repr

/-- The port call that the engine step of a command makes, if it makes one (R126): a PROCESS step of a CBC
command makes exactly one, every other step none. -/
def portCall (i : Instr) (s : State) : Option PortCall :=
  match s.phase, i with
  | .process, .cbcEnc => some (.encrypt s.encInput)
  | .process, .cbcDec => some (.decrypt s.decInput)
  | _, _ => none

end Sys2Proof.Machine
end

