-- ==== Sys2Proof/Machine/Dispatch.lean ====
section
/-! DEFINITION. One engine step of a command, one arm per command (44_control.md R194). -/

namespace Sys2Proof.Machine

def exec (i : Instr) (s : State) : Host.Outcome State Fault Refusal :=
  match i with
  | .clear => Sys2Proof.Machine.execClear s
  | .pad bl => Sys2Proof.Machine.execPad bl s
  | .unpad bl => Sys2Proof.Machine.execUnpad bl s
  | .xor => Sys2Proof.Machine.execXor s
  | .cbcEnc => Sys2Proof.Machine.execCbcEnc s
  | .cbcDec => Sys2Proof.Machine.execCbcDec s

end Sys2Proof.Machine
end

