-- ==== Sys2Proof/Machine/HostPort.lean ====
section
/-! DEFINITION. What the host can do (44_control.md R199 to R204; 20_memory.md R64, R65): register and buffer reads
and writes, reset. No access raises an error (R210). -/

namespace Sys2Proof.Machine

/-- `RegRead(off)` (R199): the register at byte offset `off` (R26), 0 at every other offset (R37, R67). -/
def State.regRead (s : State) (off : Nat) : Word :=
  match off with
  | 0x00 => s.cmd
  | 0x04 => s.statusWord
  | 0x08 => s.errWord
  | 0x0C => s.lenA
  | 0x10 => s.lenB
  | 0x14 => s.lenOut
  | 0x18 => s.idx
  | 0x1C => s.nblk
  | 0x20 => BitVec.ofNat 32 s.config.L
  | 0x24 => BitVec.ofNat 32 s.config.CAP
  | _ => 0

/-- `RegWrite(off, v)`: dropped while busy (R201); CMD starts a command (R190); LEN_A and LEN_B take any value
(R200); every other offset is read-only or holds nothing (R202). -/
def State.regWrite (s : State) (off : Nat) (v : Word) : State :=
  if s.busy then s
  else match off with
    | 0x00 => s.commandStart v
    | 0x0C => { s with lenA := v }
    | 0x10 => { s with lenB := v }
    | _ => s

/-- `MemRead(space, addr, 1)` (R64); OUT is gated (10_state.md R41). -/
def State.memRead (s : State) (space : Space) (addr : Nat) : Byte :=
  match space with
  | .a => if addr < s.config.CAP then s.a.read addr else 0
  | .b => if addr < s.config.CAP then s.b.read addr else 0
  | .out => if s.phase = .done ∧ addr < s.lenOut.toNat ∧ addr < s.config.CAP then s.w.read addr else 0

/-- `MemWrite(space, addr, 1, v)` (R65): dropped while busy, out of range, and for OUT (R201, R202). -/
def State.memWrite (s : State) (space : Space) (addr : Nat) (v : Byte) : State :=
  if s.busy ∨ s.config.CAP ≤ addr then s
  else match space with
    | .a => { s with a := s.a.write addr v }
    | .b => { s with b := s.b.write addr v }
    | .out => s

/-- The state after a host access. "No read changes any state" (R64, R199). -/
def State.hostAccess (s : State) : Access → State
  | .regRead _ => s
  | .regWrite off v => s.regWrite off v
  | .memRead _ _ => s
  | .memWrite space addr v => s.memWrite space addr v
  | .reset => s.hostReset

/-- What a host access returns to the host; a byte as a word with zeros above it. -/
def State.hostAnswer (s : State) : Access → Option Word
  | .regRead off => some (s.regRead off)
  | .memRead space addr => some ((s.memRead space addr).setWidth 32)
  | .regWrite _ _ => none
  | .memWrite _ _ _ => none
  | .reset => none

/-- The result the host reads: `OUT[0..LEN_OUT)`, the pseudo-instruction GETOUT (30_encoding.md R102). -/
def State.getOut (s : State) : Bytes :=
  (List.range (s.regRead 0x14).toNat).map fun j => s.memRead .out j

/-- The pseudo-instruction GETERR (R102): `RegRead(0x08)[3:0]`. -/
def State.getErr (s : State) : BitVec 4 := (s.regRead 0x08).extractLsb' 0 4

end Sys2Proof.Machine
end

