-- ==== Sys2Proof/Machine/Engine.lean ====
section
/-! DEFINITION. The engine's step as a whole (44_control.md R194) and the order of events (20_memory.md R72). -/

namespace Sys2Proof.Machine

/-- The engine's step: CMD, "the engine's latch for the running command" (10_state.md R27), is decoded and the
step that STATE selects is taken. -/
def engineStep (s : State) : Host.Outcome State Fault Refusal :=
  match decode s.cmd with
  | .ok i => exec i s
  | .error _ => illegalStep s

/-- The engine's turn: "The engine has a step exactly when it is busy" (R194); a quiescent engine "does nothing
until the host writes CMD" (70_reset_and_hazards.md R240), so its turn leaves the state as it is (log 5). -/
def engineTurn (s : State) : Host.Outcome State Fault Refusal :=
  if s.busy then engineStep s else .next s

/-- The next event of the schedule (R72). When no entry is left it is the engine's turn (log entry 4). -/
def nextEvent (s : State) : Host.Outcome State Fault Refusal :=
  match s.events with
  | [] => engineTurn s
  | .engine :: rest => engineTurn { s with events := rest }
  | .host access :: rest => .next (({ s with events := rest } : State).hostAccess access)

/-- The port call of the engine's next step (R126). -/
def enginePortCall (s : State) : Option PortCall :=
  match decode s.cmd with
  | .ok i => portCall i s
  | .error _ => none

/-- The command word `w`, its bits at and above `nbits` 0, accepted by CMD (44_control.md R190, R191), with the
engine next to move. -/
def State.placeCommand (s : State) (nbits w : Nat) : State :=
  { s.commandStart (BitVec.ofNat 32 (w % 2 ^ nbits)) with events := [] }

end Sys2Proof.Machine
end

