-- ==== Sys2Proof/Machine/Step.lean ====
section
/-! DEFINITION. One step of the whole machine: one event, a host access or an engine step. -/

namespace Sys2Proof.Machine

/-- One event (20_memory.md R72). An engine built with parameters outside the ranges of 00_scope.md R6 is
refused (U3, U5 of 93_implementation_defined.md). -/
def step (s : State) : Host.Outcome State Fault Refusal :=
  if s.config.legal then nextEvent s else .refused .illegalConfiguration

/-- The engine fetches nothing (10_state.md R22): a command comes from an accepted write to CMD. This is that
event, so that the very next step is the VALIDATE step of the word (log entry 7). -/
def State.withFetchWord (s : State) (nbits w : Nat) : State := s.placeCommand nbits w

end Sys2Proof.Machine
end

