-- ==== Sys2Proof/Machine/Script.lean ====
section
/-! DEFINITION. The host scripts of 30_encoding.md R102 and R103: each pseudo-instruction as the events that it comes
to. The polling loop of RUN depends on what the host reads, so a schedule is a function of the state the script starts
from. -/

namespace Sys2Proof.Machine

/-! ### Events in order -/

/-- The state after a list of events, engine turns and host accesses, in order (20_memory.md R72). -/
def State.afterEvents (s : State) : List Event → Host.Outcome State Fault Refusal
  | [] => .next s
  | .engine :: rest =>
    match engineTurn s with
    | .next t => t.afterEvents rest
    | .fault f => .fault f
    | .refused r => .refused r
  | .host x :: rest => (s.hostAccess x).afterEvents rest

/-! ### The pseudo-instructions (R102) -/

/-- A pseudo-instruction of R102. -/
inductive Pseudo where
  | setA (h : Bytes)
  | setB (h : Bytes)
  | run (c : Instr)
  | runWord (w : Word)
  | getOut
  | getErr
  | reset
  deriving DecidableEq, Repr

/-- `MemWrite(space, addr + i, 1, h[i])` for every `i`, in order. -/
def storeBytes (space : Space) (addr : Nat) : Bytes → List Event
  | [] => []
  | v :: vs => .host (.memWrite space addr v) :: storeBytes space (addr + 1) vs

/-- `len(h)`, the value that SETA and SETB give RegWrite. DESIGN CHOICE where it is 2^32 or more, which is no 32-bit
value and of which R102 says nothing: the greatest 32-bit value is written, so that a call with such an argument fails
with CapacityError, as R103 says of every argument longer than CAP (log entry 17). -/
def lengthWord (h : Bytes) : Word := BitVec.ofNat 32 (min h.length 0xFFFFFFFF)

/-- `SETA h`. -/
def scriptSetA (h : Bytes) : List Event :=
  storeBytes .a 0 h ++ [.host (.regWrite 0x0C (lengthWord h))]

/-- `SETB h`. -/
def scriptSetB (h : Bytes) : List Event :=
  storeBytes .b 0 h ++ [.host (.regWrite 0x10 (lengthWord h))]

/-- The loop's test on a value read from STATUS: `s[3] = 0`. -/
def pollEnds (status : Word) : Bool := !status.getLsbD 3

/-- One turn of the loop: the engine turns that come first, and the read. -/
def pollOnce (turns : Nat) : List Event := List.replicate turns .engine ++ [.host (.regRead 0x04)]

/-- The reads of the loop, each after as many engine turns as `pace` says, up to the first that shows BUSY = 0; `none`
where no read of `pace` shows it. -/
def pollLoop : List Nat → State → Option (List Event)
  | [], _ => none
  | turns :: pace, s =>
    match s.afterEvents (List.replicate turns .engine) with
    | .next u =>
      if pollEnds (u.regRead 0x04) then some (pollOnce turns) else (pollLoop pace u).map (pollOnce turns ++ ·)
    | .fault _ => none
    | .refused _ => none

/-- No command takes more engine steps than this (44_control.md R195, R204). -/
def State.turnBound (s : State) : Nat := s.lenA.toNat / s.config.L + 3

/-- "repeat `s <- RegRead(0x04)` until `s[3] = 0`". The loop ends with the first read that shows BUSY = 0 and with no
other. The spec leaves the host's speed open (R72, U7): `pace` says how many engine turns, 0 or more, come before each
of the first reads; after those the host reads once a turn, since the engine is scheduled fairly (44_control.md R196).
`turnBound` more turns end every command, so the answer is `some` from every state with `EngineInv`, whatever `pace`
is (log entry 4). -/
def pollSchedule (pace : List Nat) (s : State) : Option (List Event) :=
  pollLoop (pace ++ List.replicate s.turnBound 1) s

/-- `RUNW w`, from state `s`: `RegWrite(0x00, w)` and the loop. -/
def scriptRunWord (w : Word) (pace : List Nat) (s : State) : Option (List Event) :=
  (pollSchedule pace (s.regWrite 0x00 w)).map (.host (.regWrite 0x00 w) :: ·)

/-- `RUN c`, from state `s`. -/
def scriptRun (c : Instr) (pace : List Nat) (s : State) : Option (List Event) := scriptRunWord (encode c) pace s

/-- `GETOUT`, from state `s`: LEN_OUT is read, then that many bytes of OUT. Its result is `State.getOut`. -/
def scriptGetOut (s : State) : List Event :=
  .host (.regRead 0x14) :: (List.range (s.regRead 0x14).toNat).map fun i => .host (.memRead .out i)

/-- `GETERR`. Its result is `State.getErr`. -/
def scriptGetErr : List Event := [.host (.regRead 0x08)]

/-- `RESET`. -/
def scriptReset : List Event := [.host .reset]

/-- The events of a pseudo-instruction that starts in state `s`, to its end; `pace` is read by RUN and RUNW only. -/
def Pseudo.schedule (p : Pseudo) (pace : List Nat) (s : State) : Option (List Event) :=
  match p with
  | .setA h => some (scriptSetA h)
  | .setB h => some (scriptSetB h)
  | .run c => scriptRun c pace s
  | .runWord w => scriptRunWord w pace s
  | .getOut => some (scriptGetOut s)
  | .getErr => some scriptGetErr
  | .reset => some scriptReset

/-- The events of a script, "a list of host actions" (R102), from state `s`: each pseudo-instruction starts where the
one before it has ended, a loop with its read of BUSY = 0. `paces` gives the pseudo-instructions their speeds in order,
and `[]` to those it does not reach. -/
def scriptSchedule : List (List Nat) → List Pseudo → State → Option (List Event)
  | _, [], _ => some []
  | paces, p :: ps, s =>
    match p.schedule (paces.headD []) s with
    | none => none
    | some es =>
      match s.afterEvents es with
      | .next t => (scriptSchedule paces.tail ps t).map (es ++ ·)
      | .fault _ => none
      | .refused _ => none

/-! ### The source's calls (R103) -/

/-- The call `pad(data, bl)`. -/
def callPad (data : Bytes) (bl : BitVec 8) : List Pseudo := [.setA data, .run (.pad bl)]

/-- The call `unpad(data, bl)`. -/
def callUnpad (data : Bytes) (bl : BitVec 8) : List Pseudo := [.setA data, .run (.unpad bl)]

/-- The call `xor(a, b)`. -/
def callXor (x y : Bytes) : List Pseudo := [.setA x, .setB y, .run .xor]

/-- The call `cbc_encrypt(p, iv, cipher)`. -/
def callCbcEncrypt (p iv : Bytes) : List Pseudo := [.setA p, .setB iv, .run .cbcEnc]

/-- The call `cbc_decrypt(c, iv, cipher)`. -/
def callCbcDecrypt (c iv : Bytes) : List Pseudo := [.setA c, .setB iv, .run .cbcDec]

/-- The value of a call (R103): `Ok(GETOUT)` in DONE, `Err(kind of GETERR)` in FAILED, none otherwise. -/
def State.callValue (s : State) : Option (Except ErrorKind Bytes) :=
  match s.phase, s.err with
  | .done, _ => some (.ok s.getOut)
  | .failed, some k => some (.error k)
  | _, _ => none

end Sys2Proof.Machine
end

