-- ==== Sys2Proof/Safety.lean ====
section
/-! DEFINITION. The terms in which claims are made: runs, what the port is asked, the
tables of R193 and R24, the invariants of R44 and the stronger one that every step keeps. -/

namespace Sys2Proof.Machine

/-- `k` events in a row. -/
def runSteps : Nat → State → Host.Outcome State Fault Refusal
  | 0, s => .next s
  | k + 1, s =>
    match step s with
    | .next t => runSteps k t
    | .fault f => .fault f
    | .refused r => .refused r

/-- The uses of the port in the next `k` steps of an engine that the host leaves alone (R126). -/
def portCalls : Nat → State → List PortCall
  | 0, _ => []
  | k + 1, s =>
    (enginePortCall s).toList ++
    (match step s with
      | .next t => portCalls k t
      | _ => [])

/-- Quiescent (R12): STATE is IDLE, DONE or FAILED. -/
def State.quiescent (s : State) : Prop := s.busy = false

/-- An engine whose parameters are in range, quiescent, with no host move pending. -/
structure State.Ready (s : State) : Prop where
  legal : s.config.legal = true
  quiescent : s.busy = false
  alone : s.events = []

/-- A row of the table of 44_control.md R193. -/
structure CheckRow where
  applies : Instr → Bool
  fails : Instr → State → Bool
  error : ErrorKind

/-- The length `m` of R193: `CMD[15:8]` for PAD, L for CBC.ENC. -/
def checkedLen (i : Instr) (s : State) : Nat :=
  match i with
  | .pad _ => (blField s.cmd).toNat
  | _ => s.config.L

/-- The condition of row 7 of R193: `LEN_A + (m − (LEN_A mod m)) > CAP`. -/
def State.paddedOverflow (s : State) (m : Nat) : Bool :=
  decide (s.config.CAP < s.lenA.toNat + (m - s.lenA.toNat % m))

/-- Rows 2 to 7 of R193, in order (row 1 is the decoder's refusal). -/
def checkTable : List CheckRow :=
  [ { applies := fun i => i.opcode != 0x00#8
      fails := fun _ s => decide (s.config.CAP < s.lenA.toNat)
      error := .capacity },
    { applies := fun i => i.opcode == 0x03#8 || i.opcode == 0x04#8 || i.opcode == 0x05#8
      fails := fun _ s => decide (s.config.CAP < s.lenB.toNat)
      error := .capacity },
    { applies := fun i => i.opcode == 0x03#8
      fails := fun _ s => decide (s.lenA.toNat ≠ s.lenB.toNat)
      error := .lengthMismatch },
    { applies := fun i => i.opcode == 0x04#8 || i.opcode == 0x05#8
      fails := fun _ s => decide (s.lenB.toNat ≠ s.config.L)
      error := .invalidLength },
    { applies := fun i => i.opcode == 0x05#8
      fails := fun _ s => decide (s.lenA.toNat % s.config.L ≠ 0)
      error := .invalidLength },
    { applies := fun i => i.opcode == 0x01#8 || i.opcode == 0x04#8
      fails := fun i s => s.paddedOverflow (checkedLen i s)
      error := .capacity } ]

/-- The error of VALIDATE for a decoded command (R193): that of the first row that applies and fails. -/
def validateError (i : Instr) (s : State) : Option ErrorKind :=
  (checkTable.find? fun r => r.applies i && r.fails i s).map CheckRow.error

/-- The rows of 10_state.md R24 for VALIDATE: where a command that passes its checks goes. -/
def phaseAfterValidate (i : Instr) (s : State) : Phase :=
  match i with
  | .clear => .idle
  | .pad _ => .pad
  | .unpad _ => .unpad
  | .xor => .process
  | .cbcEnc => .pad
  | .cbcDec => if s.lenA.toNat > 0 then .process else .unpad

/-- The row of R24 for PAD. -/
def phaseAfterPad (i : Instr) : Option Phase :=
  match i with
  | .clear => none
  | .pad _ => some .done
  | .unpad _ => none
  | .xor => none
  | .cbcEnc => some .process
  | .cbcDec => none

/-- The rows of R24 for PROCESS. -/
def phaseAfterProcess (i : Instr) (s : State) : Option Phase :=
  match i with
  | .clear => none
  | .pad _ => none
  | .unpad _ => none
  | .xor => some .done
  | .cbcEnc => some (if s.idx.toNat + 1 < s.nblk.toNat then .process else .done)
  | .cbcDec => some (if s.idx.toNat + 1 < s.nblk.toNat then .process else .unpad)

/-- The rows of R24 for UNPAD. -/
def phaseAfterUnpad (i : Instr) (s : State) : Option Phase :=
  match i with
  | .clear => none
  | .pad _ => none
  | .unpad bl => some (if (unpad s.work (blockLen bl)).isOk then .done else .failed)
  | .xor => none
  | .cbcEnc => none
  | .cbcDec => some (if (unpad s.work s.config.L).isOk then .done else .failed)

/-- The rows of R24 that are engine steps: STATE after the step of command `i`; `none` for an empty cell and for
the quiescent states. -/
def phaseAfter (i : Instr) (s : State) : Option Phase :=
  match s.phase with
  | .idle => none
  | .validate => some (if (validateError i s).isSome then .failed else phaseAfterValidate i s)
  | .pad => phaseAfterPad i
  | .process => phaseAfterProcess i s
  | .unpad => phaseAfterUnpad i s
  | .done => none
  | .failed => none

/-- R24 as a whole: how STATE changes at each event. -/
def stateTransition (s t : State) : Prop :=
  match s.events with
  | .host .reset :: _ => t.phase = .idle
  | .host (.regWrite 0x00 _) :: _ => if s.busy then t.phase = s.phase else t.phase = .validate
  | .host _ :: _ => t.phase = s.phase
  | _ =>
    if s.busy then
      match decode s.cmd with
      | .ok i => phaseAfter i s = some t.phase
      | .error _ => s.phase = .validate ∧ t.phase = .failed
    else t.phase = s.phase

/-- The invariants of 10_state.md R44, item by item (item 7, `STATE ≠ 7`, as the host reads it). -/
structure StateLaws (s : State) : Prop where
  errIffFailed : (s.err ≠ none ↔ s.phase = .failed)
  lenOutOutsideDone : s.phase ≠ .done → s.lenOut = 0
  lenOutLe : s.lenOut.toNat ≤ s.wlen.toNat ∧ s.wlen.toNat ≤ s.config.CAP
  failedIsClear : s.phase = .failed →
    s.wlen = 0 ∧ (∀ addr, s.w.read addr = 0) ∧ s.chain = List.replicate s.config.L 0
  cbcProcess : s.phase = .process → (s.op = 0x04#8 ∨ s.op = 0x05#8) →
    s.idx.toNat < s.nblk.toNat ∧ 1 ≤ s.nblk.toNat ∧ s.nblk.toNat * s.config.L = s.wlen.toNat
  encDone : s.phase = .done → s.op = 0x04#8 →
    s.idx = s.nblk ∧ s.lenOut = s.wlen ∧ s.wlen.toNat = s.nblk.toNat * s.config.L
  stateNot7 : (s.statusWord).extractLsb' 0 3 ≠ 7#3

/-- What a busy state owes to the command in CMD: which command may be in which state (the non-empty cells of
R24), and the lengths its VALIDATE step has checked (R193). -/
def pathLaw (s : State) : Prop :=
  match s.phase with
  | .idle => True
  | .validate => s.idx = 0 ∧ s.nblk = 0 ∧ s.wlen = 0
  | .pad =>
    s.idx = 0 ∧ s.nblk = 0 ∧ s.wlen = 0 ∧
    ((∃ bl, decode s.cmd = .ok (.pad bl) ∧ s.paddedLen (blockLen bl) ≤ s.config.CAP) ∨
     (decode s.cmd = .ok .cbcEnc ∧ s.lenB.toNat = s.config.L ∧ s.paddedLen s.config.L ≤ s.config.CAP))
  | .process =>
    (decode s.cmd = .ok .xor ∧ s.wlen = 0 ∧ s.lenA = s.lenB ∧ s.lenA.toNat ≤ s.config.CAP) ∨
    (decode s.cmd = .ok .cbcEnc ∧ s.lenB.toNat = s.config.L ∧ s.wlen.toNat = s.paddedLen s.config.L) ∨
    (decode s.cmd = .ok .cbcDec ∧ s.lenB.toNat = s.config.L ∧ s.wlen = s.lenA)
  | .unpad =>
    (∃ bl, decode s.cmd = .ok (.unpad bl) ∧ s.wlen = s.lenA) ∨
    (decode s.cmd = .ok .cbcDec ∧ s.lenB.toNat = s.config.L ∧ s.wlen = s.lenA ∧ s.idx = s.nblk ∧
      s.nblk.toNat * s.config.L = s.wlen.toNat)
  | .done => True
  | .failed => True

/-- The buffers: canonical form, inside `[0, CAP)` (R79), W over zeros and zero from WLEN on (R40). -/
structure BufferLaws (s : State) : Prop where
  aWf : s.a.wf = true
  bWf : s.b.wf = true
  wWf : s.w.wf = true
  aWithin : s.a.within s.config.CAP = true
  bWithin : s.b.within s.config.CAP = true
  wWithin : s.w.within s.config.CAP = true
  wFill : s.w.fill = .zero
  wTail : ∀ addr, s.wlen.toNat ≤ addr → s.w.read addr = 0
  chainLen : s.chain.length = s.config.L

/-- The invariant that every step keeps, in every state, reachable or not. -/
structure EngineInv (s : State) : Prop where
  legal : s.config.legal = true
  laws : StateLaws s
  path : pathLaw s
  buffers : BufferLaws s

/-- The engine's own part of a state: all but the schedule. -/
def State.sameEngine (s t : State) : Prop := { s with events := [] } = { t with events := [] }

/-- How many events of a schedule are engine turns. -/
def engineTurns (es : List Event) : Nat := es.countP fun e => e == .engine

end Sys2Proof.Machine
end

