-- ==== Sys2Proof/Certificates/Slice0/Obligations.lean ====
section
/-! DEFINITION. The statements about this model, for the provers. Each docstring names the rules it formalises.
"`t = { s with f := t.f, … }`" is a frame: every field it does not name is as before. -/

open Sys2Proof Sys2Proof.Machine

/-! ### The command word (30_encoding.md) -/

/-- R99, its examples and one word of every other command: words written out from the field layout of R91, R92
decode to the command they stand for, and the illegal examples are refused. -/
def Obligations.ExampleWordsDecode : Prop :=
  decode 0x00000000#32 = .ok .clear ∧
  decode 0x00001001#32 = .ok (.pad 16#8) ∧
  decode 0x00000401#32 = .ok (.pad 4#8) ∧
  decode 0x00001002#32 = .ok (.unpad 16#8) ∧
  decode 0x0000FF02#32 = .ok (.unpad 255#8) ∧
  decode 0x00000003#32 = .ok .xor ∧
  decode 0x00000004#32 = .ok .cbcEnc ∧
  decode 0x00000005#32 = .ok .cbcDec ∧
  (∀ w ∈ [0x00000006#32, 0x00010004#32, 0x00001004#32, 0x00000001#32, 0x00000100#32], ∃ e, decode w = .error e)

/-- R99: decoding an encoded well-formed command gives it back, with its operand at every value the encoding
admits, and encoding a decoded word gives the word back; what the decoder answers is well formed. -/
def Obligations.DecodeEncodeRoundTrip : Prop :=
  (∀ i : Instr, i.wf = true → decode (encode i) = .ok i) ∧
  (∀ (w : Word) (i : Instr), decode w = .ok i → i.wf = true ∧ encode i = w)

/-- R97: the illegal words, exactly; CMD stores an illegal word and starts it like any other; VALIDATE fails it with
IllegalCommandError, whatever the operands, with no use of the port. -/
def Obligations.IllegalWordsExactly : Prop :=
  (∀ w : Word, (∃ e, decode w = .error e) ↔
    (w.toNat / 65536 ≠ 0 ∨ 6 ≤ w.toNat % 256 ∨
      ((w.toNat % 256 = 0 ∨ w.toNat % 256 = 3 ∨ w.toNat % 256 = 4 ∨ w.toNat % 256 = 5) ∧
        w.toNat / 256 % 256 ≠ 0) ∨
      ((w.toNat % 256 = 1 ∨ w.toNat % 256 = 2) ∧ w.toNat / 256 % 256 = 0))) ∧
  (∀ (s : State) (w : Word) (e : DecodeError), s.busy = false → decode w = .error e →
    (s.regWrite 0x00 w).cmd = w ∧ (s.regWrite 0x00 w).phase = .validate) ∧
  (∀ (s : State) (e : DecodeError), s.phase = .validate → decode s.cmd = .error e →
    engineStep s = .next (s.raise .illegalCommand) ∧ enginePortCall s = none)

/-- R96, R98: a word selects exactly one row of the opcode map, the row of the command it decodes to, or it selects
none and is illegal. -/
def Obligations.OpcodeMapIsTheDecoder : Prop :=
  ∀ w : Word,
    (∀ i, decode w = .ok i →
      (opcodeMap.filter fun r => r.selects w).map OpcodeRow.mnemonic = [i.mnemonic]) ∧
    (∀ e, decode w = .error e → (opcodeMap.filter fun r => r.selects w) = [])

/-! ### One step of the machine -/

/-- R194, R27: while the engine is busy with a command it decodes, a step with the engine's turn next IS exec of that
command. A schedule entry for the engine's turn is used up. -/
def Obligations.StepRunsDecodedCommand : Prop :=
  ∀ (s : State) (i : Instr), s.config.legal = true → s.busy = true → decode s.cmd = .ok i →
    (s.events = [] → step s = exec i s) ∧
    (∀ rest, s.events = .engine :: rest → step s = exec i { s with events := rest })

/-- The model's placing of a command (log entry 7): the word is in CMD as an accepted write leaves it, nothing else of
the host's is touched, and the very next step is exec of the command the word decodes to. -/
def Obligations.PlacedWordRunsNext : Prop :=
  ∀ (s : State) (w : Nat) (i : Instr), s.config.legal = true → w < 2 ^ 32 → decodeTableWord 32 w = some i →
    step (s.withFetchWord 32 w) = exec i (s.withFetchWord 32 w) ∧
    (s.withFetchWord 32 w).phase = .validate ∧
    (s.withFetchWord 32 w).cmd = BitVec.ofNat 32 w ∧
    (s.withFetchWord 32 w).a = s.a ∧ (s.withFetchWord 32 w).b = s.b ∧
    (s.withFetchWord 32 w).lenA = s.lenA ∧ (s.withFetchWord 32 w).lenB = s.lenB ∧
    (s.withFetchWord 32 w).config = s.config

/-- R72: an event of the schedule that is a host access is that access and no engine step. R194, R240 ("IDLE, DONE, FAILED
-> no step"): no command has an engine step in a quiescent state; the model's choice of log entry 5 is that a quiescent
engine's turn changes nothing. -/
def Obligations.HostAccessesAndIdleTurns : Prop :=
  (∀ (i : Instr) (s : State), s.busy = false → exec i s = .fault .noStep) ∧
  (∀ s : State, s.config.legal = true →
    (∀ x rest, s.events = .host x :: rest →
      step s = .next (({ s with events := rest } : State).hostAccess x)) ∧
    (s.busy = false →
      (s.events = [] → step s = .next s) ∧
      (∀ rest, s.events = .engine :: rest → step s = .next { s with events := rest })))

/-- U3, U5 of 93_implementation_defined.md: an engine whose L or CAP is outside the ranges of R6 is refused. -/
def Obligations.IllegalParametersRefused : Prop :=
  ∀ s : State,
    (¬ (1 ≤ s.config.L ∧ s.config.L ≤ 255 ∧ 6 * s.config.L + 7 ≤ s.config.CAP ∧ s.config.CAP < 2 ^ 31) →
      step s = .refused .illegalConfiguration) ∧
    (∀ t, step s = .next t → t.config = s.config)

/-! ### The host (44_control.md section 5, 20_memory.md section 2) -/

/-- R190, R191: an accepted CMD write does all of R191; a CMD write while busy changes nothing at all. -/
def Obligations.CommandStart : Prop :=
  ∀ (s : State) (v : Word),
    (s.busy = false →
      (s.regWrite 0x00 v).cmd = v ∧ (s.regWrite 0x00 v).err = none ∧ (s.regWrite 0x00 v).lenOut = 0 ∧
      (s.regWrite 0x00 v).idx = 0 ∧ (s.regWrite 0x00 v).nblk = 0 ∧ (s.regWrite 0x00 v).wlen = 0 ∧
      (∀ addr, (s.regWrite 0x00 v).w.read addr = 0) ∧
      (s.regWrite 0x00 v).chain = List.replicate s.config.L 0 ∧
      (s.regWrite 0x00 v).phase = .validate ∧
      (s.regWrite 0x00 v).a = s.a ∧ (s.regWrite 0x00 v).b = s.b ∧
      (s.regWrite 0x00 v).lenA = s.lenA ∧ (s.regWrite 0x00 v).lenB = s.lenB ∧
      (s.regWrite 0x00 v).config = s.config) ∧
    (s.busy = true → s.regWrite 0x00 v = s)

/-- R200: LEN_A and LEN_B take any value while quiescent, and nothing else changes (in DONE the result stays). -/
def Obligations.LengthRegistersTakeAnyValue : Prop :=
  ∀ (s : State) (v : Word), s.busy = false →
    s.regWrite 0x0C v = { s with lenA := v } ∧ s.regWrite 0x10 v = { s with lenB := v } ∧
    (s.regWrite 0x0C v).getOut = s.getOut ∧ (s.regWrite 0x10 v).getOut = s.getOut

/-- R201, R202, R248: while busy every host write, to any register and to any buffer, is dropped; writes to read-only
registers, undefined offsets, OUT and addresses outside a buffer are dropped in every state. -/
def Obligations.DroppedWrites : Prop :=
  ∀ s : State,
    (s.busy = true →
      (∀ off v, s.hostAccess (.regWrite off v) = s) ∧
      (∀ space addr v, s.hostAccess (.memWrite space addr v) = s)) ∧
    (∀ off v, off ≠ 0x00 → off ≠ 0x0C → off ≠ 0x10 → s.hostAccess (.regWrite off v) = s) ∧
    (∀ addr v, s.hostAccess (.memWrite .out addr v) = s) ∧
    (∀ space addr v, s.config.CAP ≤ addr → s.hostAccess (.memWrite space addr v) = s)

/-- R65: an accepted buffer write stores the byte at its address in its own buffer and changes no other byte and no
other field (in DONE the result stays); in every other case the write is ignored. -/
def Obligations.BufferWriteStoresOneByte : Prop :=
  ∀ (s : State) (addr : Nat) (v : Byte),
    (s.busy = false → addr < s.config.CAP →
      (s.memWrite .a addr v = { s with a := (s.memWrite .a addr v).a } ∧
        (∀ other, (s.memWrite .a addr v).a.read other = if other = addr then v else s.a.read other) ∧
        (s.memWrite .a addr v).getOut = s.getOut) ∧
      (s.memWrite .b addr v = { s with b := (s.memWrite .b addr v).b } ∧
        (∀ other, (s.memWrite .b addr v).b.read other = if other = addr then v else s.b.read other) ∧
        (s.memWrite .b addr v).getOut = s.getOut)) ∧
    (∀ space, (s.busy = true ∨ s.config.CAP ≤ addr ∨ space = .out) → s.memWrite space addr v = s)

/-- R64, R41, R199: what the host is answered, in every state; OUT shows W below LEN_OUT in DONE and 0 in every other
case, and is not written; no read changes any state. -/
def Obligations.ReadsAnswerAndChangeNothing : Prop :=
  ∀ s : State,
    (∀ off, s.hostAccess (.regRead off) = s ∧ s.hostAnswer (.regRead off) = some (s.regRead off)) ∧
    (∀ space addr, s.hostAccess (.memRead space addr) = s) ∧
    (∀ addr, s.memRead .a addr = if addr < s.config.CAP then s.a.read addr else 0) ∧
    (∀ addr, s.memRead .b addr = if addr < s.config.CAP then s.b.read addr else 0) ∧
    (∀ addr, s.phase = .done → addr < s.lenOut.toNat → addr < s.config.CAP →
      s.memRead .out addr = s.w.read addr) ∧
    (∀ addr, (s.phase ≠ .done ∨ s.lenOut.toNat ≤ addr ∨ s.config.CAP ≤ addr) → s.memRead .out addr = 0) ∧
    (∀ addr v, s.hostAccess (.memWrite .out addr v) = s)

/-- R26, R28, R29, R35, R36, R37: the register map, STATUS one of seven values according to STATE; every other offset
reads 0 and ignores writes. -/
def Obligations.RegisterMap : Prop :=
  ∀ s : State,
    s.regRead 0x00 = s.cmd ∧
    s.regRead 0x04 = (match s.phase with
      | .idle => 0x0#32
      | .validate => 0x9#32
      | .pad => 0xA#32
      | .process => 0xB#32
      | .unpad => 0xC#32
      | .done => 0x5#32
      | .failed => 0x6#32) ∧
    ((s.regRead 0x04).toNat / 8 = 1 ↔ s.busy = true) ∧
    (s.regRead 0x08).toNat = (errCode s.err).toNat ∧
    s.regRead 0x0C = s.lenA ∧ s.regRead 0x10 = s.lenB ∧ s.regRead 0x14 = s.lenOut ∧
    s.regRead 0x18 = s.idx ∧ s.regRead 0x1C = s.nblk ∧
    (s.config.legal = true →
      (s.regRead 0x20).toNat = s.config.L ∧ (s.regRead 0x24).toNat = s.config.CAP) ∧
    (∀ off, (off % 4 ≠ 0 ∨ 0x28 ≤ off) → s.regRead off = 0 ∧ ∀ v, s.regWrite off v = s)

/-! ### Reset (70_reset_and_hazards.md section 1) -/

/-- R45: what a reset leaves, at any moment and in any state. The bytes of A and B are unspecified: nothing is said of
them. -/
def Obligations.ResetValues : Prop :=
  ∀ s : State,
    (s.hostAccess .reset).cmd = 0 ∧ (s.hostAccess .reset).regRead 0x04 = 0 ∧
    (s.hostAccess .reset).regRead 0x08 = 0 ∧ (s.hostAccess .reset).phase = .idle ∧
    (s.hostAccess .reset).lenA = 0 ∧ (s.hostAccess .reset).lenB = 0 ∧ (s.hostAccess .reset).lenOut = 0 ∧
    (s.hostAccess .reset).idx = 0 ∧ (s.hostAccess .reset).nblk = 0 ∧ (s.hostAccess .reset).wlen = 0 ∧
    (∀ addr, (s.hostAccess .reset).w.read addr = 0) ∧
    (s.hostAccess .reset).chain = List.replicate s.config.L 0 ∧
    (s.hostAccess .reset).config = s.config ∧
    (s.hostAccess .reset).regRead 0x20 = s.regRead 0x20 ∧ (s.hostAccess .reset).regRead 0x24 = s.regRead 0x24

/-! ### VALIDATE (44_control.md section 2) -/

/-- R193: the first row of the table that applies and fails is raised and nothing else is done; a word that is no
command is raised before any of them; when no row fails the step raises nothing. The port is not used. -/
def Obligations.ValidateRaisesFirstFailingCheck : Prop :=
  ∀ s : State, s.phase = .validate →
    enginePortCall s = none ∧
    (∀ e, decode s.cmd = .error e → engineStep s = .next (s.raise .illegalCommand)) ∧
    (∀ i k, decode s.cmd = .ok i → validateError i s = some k → engineStep s = .next (s.raise k)) ∧
    (∀ i, decode s.cmd = .ok i → validateError i s = none →
      ∃ t, engineStep s = .next t ∧ t.phase ≠ .failed ∧ t.phase ≠ .done ∧ t.err = s.err)

/-- R222, R211: entry to FAILED. ERR holds the kind's code, LEN_OUT, WLEN, W, CHAIN are zeroed, and CMD, LEN_A, LEN_B, A,
B, IDX, NBLK are as before. -/
def Obligations.EntryToFailed : Prop :=
  ∀ (s : State) (k : ErrorKind),
    (s.raise k).regRead 0x08 = (match k with
      | .invalidKeyLength => 1#32
      | .invalidBlockLength => 2#32
      | .invalidLength => 3#32
      | .lengthMismatch => 4#32
      | .padding => 5#32
      | .illegalCommand => 6#32
      | .capacity => 7#32) ∧
    (s.raise k).lenOut = 0 ∧ (s.raise k).wlen = 0 ∧
    (∀ addr, (s.raise k).w.read addr = 0) ∧ (s.raise k).chain = List.replicate s.config.L 0 ∧
    (s.raise k).phase = .failed ∧
    s.raise k = { s with
      err := (s.raise k).err, lenOut := (s.raise k).lenOut, wlen := (s.raise k).wlen, w := (s.raise k).w,
      chain := (s.raise k).chain, phase := (s.raise k).phase }

/-! ### The steps of the commands: what each completes with, and its frame -/

/-- R198: the VALIDATE step of CLEAR completes in every state of VALIDATE. -/
def Obligations.ClearCompletes : Prop :=
  ∀ s : State, s.phase = .validate →
    ∃ t, exec .clear s = .next t ∧
      (∀ addr, t.a.read addr = 0) ∧ (∀ addr, t.b.read addr = 0) ∧ t.lenA = 0 ∧ t.lenB = 0 ∧ t.phase = .idle ∧
      t = { s with a := t.a, b := t.b, lenA := t.lenA, lenB := t.lenB, phase := t.phase }

/-- R136, R139: the VALIDATE steps of PAD and UNPAD, every check of R193 passed. The operand BL is 1..255. -/
def Obligations.PadderValidateCompletes : Prop :=
  ∀ (s : State) (bl : BitVec 8), s.phase = .validate → bl ≠ 0 → s.lenA.toNat ≤ s.config.CAP →
    (s.lenA.toNat + (bl.toNat - s.lenA.toNat % bl.toNat) ≤ s.config.CAP →
      exec (.pad bl) s = .next { s with phase := .pad }) ∧
    (∃ t, exec (.unpad bl) s = .next t ∧
      (∀ addr, t.w.read addr = if addr < s.lenA.toNat then s.a.read addr else s.w.read addr) ∧
      t.wlen = s.lenA ∧ t.phase = .unpad ∧
      t = { s with w := t.w, wlen := t.wlen, phase := t.phase })

/-- R137: the PAD step of PAD, from every state it can be in (`LEN_A + n ≤ CAP` was checked). -/
def Obligations.PadStepCompletes : Prop :=
  ∀ (s : State) (bl : BitVec 8) (n : Nat), s.config.legal = true → s.phase = .pad → bl ≠ 0 →
    n = bl.toNat - s.lenA.toNat % bl.toNat → s.lenA.toNat + n ≤ s.config.CAP →
    ∃ t, exec (.pad bl) s = .next t ∧
      (∀ addr, addr < s.lenA.toNat → t.w.read addr = s.a.read addr) ∧
      (∀ addr, s.lenA.toNat ≤ addr → addr < s.lenA.toNat + n → (t.w.read addr).toNat = n) ∧
      (∀ addr, s.lenA.toNat + n ≤ addr → t.w.read addr = s.w.read addr) ∧
      t.wlen.toNat = s.lenA.toNat + n ∧ t.lenOut.toNat = s.lenA.toNat + n ∧ t.phase = .done ∧
      t = { s with w := t.w, wlen := t.wlen, lenOut := t.lenOut, phase := t.phase }

/-- R140: the UNPAD step, for UNPAD with `m = BL` and for CBC.DEC with `m = L`: `unpad` of `W[0..WLEN)` decides, W and
WLEN stay on success, and a failure is entry to FAILED with `unpad`'s kind. (No run has `m = 0` or `m > 255` here: of
those values the statement says only what the model's `unpad` says, the choice of log entry 16.) -/
def Obligations.UnpadStepCompletes : Prop :=
  ∀ (s : State) (i : Instr) (m : Nat), s.phase = .unpad →
    (i = .cbcDec ∧ m = s.config.L ∨ ∃ bl : BitVec 8, i = .unpad bl ∧ m = bl.toNat) →
    (∀ r, unpad (s.w.readBytes 0 s.wlen.toNat) m = .ok r →
      ∃ t, exec i s = .next t ∧ t.lenOut.toNat = r.length ∧ t.phase = .done ∧
        t = { s with lenOut := t.lenOut, phase := t.phase }) ∧
    (∀ k, unpad (s.w.readBytes 0 s.wlen.toNat) m = .error k → exec i s = .next (s.raise k))

/-- R153: the VALIDATE step of XOR, and its error; R154: the PROCESS step. -/
def Obligations.XorCompletes : Prop :=
  ∀ s : State,
    (s.phase = .validate → s.lenA.toNat ≤ s.config.CAP → s.lenB = s.lenA →
      exec .xor s = .next { s with phase := .process }) ∧
    (s.phase = .validate → s.lenA.toNat ≤ s.config.CAP → s.lenB.toNat ≤ s.config.CAP → s.lenB ≠ s.lenA →
      exec .xor s = .next (s.raise .lengthMismatch)) ∧
    (s.phase = .process →
      ∃ t, exec .xor s = .next t ∧
        (∀ addr, t.w.read addr =
          if addr < s.lenA.toNat then s.a.read addr ^^^ s.b.read addr else s.w.read addr) ∧
        t.wlen = s.lenA ∧ t.lenOut = s.lenA ∧ t.phase = .done ∧
        t = { s with w := t.w, wlen := t.wlen, lenOut := t.lenOut, phase := t.phase })

/-- R166: the VALIDATE step of CBC.ENC, every check of R193 passed. -/
def Obligations.EncValidateCompletes : Prop :=
  ∀ s : State, s.phase = .validate → s.lenB.toNat ≤ s.config.CAP → s.lenB.toNat = s.config.L →
    s.lenA.toNat + (s.config.L - s.lenA.toNat % s.config.L) ≤ s.config.CAP →
    ∃ t, exec .cbcEnc s = .next t ∧ t.chain.length = s.config.L ∧
      (∀ j, j < s.config.L → t.chain.getD j 0 = s.b.read j) ∧ t.phase = .pad ∧
      t = { s with chain := t.chain, phase := t.phase }

/-- R167: the PAD step of CBC.ENC, from every state it can be in. -/
def Obligations.EncPadStepCompletes : Prop :=
  ∀ (s : State) (n : Nat), s.config.legal = true → s.phase = .pad →
    n = s.config.L - s.lenA.toNat % s.config.L → s.lenA.toNat + n ≤ s.config.CAP →
    ∃ t, exec .cbcEnc s = .next t ∧
      (∀ addr, addr < s.lenA.toNat → t.w.read addr = s.a.read addr) ∧
      (∀ addr, s.lenA.toNat ≤ addr → addr < s.lenA.toNat + n → (t.w.read addr).toNat = n) ∧
      (∀ addr, s.lenA.toNat + n ≤ addr → t.w.read addr = s.w.read addr) ∧
      t.wlen.toNat = s.lenA.toNat + n ∧
      t.nblk.toNat = (s.lenA.toNat + n) / s.config.L ∧ t.nblk.toNat = s.lenA.toNat / s.config.L + 1 ∧
      t.phase = .process ∧
      t = { s with w := t.w, wlen := t.wlen, nblk := t.nblk, phase := t.phase }

/-- R168: the PROCESS step of CBC.ENC on block `i = IDX`. -/
def Obligations.EncProcessStepCompletes : Prop :=
  ∀ (s : State) (i : Nat) (x : Bytes), s.phase = .process → s.chain.length = s.config.L → i = s.idx.toNat →
    i < s.nblk.toNat → x.length = s.config.L →
    (∀ j, j < s.config.L → x.getD j 0 = s.chain.getD j 0 ^^^ s.w.read (i * s.config.L + j)) →
    ∃ t, exec .cbcEnc s = .next t ∧
      t.chain = s.encryptBlock x ∧ t.chain.length = s.config.L ∧
      (∀ j, j < s.config.L → t.w.read (i * s.config.L + j) = (s.encryptBlock x).getD j 0) ∧
      (∀ addr, (addr < i * s.config.L ∨ (i + 1) * s.config.L ≤ addr) → t.w.read addr = s.w.read addr) ∧
      t.idx.toNat = i + 1 ∧
      (i + 1 = s.nblk.toNat → t.lenOut = s.wlen ∧ t.phase = .done) ∧
      (i + 1 ≠ s.nblk.toNat → t.lenOut = s.lenOut ∧ t.phase = .process) ∧
      t = { s with w := t.w, chain := t.chain, idx := t.idx, lenOut := t.lenOut, phase := t.phase }

/-- R170: the VALIDATE step of CBC.DEC, every check of R193 passed; an empty ciphertext goes to UNPAD. -/
def Obligations.DecValidateCompletes : Prop :=
  ∀ s : State, s.phase = .validate → s.lenA.toNat ≤ s.config.CAP → s.lenB.toNat ≤ s.config.CAP →
    s.lenB.toNat = s.config.L → s.lenA.toNat % s.config.L = 0 →
    ∃ t, exec .cbcDec s = .next t ∧ t.chain.length = s.config.L ∧
      (∀ j, j < s.config.L → t.chain.getD j 0 = s.b.read j) ∧
      t.nblk.toNat = s.lenA.toNat / s.config.L ∧ t.wlen = s.lenA ∧
      (0 < s.lenA.toNat → t.phase = .process) ∧ (s.lenA.toNat = 0 → t.phase = .unpad) ∧
      t = { s with chain := t.chain, nblk := t.nblk, wlen := t.wlen, phase := t.phase }

/-- R171: the PROCESS step of CBC.DEC on block `i = IDX`; CHAIN takes the ciphertext block. -/
def Obligations.DecProcessStepCompletes : Prop :=
  ∀ (s : State) (i : Nat) (cb : Bytes), s.phase = .process → s.chain.length = s.config.L → i = s.idx.toNat →
    i < s.nblk.toNat → cb.length = s.config.L →
    (∀ j, j < s.config.L → cb.getD j 0 = s.a.read (i * s.config.L + j)) →
    ∃ t, exec .cbcDec s = .next t ∧
      t.chain = cb ∧
      (∀ j, j < s.config.L →
        t.w.read (i * s.config.L + j) = (s.decryptBlock cb).getD j 0 ^^^ s.chain.getD j 0) ∧
      (∀ addr, (addr < i * s.config.L ∨ (i + 1) * s.config.L ≤ addr) → t.w.read addr = s.w.read addr) ∧
      t.idx.toNat = i + 1 ∧
      (i + 1 = s.nblk.toNat → t.phase = .unpad) ∧ (i + 1 ≠ s.nblk.toNat → t.phase = .process) ∧
      t = { s with w := t.w, chain := t.chain, idx := t.idx, phase := t.phase }

/-! ### Rules of the whole machine -/

/-- R38, R30, R219, R223: an engine step of any command but CLEAR leaves A, B, LEN_A, LEN_B as they are, and of every
command leaves CMD, the parameters and the model's own fields. -/
def Obligations.OnlyClearWritesOperands : Prop :=
  ∀ (i : Instr) (s t : State), exec i s = .next t →
    (i ≠ .clear → t.a = s.a ∧ t.b = s.b ∧ t.lenA = s.lenA ∧ t.lenB = s.lenB) ∧
    t.cmd = s.cmd ∧ t.config = s.config ∧ t.events = s.events ∧ t.resets = s.resets

/-- R21, R33, R34: CLEAR, PAD, UNPAD and XOR never touch IDX and NBLK, and never load CHAIN: it stays, or entry to
FAILED zeroes it. -/
def Obligations.CipherlessCommandsLeaveChainAndCounters : Prop :=
  ∀ (i : Instr) (s t : State), i ≠ .cbcEnc → i ≠ .cbcDec → exec i s = .next t →
    t.idx = s.idx ∧ t.nblk = s.nblk ∧
    (t.chain = s.chain ∨ (t.phase = .failed ∧ t.chain = List.replicate s.config.L 0))

/-- R70: from the accepted CMD write until the engine is quiescent again A, B, LEN_A, LEN_B and CMD do not change,
whatever the host does short of reset (CLEAR excepted). -/
def Obligations.OperandsStableWhileBusy : Prop :=
  ∀ s t : State, s.busy = true → decode s.cmd ≠ .ok .clear → (∀ rest, s.events ≠ .host .reset :: rest) →
    step s = .next t →
    t.a = s.a ∧ t.b = s.b ∧ t.lenA = s.lenA ∧ t.lenB = s.lenB ∧ t.cmd = s.cmd

/-- R24: the complete transition relation of STATE. -/
def Obligations.TransitionRelation : Prop :=
  ∀ s t : State, EngineInv s → step s = .next t → stateTransition s t

/-- R212, R213: no step and no host access ever records code 1 or 2. -/
def Obligations.CipherErrorsNeverRaised : Prop :=
  ∀ s t : State, s.err ≠ some .invalidKeyLength → s.err ≠ some .invalidBlockLength → step s = .next t →
    t.err ≠ some .invalidKeyLength ∧ t.err ≠ some .invalidBlockLength

/-- R175, R41: as long as STATE is not DONE the host reads LEN_OUT and every byte of OUT as 0; in FAILED W and CHAIN
hold zeros too. -/
def Obligations.NoPartialOutput : Prop :=
  ∀ s t : State, EngineInv s → step s = .next t → t.phase ≠ .done →
    t.regRead 0x14 = 0 ∧ (∀ addr, t.memRead .out addr = 0) ∧
    (t.phase = .failed → (∀ addr, t.w.read addr = 0) ∧ t.chain = List.replicate t.config.L 0)

/-- R123: what the engine gives the port is always a block of exactly L bytes. -/
def Obligations.PortBlocksHaveLengthL : Prop :=
  ∀ (s : State) (x : Bytes), s.chain.length = s.config.L →
    (enginePortCall s = some (.encrypt x) ∨ enginePortCall s = some (.decrypt x)) → x.length = s.config.L

/-! ### The invariant -/

/-- `EngineInv` holds after reset, of every legal configuration and whatever is still to come. -/
def Obligations.ResetMeetsInvariant : Prop :=
  ∀ (c : Config) (epoch : Nat) (es : List Event), c.legal = true → EngineInv (State.resetWith c epoch es)

/-- R44 (items 1 to 7, within `EngineInv`), R79: every step, engine or host, keeps the invariant, from every state that
meets it: the laws between the registers, which command is in which state, the canonical form and the bounds of the
buffers, W zero above WLEN. -/
def Obligations.StepKeepsInvariant : Prop :=
  ∀ s t : State, EngineInv s → step s = .next t → EngineInv t

/-- R44: the seven invariants hold after reset and after every engine step and host access. -/
def Obligations.StateLawsHoldAlways : Prop :=
  ∀ (c : Config) (epoch : Nat) (es : List Event) (k : Nat) (t : State), c.legal = true →
    runSteps k (State.resetWith c epoch es) = .next t → StateLaws t

/-- R194, R196: no stuck state: under the invariant a step always answers a next state, never a fault or a refusal. In
a busy state that is R194's step; in a quiescent state, where R194 gives the engine no step, the next state on the
engine's turn is the model's choice (log entry 5, DESIGN CHOICE). -/
def Obligations.StepNeverStops : Prop :=
  ∀ s : State, EngineInv s → ∃ t, step s = .next t

/-- R195, R204: every command ends: a busy engine that the host leaves alone is quiescent after at most
`LEN_A div L + 3` steps. -/
def Obligations.EveryCommandEnds : Prop :=
  ∀ s : State, EngineInv s → s.events = [] →
    ∃ k t, k ≤ s.lenA.toNat / s.config.L + 3 ∧ runSteps k s = .next t ∧ t.busy = false

/-! ### Ordering and independence -/

/-- R74: the schedule does not matter: host accesses that fall between the engine's turns while it is busy (no reset
among them) leave the engine where its own steps alone would have brought it. -/
def Obligations.ScheduleIndependence : Prop :=
  ∀ (s u : State) (es : List Event), s.config.legal = true → .host .reset ∉ es → es.getLast? = some .engine →
    (∀ j, j < engineTurns es → ∃ v, runSteps j { s with events := [] } = .next v ∧ v.busy = true) →
    runSteps (engineTurns es) { s with events := [] } = .next u →
    ∃ t, runSteps es.length { s with events := es } = .next t ∧ t.sameEngine u

/-- R243, R45, R62: a step depends on no byte of A at or above LEN_A and on no byte of B at or above LEN_B: two states
that differ in such bytes only answer states that differ in A and B only. -/
def Obligations.UnwrittenBytesDoNotMatter : Prop :=
  ∀ (s : State) (a' b' : Memory) (i : Instr) (t : State), EngineInv s → decode s.cmd = .ok i →
    (∀ addr, addr < s.lenA.toNat → a'.read addr = s.a.read addr) →
    (∀ addr, addr < s.lenB.toNat → b'.read addr = s.b.read addr) →
    exec i s = .next t →
    ∃ t', exec i { s with a := a', b := b' } = .next t' ∧
      { t' with a := t.a, b := t.b } = t

/-- R175 ("What a failed command does reveal: the error kind, and through IDX and NBLK how many blocks there were; no
byte of data"): two runs of one command on operands of the same lengths and any contents answer every register read
and every read of OUT alike, at every moment at which neither is in DONE. -/
def Obligations.UnfinishedOrFailedRevealsNoData : Prop :=
  ∀ (s : State) (a' b' : Memory) (w : Word) (k : Nat) (t t' : State), s.Ready →
    runSteps k (s.regWrite 0x00 w) = .next t →
    runSteps k (({ s with a := a', b := b' } : State).regWrite 0x00 w) = .next t' →
    t.phase ≠ .done → t'.phase ≠ .done →
    (∀ off, t'.regRead off = t.regRead off) ∧ ∀ addr, t'.memRead .out addr = t.memRead .out addr

/-! ### The functions of the source -/

/-- R132: the laws of `pad`. -/
def Obligations.PadLaws : Prop :=
  ∀ (data : Bytes) (m : Nat), 1 ≤ m → m ≤ 255 →
    ∃ r, pad data m = .ok r ∧
      r.length = (data.length / m + 1) * m ∧ data.length + 1 ≤ r.length ∧ r.length ≤ data.length + m ∧
      data <+: r ∧ (data.length % m = 0 → r.length = data.length + m) ∧
      (data = [] → r = List.replicate m (BitVec.ofNat 8 m))

/-- R133: `unpad` succeeds exactly on the sequences of legal length that end in `n` bytes of value `n`, `1 ≤ n ≤ m`,
and then answers what comes before them; the two ways it can fail. -/
def Obligations.UnpadSucceedsExactly : Prop :=
  ∀ (data : Bytes) (m : Nat), 1 ≤ m → m ≤ 255 →
    (∀ r, unpad data m = .ok r ↔
      1 ≤ data.length ∧ data.length % m = 0 ∧
        ∃ n, 1 ≤ n ∧ n ≤ m ∧ data = r ++ List.replicate n (BitVec.ofNat 8 n)) ∧
    (unpad data m = .error .invalidLength ↔ (data.length < 1 ∨ data.length % m ≠ 0)) ∧
    (∀ k, unpad data m = .error k → k = .invalidLength ∨ k = .padding)

/-- R134 items 1 and 4: `unpad` undoes `pad`, and the length bounds of its result. -/
def Obligations.UnpadInvertsPad : Prop :=
  ∀ (data : Bytes) (m : Nat), 1 ≤ m → m ≤ 255 →
    (∀ r, pad data m = .ok r → unpad r m = .ok data) ∧
    (∀ r, unpad data m = .ok r → r.length + 1 ≤ data.length ∧ data.length ≤ r.length + m)

/-- R150, R151: `xor` and its laws. -/
def Obligations.XorLaws : Prop :=
  ∀ x y : Bytes,
    (x.length ≠ y.length → xor x y = .error .lengthMismatch) ∧
    (x.length = y.length →
      ∃ r, xor x y = .ok r ∧ r.length = x.length ∧
        (∀ j, j < x.length → r.getD j 0 = x.getD j 0 ^^^ y.getD j 0) ∧
        xor y x = .ok r ∧ xor r y = .ok x ∧
        (∀ z, y.length = z.length → ∀ yz, xor y z = .ok yz → xor r z = xor x yz)) ∧
    xor x x = .ok (List.replicate x.length 0) ∧
    xor x (List.replicate x.length 0) = .ok x

/-- R164: the length laws of `cbc_encrypt` and `cbc_decrypt`, for every cipher that answers blocks of L bytes. -/
def Obligations.CbcLengthLaws : Prop :=
  ∀ (E D : Bytes → Bytes) (L : Nat) (p c iv r : Bytes), 1 ≤ L → L ≤ 255 →
    (∀ x, x.length = L → (E x).length = L) → (∀ x, x.length = L → (D x).length = L) →
    (cbcEncrypt E L p iv = .ok r → r.length = (p.length / L + 1) * L) ∧
    (cbcDecrypt D L c iv = .ok r → r.length + 1 ≤ c.length ∧ c.length ≤ r.length + L)

/-- R162: `C[i]` depends on the IV and on `P[0..i]` only; `P[i]` of decryption depends on `C[i]` and on `C[i-1]` (or the
IV) only. -/
def Obligations.ChainStructure : Prop :=
  (∀ (E : Bytes → Bytes) (iv : Bytes) (ps qs : List Bytes),
    (encBlocks E iv (ps ++ qs)).take ps.length = encBlocks E iv ps) ∧
  (∀ (D : Bytes → Bytes) (iv : Bytes) (cs : List Bytes) (i : Nat), i < cs.length →
    (decBlocks D iv cs)[i]? = some (xorBytes (D (cs.getD i [])) (if i = 0 then iv else cs.getD (i - 1) [])))

/-- R176: the round trip, under the premise CIPHER_INV, for every plaintext and every IV of length L; the lengths that
the source tests fit every legal CAP. -/
def Obligations.CbcRoundTrip : Prop :=
  ∀ (E D : Bytes → Bytes) (L : Nat) (p iv c : Bytes), 1 ≤ L → L ≤ 255 →
    (∀ x, x.length = L → (E x).length = L) → CipherInv E D L → iv.length = L →
    cbcEncrypt E L p iv = .ok c → cbcDecrypt D L c iv = .ok p ∧ (p.length ≤ 5 * L + 7 → c.length ≤ 6 * L + 7)

/-- R177, its first part: changing ciphertext block `j` by δ changes deciphered block `j+1` by δ, block `j` through the
cipher, and no other; changing the IV by δ changes block 0 by δ only. -/
def Obligations.ChangedBlockEffect : Prop :=
  ∀ (D : Bytes → Bytes) (L : Nat) (iv δ : Bytes) (cs : List Bytes) (j : Nat),
    (∀ x, x.length = L → (D x).length = L) → iv.length = L → δ.length = L → (∀ x ∈ cs, x.length = L) → j < cs.length →
    (∀ i, i ≠ j → i ≠ j + 1 →
      (decBlocks D iv (cs.set j (xorBytes (cs.getD j []) δ)))[i]? = (decBlocks D iv cs)[i]?) ∧
    (j + 1 < cs.length →
      (decBlocks D iv (cs.set j (xorBytes (cs.getD j []) δ))).getD (j + 1) [] =
        xorBytes ((decBlocks D iv cs).getD (j + 1) []) δ) ∧
    (decBlocks D iv (cs.set j (xorBytes (cs.getD j []) δ))).getD j [] =
      xorBytes (D (xorBytes (cs.getD j []) δ)) (if j = 0 then iv else cs.getD (j - 1) []) ∧
    (decBlocks D (xorBytes iv δ) cs).getD 0 [] = xorBytes ((decBlocks D iv cs).getD 0 []) δ ∧
    (∀ i, i ≠ 0 → (decBlocks D (xorBytes iv δ) cs)[i]? = (decBlocks D iv cs)[i]?)

/-- R177, its second part: corrupting one byte of a valid padding of `k` bytes makes `unpad` fail with PaddingError,
except in the two cases (a) and (b), where it succeeds with the result the rule gives. -/
def Obligations.CorruptedPadding : Prop :=
  ∀ (q pre : Bytes) (m k pos : Nat) (v : Byte), 1 ≤ m → m ≤ 255 → q.length % m = 0 → 1 ≤ k → k ≤ m →
    q = pre ++ List.replicate k (BitVec.ofNat 8 k) → pre.length ≤ pos → pos < q.length → v.toNat ≠ k →
    (pos + 1 = q.length → 2 ≤ k → v.toNat = 1 → unpad (q.set pos v) m = .ok (q.take (q.length - 1))) ∧
    (k = 1 → 2 ≤ v.toNat → v.toNat ≤ m →
      (∀ j, q.length - v.toNat ≤ j → j + 1 < q.length → q.getD j 0 = v) →
      unpad (q.set pos v) m = .ok (q.take (q.length - v.toNat))) ∧
    (¬ (pos + 1 = q.length ∧ 2 ≤ k ∧ v.toNat = 1) →
      ¬ (k = 1 ∧ 2 ≤ v.toNat ∧ v.toNat ≤ m ∧
        ∀ j, q.length - v.toNat ≤ j → j + 1 < q.length → q.getD j 0 = v) →
      unpad (q.set pos v) m = .error .padding)

/-- R172: the empty ciphertext fails with InvalidLengthError, as a function and on the engine: VALIDATE goes straight to
UNPAD, the port is not used, and ERR.KIND is 3. The first clause for L above 255, where the spec gives `cbc_decrypt` no
value (R6, N10), is the model's choice, DESIGN CHOICE in log entry 16. -/
def Obligations.EmptyCiphertextFails : Prop :=
  (∀ (D : Bytes → Bytes) (L : Nat) (iv : Bytes), iv.length = L → 1 ≤ L →
    cbcDecrypt D L [] iv = .error .invalidLength) ∧
  (∀ s : State, s.Ready → s.lenA = 0 → s.lenB.toNat = s.config.L →
    ∃ u t, runSteps 1 (s.regWrite 0x00 0x00000005#32) = .next u ∧ u.phase = .unpad ∧
      runSteps 2 (s.regWrite 0x00 0x00000005#32) = .next t ∧ t.phase = .failed ∧
      t.regRead 0x08 = 3#32 ∧ t.nblk = 0 ∧ portCalls 2 (s.regWrite 0x00 0x00000005#32) = [])

/-! ### The commands as the functions of the source -/

/-- R198, R242: the command CLEAR leaves the state of R45 with every byte of A and B zero, after one step. -/
def Obligations.ClearCommandLeavesResetState : Prop :=
  ∀ s : State, s.Ready →
    ∃ t, runSteps 1 (s.regWrite 0x00 0x00000000#32) = .next t ∧
      (∀ addr, t.memRead .a addr = 0) ∧ (∀ addr, t.memRead .b addr = 0) ∧
      t = { s.hostReset with a := t.a, b := t.b, resets := s.resets }

/-- R141: PAD and UNPAD are the functions `pad` and `unpad`: exactly two steps (one when CapacityError stops PAD), the
result or the error, A and B unchanged. -/
def Obligations.PadderCommandsAgree : Prop :=
  ∀ (s : State) (bl : BitVec 8), s.Ready → bl ≠ 0 → s.lenA.toNat ≤ s.config.CAP →
    (s.lenA.toNat + (bl.toNat - s.lenA.toNat % bl.toNat) ≤ s.config.CAP →
      ∃ u t, runSteps 1 (s.regWrite 0x00 (encode (.pad bl))) = .next u ∧ u.busy = true ∧
        runSteps 2 (s.regWrite 0x00 (encode (.pad bl))) = .next t ∧ t.phase = .done ∧ t.regRead 0x08 = 0 ∧
        pad s.operandA bl.toNat = .ok t.getOut ∧ t.a = s.a ∧ t.b = s.b) ∧
    (s.config.CAP < s.lenA.toNat + (bl.toNat - s.lenA.toNat % bl.toNat) →
      ∃ t, runSteps 1 (s.regWrite 0x00 (encode (.pad bl))) = .next t ∧ t.phase = .failed ∧
        t.regRead 0x08 = 7#32 ∧ t.a = s.a ∧ t.b = s.b) ∧
    (∃ u t, runSteps 1 (s.regWrite 0x00 (encode (.unpad bl))) = .next u ∧ u.busy = true ∧
      runSteps 2 (s.regWrite 0x00 (encode (.unpad bl))) = .next t ∧ t.a = s.a ∧ t.b = s.b ∧
      (∀ r, unpad s.operandA bl.toNat = .ok r → t.phase = .done ∧ t.regRead 0x08 = 0 ∧ t.getOut = r) ∧
      (∀ k, unpad s.operandA bl.toNat = .error k →
        t.phase = .failed ∧ (t.regRead 0x08).toNat = k.code.toNat ∧ t.lenOut = 0 ∧ ∀ addr, t.memRead .out addr = 0))

/-- R155: XOR is the function `xor`, after two steps, or one when the lengths differ. -/
def Obligations.XorCommandAgrees : Prop :=
  ∀ s : State, s.Ready → s.lenA.toNat ≤ s.config.CAP → s.lenB.toNat ≤ s.config.CAP →
    (∀ r, xor s.operandA s.operandB = .ok r →
      ∃ u t, runSteps 1 (s.regWrite 0x00 0x00000003#32) = .next u ∧ u.busy = true ∧
        runSteps 2 (s.regWrite 0x00 0x00000003#32) = .next t ∧ t.phase = .done ∧ t.regRead 0x08 = 0 ∧
        t.getOut = r) ∧
    (xor s.operandA s.operandB = .error .lengthMismatch →
      ∃ t, runSteps 1 (s.regWrite 0x00 0x00000003#32) = .next t ∧ t.phase = .failed ∧ t.regRead 0x08 = 4#32 ∧
        t.lenOut = 0)

/-- R173: CBC.ENC is the function `cbc_encrypt` of the wired cipher, after NBLK + 2 steps; a wrong IV length fails in one
step without a use of the port. -/
def Obligations.EncryptCommandAgrees : Prop :=
  ∀ s : State, s.Ready → s.lenA.toNat ≤ s.config.CAP → s.lenB.toNat ≤ s.config.CAP →
    s.lenA.toNat + (s.config.L - s.lenA.toNat % s.config.L) ≤ s.config.CAP →
    (∀ c, cbcEncrypt s.encryptBlock s.config.L s.operandA s.operandB = .ok c →
      ∃ t, runSteps (c.length / s.config.L + 2) (s.regWrite 0x00 0x00000004#32) = .next t ∧
        t.phase = .done ∧ t.regRead 0x08 = 0 ∧ t.getOut = c ∧
        t.idx = t.nblk ∧ t.nblk.toNat = c.length / s.config.L) ∧
    (cbcEncrypt s.encryptBlock s.config.L s.operandA s.operandB = .error .invalidLength →
      ∃ t, runSteps 1 (s.regWrite 0x00 0x00000004#32) = .next t ∧ t.phase = .failed ∧ t.regRead 0x08 = 3#32 ∧
        t.lenOut = 0 ∧ portCalls 1 (s.regWrite 0x00 0x00000004#32) = [])

/-- R174: CBC.DEC is the function `cbc_decrypt` of the wired cipher: after NBLK + 2 steps when it comes to `unpad`, after
one when a length is wrong; of a failure nothing but the kind can be read. That the engine is busy before the last of
these steps is RunLengths. -/
def Obligations.DecryptCommandAgrees : Prop :=
  ∀ s : State, s.Ready → s.lenA.toNat ≤ s.config.CAP → s.lenB.toNat ≤ s.config.CAP →
    (∀ p, cbcDecrypt s.decryptBlock s.config.L s.operandA s.operandB = .ok p →
      ∃ t, runSteps (s.lenA.toNat / s.config.L + 2) (s.regWrite 0x00 0x00000005#32) = .next t ∧
        t.phase = .done ∧ t.regRead 0x08 = 0 ∧ t.getOut = p) ∧
    (∀ k, cbcDecrypt s.decryptBlock s.config.L s.operandA s.operandB = .error k →
      ∃ t, runSteps (if s.lenB.toNat ≠ s.config.L ∨ s.lenA.toNat % s.config.L ≠ 0 then 1
            else s.lenA.toNat / s.config.L + 2) (s.regWrite 0x00 0x00000005#32) = .next t ∧
        t.phase = .failed ∧ (t.regRead 0x08).toNat = k.code.toNat ∧ t.lenOut = 0 ∧
        ∀ addr, t.memRead .out addr = 0)

/-- R195: the length of a run, command by command: the engine is busy before every one of these steps and quiescent
after the last. -/
def Obligations.RunLengths : Prop :=
  ∀ (s : State) (w : Word) (n : Nat), s.Ready →
    n = (match decode w with
      | .error _ => 1
      | .ok i =>
        match validateError i (s.regWrite 0x00 w), i with
        | some _, _ => 1
        | none, .clear => 1
        | none, .pad _ => 2
        | none, .unpad _ => 2
        | none, .xor => 2
        | none, .cbcEnc => s.lenA.toNat / s.config.L + 3
        | none, .cbcDec => s.lenA.toNat / s.config.L + 2) →
    (∀ j, j < n → ∃ u, runSteps j (s.regWrite 0x00 w) = .next u ∧ u.busy = true) ∧
    (∃ t, runSteps n (s.regWrite 0x00 w) = .next t ∧ t.busy = false)

/-- R126: the uses of the port, as `portCalls` lists them: an instrument that stands beside `exec` ("a model with an
instrumented cipher"), since E and D are pure and their use leaves no trace in the state. CBC.ENC asks for one
encryption a block, in order, each of the chaining value XOR the padded plaintext block; CBC.DEC for one decryption of
each ciphertext block, in order; no other command uses it, and no VALIDATE step does. -/
def Obligations.PortCallsInOrder : Prop :=
  (∀ s : State, (decode s.cmd ≠ .ok .cbcEnc ∧ decode s.cmd ≠ .ok .cbcDec ∨ s.phase = .validate) →
    enginePortCall s = none) ∧
  ∀ s : State, s.Ready → s.lenA.toNat ≤ s.config.CAP → s.lenB.toNat = s.config.L →
    (s.lenA.toNat + (s.config.L - s.lenA.toNat % s.config.L) ≤ s.config.CAP →
      ∃ ps cs : List Bytes, ps = blocksOf s.config.L (padBytes s.operandA s.config.L) ∧
        cs = encBlocks s.encryptBlock s.operandB ps ∧
        portCalls (s.lenA.toNat / s.config.L + 3) (s.regWrite 0x00 0x00000004#32) =
          (List.zipWith xorBytes (s.operandB :: cs) ps).map PortCall.encrypt) ∧
    (s.lenA.toNat % s.config.L = 0 →
      portCalls (s.lenA.toNat / s.config.L + 2) (s.regWrite 0x00 0x00000005#32) =
        (blocksOf s.config.L s.operandA).map PortCall.decrypt)

/-- R102, R103, R73: RUN of any word, from every state with the invariant and at every speed of the host (the schedule
of log entry 4), comes to its end: its last event is a read of STATUS that shows BUSY = 0, and every read before it
shows BUSY = 1. The call `cbc_encrypt(p, iv)` as a host script, from a quiescent engine in any state and at every speed:
the host's byte writes and length writes, the command and the loop; the last event is a read of STATUS, the engine is
quiescent, and the value of the call is the function's. A turn between the command's end and the next read changes
nothing (the model's choice, log entry 5). -/
def Obligations.EncryptCallScript : Prop :=
  (∀ (s : State) (w : Word) (pace : List Nat), EngineInv s →
    ∃ pre u, scriptRunWord w pace s = some (pre ++ [.host (.regRead 0x04)]) ∧
      s.afterEvents pre = .next u ∧ (u.regRead 0x04).getLsbD 3 = false ∧
      ∀ pre' rest v, pre = pre' ++ .host (.regRead 0x04) :: rest → s.afterEvents pre' = .next v →
        (v.regRead 0x04).getLsbD 3 = true) ∧
  ∀ (s : State) (p iv : Bytes) (paces : List (List Nat)), s.Ready → iv.length ≤ s.config.CAP →
    p.length + (s.config.L - p.length % s.config.L) ≤ s.config.CAP →
    ∃ es t, scriptSchedule paces (callCbcEncrypt p iv) s = some es ∧
      runSteps es.length { s with events := es } = .next t ∧
      t.callValue = some (cbcEncrypt s.encryptBlock s.config.L p iv) ∧ t.busy = false ∧ t.events = [] ∧
      es.getLast? = some (.host (.regRead 0x04))
end

