-- ==== Sys2Proof/Laws/Functions.lean ====
section
/-! SUPPORT. The small laws of the pure functions and of the port: lengths, bytes, the form of a successful
`unpad`. Later proofs cite these and do not unfold the functions. -/

namespace Sys2Proof.Machine

/-! ### The padding count and `pad` (R130, R131) -/

theorem padCount_pos {m : Nat} (h : 1 ≤ m) (len : Nat) : 1 ≤ padCount len m := by
  unfold padCount
  have := Nat.mod_lt len h
  omega

theorem padCount_le (len m : Nat) : padCount len m ≤ m := Nat.sub_le _ _

/-- The padded length is a multiple: `len + n = (len div m + 1) * m` (R132). -/
theorem add_padCount {m : Nat} (h : 1 ≤ m) (len : Nat) : len + padCount len m = (len / m + 1) * m := by
  unfold padCount
  have h1 := Nat.mod_lt len h
  have h2 := Nat.div_add_mod len m
  rw [Nat.add_mul, Nat.mul_comm]
  omega

@[simp] theorem padBytes_length (data : Bytes) (m : Nat) :
    (padBytes data m).length = data.length + padCount data.length m := by
  simp [padBytes]

/-! ### `xor` (R150, R152) -/

@[simp] theorem xorBytes_length (x y : Bytes) : (xorBytes x y).length = min x.length y.length := by
  simp [xorBytes]

theorem xorBytes_getD {x y : Bytes} {j : Nat} (hx : j < x.length) (hy : j < y.length) :
    (xorBytes x y).getD j 0 = x.getD j 0 ^^^ y.getD j 0 := by
  simp [xorBytes, List.getD, hx, hy]

theorem xorBytes_comm (x y : Bytes) : xorBytes x y = xorBytes y x := by
  unfold xorBytes
  exact List.zipWith_comm_of_comm (fun u v => BitVec.xor_comm u v)

theorem xorBytes_assoc (x y z : Bytes) : xorBytes (xorBytes x y) z = xorBytes x (xorBytes y z) := by
  induction x generalizing y z with
  | nil => simp [xorBytes]
  | cons u x ih =>
    cases y with
    | nil => simp [xorBytes]
    | cons v y =>
      cases z with
      | nil => simp [xorBytes]
      | cons t z =>
        simp only [xorBytes, List.zipWith_cons_cons, List.cons.injEq]
        exact ⟨BitVec.xor_assoc u v t, ih y z⟩

/-- XORing twice with one operand gives the other back (R151 item 3). -/
theorem xorBytes_cancel {x y : Bytes} (h : x.length ≤ y.length) : xorBytes (xorBytes x y) y = x := by
  induction x generalizing y with
  | nil => simp [xorBytes]
  | cons u x ih =>
    cases y with
    | nil => simp at h
    | cons v y =>
      simp only [List.length_cons, Nat.add_le_add_iff_right] at h
      simp only [xorBytes, List.zipWith_cons_cons, List.cons.injEq]
      refine ⟨?_, ih h⟩
      rw [BitVec.xor_assoc, BitVec.xor_self, BitVec.xor_zero]

theorem xorBytes_self (x : Bytes) : xorBytes x x = List.replicate x.length 0 := by
  induction x with
  | nil => rfl
  | cons u x ih =>
    simp only [xorBytes, List.zipWith_cons_cons, BitVec.xor_self, List.length_cons, List.replicate_succ,
      List.cons.injEq]
    exact ⟨rfl, ih⟩

/-! ### `unpad` (R133) -/

/-- What a successful `unpad` has checked, and its result. -/
theorem unpad_ok {data r : Bytes} {m : Nat} (h : unpad data m = .ok r) :
    ∃ n, n = (data.getD (data.length - 1) 0).toNat ∧ 1 ≤ data.length ∧ data.length % m = 0 ∧ 1 ≤ n ∧ n ≤ m ∧
      (∀ v ∈ data.drop (data.length - n), v = BitVec.ofNat 8 n) ∧ r = data.take (data.length - n) := by
  unfold unpad at h
  simp only at h
  split at h
  · cases h
  · split at h
    · cases h
    · split at h
      · cases h
      · next h1 h2 h3 =>
        simp only [List.any_eq_true, bne_iff_ne, not_exists, not_and, not_not] at h3
        cases h
        exact ⟨_, rfl, by omega, by omega, by omega, by omega, h3, rfl⟩

/-- The two kinds of failure of `unpad`. -/
theorem unpad_error {data : Bytes} {m : Nat} {k : ErrorKind} (h : unpad data m = .error k) :
    (k = .invalidLength ∧ (data.length < 1 ∨ data.length % m ≠ 0)) ∨
    (k = .padding ∧ 1 ≤ data.length ∧ data.length % m = 0) := by
  unfold unpad at h
  simp only at h
  split at h
  · next h1 => cases h; exact .inl ⟨rfl, h1⟩
  · next h1 =>
    split at h
    · cases h; exact .inr ⟨rfl, by omega, by omega⟩
    · split at h
      · cases h; exact .inr ⟨rfl, by omega, by omega⟩
      · cases h

theorem unpad_length_le {data r : Bytes} {m : Nat} (h : unpad data m = .ok r) : r.length ≤ data.length := by
  obtain ⟨n, -, -, -, -, -, -, rfl⟩ := unpad_ok h
  simp

/-- The padding is a list of `n` bytes of value `n` at the end (the positive form of R133). -/
theorem unpad_append_replicate {r : Bytes} {m n : Nat} (h1 : 1 ≤ n) (hm : n ≤ m) (h255 : m ≤ 255)
    (hl : (r.length + n) % m = 0) :
    unpad (r ++ List.replicate n (BitVec.ofNat 8 n)) m = .ok r := by
  have hlen : (r ++ List.replicate n (BitVec.ofNat 8 n)).length = r.length + n := by simp
  have hlast : ((r ++ List.replicate n (BitVec.ofNat 8 n)).getD (r.length + n - 1) 0).toNat = n := by
    have hge : r.length ≤ r.length + n - 1 := by omega
    have hlt : r.length + n - 1 - r.length < n := by omega
    rw [List.getD_append_right _ _ _ _ hge]
    simp only [List.getD, List.getElem?_replicate, hlt, ↓reduceIte, Option.getD_some, BitVec.toNat_ofNat]
    exact Nat.mod_eq_of_lt (by omega)
  unfold unpad
  simp only [hlen, hlast]
  rw [if_neg (by omega), if_neg (by omega)]
  have hsub : r.length + n - n = r.length := by omega
  simp [hsub]

/-! ### The port (R121) -/

@[simp] theorem Cipher.E_length (c : Cipher) (L : Nat) (x : Bytes) : (Cipher.E c L x).length = L := by
  simp [Cipher.E]

@[simp] theorem Cipher.D_length (c : Cipher) (L : Nat) (x : Bytes) : (Cipher.D c L x).length = L := by
  simp [Cipher.D]

@[simp] theorem State.encryptBlock_length (s : State) (x : Bytes) : (s.encryptBlock x).length = s.config.L := by
  simp [State.encryptBlock]

@[simp] theorem State.decryptBlock_length (s : State) (x : Bytes) : (s.decryptBlock x).length = s.config.L := by
  simp [State.decryptBlock]

/-- The source's identity cipher meets the premise CIPHER_INV (R129). -/
theorem cipherInv_ident (L : Nat) : CipherInv (Cipher.E .ident L) (Cipher.D .ident L) L := by
  intro x hx
  apply List.ext_getElem
  · simp [hx]
  · intro j h1 h2
    have hj : j < L := by simpa using h1
    simp [Cipher.D, Cipher.E, decryptByte, encryptByte, List.getD, hj, h2]

/-- The test double INC of 95_test_vectors.md meets it too. -/
theorem cipherInv_inc (L : Nat) : CipherInv (Cipher.E .inc L) (Cipher.D .inc L) L := by
  intro x hx
  apply List.ext_getElem
  · simp [hx]
  · intro j h1 h2
    have hj : j < L := by simpa using h1
    simp [Cipher.D, Cipher.E, decryptByte, encryptByte, List.getD, hj, h2]

/-! ### Blocks and chains (R10, R160, R161) -/

@[simp] theorem blocksOf_length (m : Nat) (q : Bytes) : (blocksOf m q).length = q.length / m := by
  simp [blocksOf]

theorem blocksOf_getElem (m : Nat) (q : Bytes) (i : Nat) (h : i < (blocksOf m q).length) :
    (blocksOf m q)[i] = (q.drop (i * m)).take m := by
  simp [blocksOf]

theorem blocksOf_mem_length {m : Nat} {q x : Bytes} (h : x ∈ blocksOf m q) : x.length = m := by
  simp only [blocksOf, List.mem_map, List.mem_range] at h
  obtain ⟨i, hi, rfl⟩ := h
  have h1 : (i + 1) * m ≤ q.length / m * m := Nat.mul_le_mul_right m hi
  have h2 := Nat.div_mul_le_self q.length m
  rw [Nat.add_mul] at h1
  simp only [List.length_take, List.length_drop]
  omega

/-- A sequence of legal length is its blocks in order. -/
theorem blocksOf_flatten {m : Nat} {q : Bytes} (h : q.length % m = 0) :
    (blocksOf m q).flatten = q := by
  have key : ∀ n, ∀ q : Bytes, q.length = n * m →
      ((List.range n).map fun i => (q.drop (i * m)).take m).flatten = q := by
    intro n
    induction n with
    | zero => intro q hq; simpa using (List.length_eq_zero_iff.mp (by simpa using hq)).symm
    | succ n ih =>
      intro q hq
      rw [List.range_succ_eq_map]
      simp only [List.map_cons, Nat.zero_mul, List.drop_zero, List.map_map, List.flatten_cons]
      have htail := ih (q.drop m) (by rw [List.length_drop, hq, Nat.add_mul]; omega)
      have hfun : ((fun i => (q.drop (i * m)).take m) ∘ Nat.succ) =
          fun i => ((q.drop m).drop (i * m)).take m := by
        funext i
        simp only [Function.comp, List.drop_drop, Nat.succ_eq_add_one]
        congr 2
        rw [Nat.add_mul]
        omega
      rw [hfun, htail]
      exact List.take_append_drop m q
  have hq : q.length = q.length / m * m := by
    have := Nat.div_add_mod q.length m
    rw [Nat.mul_comm]
    omega
  exact key _ q hq

@[simp] theorem encBlocks_length (E : Bytes → Bytes) (v : Bytes) (ps : List Bytes) :
    (encBlocks E v ps).length = ps.length := by
  induction ps generalizing v with
  | nil => rfl
  | cons p ps ih => simp [encBlocks, ih]

@[simp] theorem decBlocks_length (D : Bytes → Bytes) (v : Bytes) (cs : List Bytes) :
    (decBlocks D v cs).length = cs.length := by
  induction cs generalizing v with
  | nil => rfl
  | cons c cs ih => simp [decBlocks, ih]

theorem encBlocks_mem_length {E : Bytes → Bytes} {L : Nat} (hE : ∀ x, x.length = L → (E x).length = L)
    {v : Bytes} (hv : v.length = L) {ps : List Bytes} (hp : ∀ p ∈ ps, p.length = L) :
    ∀ c ∈ encBlocks E v ps, c.length = L := by
  induction ps generalizing v with
  | nil => simp [encBlocks]
  | cons p ps ih =>
    have hp0 := hp p List.mem_cons_self
    have hx : (E (xorBytes v p)).length = L := hE _ (by simp [hv, hp0])
    intro c hc
    simp only [encBlocks, List.mem_cons] at hc
    rcases hc with rfl | hc
    · exact hx
    · exact ih hx (fun q hq => hp q (List.mem_cons_of_mem _ hq)) c hc

theorem decBlocks_mem_length {D : Bytes → Bytes} {L : Nat} (hD : ∀ x, x.length = L → (D x).length = L)
    {v : Bytes} (hv : v.length = L) {cs : List Bytes} (hc : ∀ c ∈ cs, c.length = L) :
    ∀ p ∈ decBlocks D v cs, p.length = L := by
  induction cs generalizing v with
  | nil => simp [decBlocks]
  | cons c cs ih =>
    have hc0 := hc c List.mem_cons_self
    intro p hp
    simp only [decBlocks, List.mem_cons] at hp
    rcases hp with rfl | hp
    · simp [hD c hc0, hv]
    · exact ih hc0 (fun q hq => hc q (List.mem_cons_of_mem _ hq)) p hp

/-- Blocks of one length, joined, have that many bytes each. -/
theorem flatten_length_of_forall {m : Nat} {xs : List Bytes} (h : ∀ x ∈ xs, x.length = m) :
    xs.flatten.length = xs.length * m := by
  induction xs with
  | nil => simp
  | cons x xs ih =>
    have h1 := h x List.mem_cons_self
    have h2 := ih fun y hy => h y (List.mem_cons_of_mem _ hy)
    simp only [List.flatten_cons, List.length_append, List.length_cons, h1, h2, Nat.add_mul, Nat.one_mul]
    omega

/-- Splitting joined blocks of one length gives the blocks back. -/
theorem blocksOf_flatten_of_forall {m : Nat} (hm : 1 ≤ m) {xs : List Bytes} (h : ∀ x ∈ xs, x.length = m) :
    blocksOf m xs.flatten = xs := by
  apply List.ext_getElem
  · rw [blocksOf_length, flatten_length_of_forall h, Nat.mul_div_cancel _ (by omega)]
  · intro i h1 h2
    rw [blocksOf_getElem]
    clear h1
    induction xs generalizing i with
    | nil => simp at h2
    | cons x xs ih =>
      have hx := h x List.mem_cons_self
      cases i with
      | zero => simp [← hx]
      | succ i =>
        have := ih (fun y hy => h y (List.mem_cons_of_mem _ hy)) i (by simpa using h2)
        simp only [List.flatten_cons, List.getElem_cons_succ]
        rw [← this, Nat.add_mul, Nat.one_mul, Nat.add_comm, ← List.drop_drop]
        rw [← hx, List.drop_left]

end Sys2Proof.Machine
end

