-- ==== Sys2Proof/Laws/Memory.lean ====
section
/-! SUPPORT. The laws of a buffer: reading after writing, the canonical form and the bounds, for one byte and for
a range. Later proofs cite these and do not unfold the cell lists. -/

namespace Sys2Proof.Machine

/-! ### The listed cells -/

theorem lookupCell_insertCell (addr other : Nat) (v : Byte) (cs : List Host.Cell) :
    lookupCell other (insertCell addr v cs) = if other = addr then some v else lookupCell other cs := by
  induction cs with
  | nil =>
    by_cases h : other = addr
    · simp [insertCell, lookupCell, h]
    · simp [insertCell, lookupCell, h, Ne.symm h]
  | cons c cs ih =>
    by_cases hlt : addr < c.1
    · by_cases h : other = addr
      · simp [insertCell, lookupCell, hlt, h]
      · simp [insertCell, lookupCell, hlt, h, Ne.symm h]
    · by_cases heq : addr = c.1
      · subst heq
        by_cases h : other = c.1
        · simp [insertCell, lookupCell, h]
        · simp [insertCell, lookupCell, h, Ne.symm h]
      · by_cases h : other = addr
        · subst h
          simp [insertCell, lookupCell, hlt, heq, Ne.symm heq, ih]
        · simp [insertCell, lookupCell, hlt, heq, ih, h]

theorem lookupCell_eraseCell (addr other : Nat) (cs : List Host.Cell) :
    lookupCell other (eraseCell addr cs) = if other = addr then none else lookupCell other cs := by
  induction cs with
  | nil => simp [eraseCell, lookupCell]
  | cons c cs ih =>
    unfold eraseCell at ih ⊢
    by_cases hc : c.1 = addr
    · by_cases h : other = addr
      · subst h; simp [hc, ih]
      · have : ¬ c.1 = other := by rw [hc]; exact Ne.symm h
        simp [hc, ih, h, lookupCell]
        simp [← hc, this]
    · by_cases h : other = addr
      · subst h; simp [hc, ih, lookupCell]
      · simp [hc, ih, h, lookupCell]

theorem ascending_tail {c : Host.Cell} {cs : List Host.Cell} (h : ascending (c :: cs) = true) :
    ascending cs = true := by
  cases cs with
  | nil => rfl
  | cons d ds => simp [ascending] at h; exact h.2

theorem ascending_cons {c : Host.Cell} {cs : List Host.Cell} :
    ascending (c :: cs) = true ↔ (∀ d ∈ cs, c.1 < d.1) ∧ ascending cs = true := by
  induction cs generalizing c with
  | nil => simp [ascending]
  | cons d ds ih =>
    simp only [ascending, Bool.and_eq_true, decide_eq_true_eq, List.mem_cons, forall_eq_or_imp]
    constructor
    · rintro ⟨hcd, hd⟩
      exact ⟨⟨hcd, fun e he => lt_trans hcd ((ih.mp hd).1 e he)⟩, hd⟩
    · rintro ⟨⟨hcd, -⟩, hd⟩
      exact ⟨hcd, hd⟩

theorem mem_insertCell {addr : Nat} {v : Byte} {cs : List Host.Cell} {d : Host.Cell}
    (h : d ∈ insertCell addr v cs) : d = (addr, v) ∨ d ∈ cs := by
  induction cs with
  | nil => simpa [insertCell] using h
  | cons c cs ih =>
    simp only [insertCell] at h
    split at h
    · simpa using h
    · split at h
      · rcases List.mem_cons.mp h with h | h
        · exact .inl h
        · exact .inr (List.mem_cons_of_mem _ h)
      · rcases List.mem_cons.mp h with h | h
        · exact .inr (h ▸ List.mem_cons_self)
        · rcases ih h with h | h
          · exact .inl h
          · exact .inr (List.mem_cons_of_mem _ h)

theorem ascending_insertCell {addr : Nat} {v : Byte} {cs : List Host.Cell}
    (h : ascending cs = true) : ascending (insertCell addr v cs) = true := by
  induction cs with
  | nil => rfl
  | cons c cs ih =>
    have ⟨hc, ht⟩ := ascending_cons.mp h
    simp only [insertCell]
    split
    · next hlt =>
      refine ascending_cons.mpr ⟨?_, h⟩
      intro d hd
      rcases List.mem_cons.mp hd with rfl | hd
      · exact hlt
      · exact lt_trans hlt (hc d hd)
    · split
      · next heq => exact ascending_cons.mpr ⟨fun d hd => by simpa [heq] using hc d hd, ht⟩
      · next hlt heq =>
        refine ascending_cons.mpr ⟨?_, ih ht⟩
        intro d hd
        rcases mem_insertCell hd with rfl | hd
        · show c.1 < addr
          omega
        · exact hc d hd

theorem ascending_eraseCell {addr : Nat} {cs : List Host.Cell}
    (h : ascending cs = true) : ascending (eraseCell addr cs) = true := by
  induction cs with
  | nil => rfl
  | cons c cs ih =>
    have ⟨hc, ht⟩ := ascending_cons.mp h
    unfold eraseCell at ih ⊢
    by_cases hne : c.1 = addr
    · simpa [hne] using ih ht
    · have : (c.1 != addr) = true := by simpa using hne
      rw [List.filter_cons_of_pos (by simpa using hne)]
      exact ascending_cons.mpr ⟨fun d hd => hc d (List.mem_filter.mp hd).1, ih ht⟩

/-! ### One byte -/

@[simp] theorem Memory.write_fill (m : Memory) (addr : Nat) (v : Byte) : (m.write addr v).fill = m.fill := by
  unfold Memory.write; split <;> rfl

/-- Read after write: the written byte at its address, every other byte as before. -/
theorem Memory.read_write (m : Memory) (addr other : Nat) (v : Byte) :
    (m.write addr v).read other = if other = addr then v else m.read other := by
  unfold Memory.write Memory.read
  split
  · next h =>
    simp only [lookupCell_eraseCell]
    split
    · simp [h.1, h.2, Fill.byte]
    · rfl
  · simp only [lookupCell_insertCell]
    split <;> rfl

@[simp] theorem Memory.read_write_same (m : Memory) (addr : Nat) (v : Byte) :
    (m.write addr v).read addr = v := by simp [Memory.read_write]

theorem Memory.read_write_other (m : Memory) {addr other : Nat} (v : Byte) (h : other ≠ addr) :
    (m.write addr v).read other = m.read other := by simp [Memory.read_write, h]

/-- A write keeps the canonical form. -/
theorem Memory.wf_write {m : Memory} (h : m.wf = true) (addr : Nat) (v : Byte) :
    (m.write addr v).wf = true := by
  unfold Memory.wf at h ⊢
  simp only [Bool.and_eq_true, Bool.or_eq_true, decide_eq_true_eq, List.all_eq_true, bne_iff_ne] at h ⊢
  unfold Memory.write
  split
  · exact ⟨ascending_eraseCell h.1, h.2.imp id fun hz c hc => hz c (List.mem_filter.mp hc).1⟩
  · next hv =>
    refine ⟨ascending_insertCell h.1, ?_⟩
    rcases h.2 with hf | hz
    · exact .inl hf
    · by_cases hf : m.fill = .zero
      · right
        intro c hc
        rcases mem_insertCell hc with rfl | hc
        · exact fun h0 => hv ⟨hf, h0⟩
        · exact hz c hc
      · exact .inl hf

/-- A write inside `[0, cap)` keeps every listed address inside. -/
theorem Memory.within_write {m : Memory} {cap : Nat} (h : m.within cap = true) {addr : Nat} (ha : addr < cap)
    (v : Byte) : (m.write addr v).within cap = true := by
  unfold Memory.within at h ⊢
  simp only [List.all_eq_true, decide_eq_true_eq] at h ⊢
  unfold Memory.write
  split
  · exact fun c hc => h c (List.mem_filter.mp hc).1
  · intro c hc
    rcases mem_insertCell hc with rfl | hc
    · exact ha
    · exact h c hc

/-! ### A zeroed buffer -/

@[simp] theorem Memory.zeros_fill : Memory.zeros.fill = .zero := rfl
@[simp] theorem Memory.read_zeros (addr : Nat) : Memory.zeros.read addr = 0 := rfl
@[simp] theorem Memory.wf_zeros : Memory.zeros.wf = true := rfl
@[simp] theorem Memory.within_zeros (cap : Nat) : Memory.zeros.within cap = true := rfl

/-- The canonical form is canonical: over a zero fill, two buffers that read alike are equal. -/
theorem lookupCell_eq_none_of_lt {addr : Nat} {cs : List Host.Cell} (h : ∀ d ∈ cs, addr < d.1) :
    lookupCell addr cs = none := by
  induction cs with
  | nil => rfl
  | cons c cs ih =>
    have hc := h c List.mem_cons_self
    simp only [lookupCell]
    rw [if_neg (by omega)]
    exact ih fun d hd => h d (List.mem_cons_of_mem _ hd)

/-- An address at or above the bound is not listed. -/
theorem Memory.read_of_within {m : Memory} {cap addr : Nat} (h : m.within cap = true) (ha : cap ≤ addr) :
    m.read addr = m.fill.byte addr := by
  have hn : ∀ cs : List Host.Cell, (∀ c ∈ cs, c.1 < cap) → lookupCell addr cs = none := by
    intro cs
    induction cs with
    | nil => exact fun _ => rfl
    | cons c cs ih =>
      intro hcs
      have hc := hcs c List.mem_cons_self
      simp only [lookupCell]
      rw [if_neg (by omega)]
      exact ih fun d hd => hcs d (List.mem_cons_of_mem _ hd)
  unfold Memory.within at h
  simp only [List.all_eq_true, decide_eq_true_eq] at h
  simp [Memory.read, hn m.cells h]

/-- Two ascending zero-free cell lists that look up alike are equal. -/
theorem cells_ext {cs ds : List Host.Cell} (hc : ascending cs = true) (hd : ascending ds = true)
    (h : ∀ addr, lookupCell addr cs = lookupCell addr ds) : cs = ds := by
  induction cs generalizing ds with
  | nil =>
    cases ds with
    | nil => rfl
    | cons d ds => have := h d.1; simp [lookupCell] at this
  | cons c cs ih =>
    have ⟨hcl, hct⟩ := ascending_cons.mp hc
    cases ds with
    | nil => have := h c.1; simp [lookupCell] at this
    | cons d ds =>
      have ⟨hdl, hdt⟩ := ascending_cons.mp hd
      have hcd : c.1 = d.1 := by
        by_contra hne
        rcases Nat.lt_or_gt_of_ne hne with hlt | hlt
        · have h1 := h c.1
          rw [lookupCell_eq_none_of_lt (cs := d :: ds)] at h1
          · simp [lookupCell] at h1
          · intro e he
            rcases List.mem_cons.mp he with rfl | he
            · exact hlt
            · exact lt_trans hlt (hdl e he)
        · have h1 := h d.1
          rw [lookupCell_eq_none_of_lt (cs := c :: cs)] at h1
          · simp [lookupCell] at h1
          · intro e he
            rcases List.mem_cons.mp he with rfl | he
            · exact hlt
            · exact lt_trans hlt (hcl e he)
      have hv : c.2 = d.2 := by
        have h1 := h c.1
        simpa [lookupCell, hcd] using h1
      have ht : cs = ds := by
        refine ih hct hdt fun addr => ?_
        by_cases ha : addr = c.1
        · subst ha
          rw [lookupCell_eq_none_of_lt hcl, lookupCell_eq_none_of_lt (by rw [hcd]; exact hdl)]
        · have h1 := h addr
          have hne : ¬ c.1 = addr := fun e => ha e.symm
          have hne' : ¬ d.1 = addr := fun e => ha (hcd ▸ e.symm)
          simpa [lookupCell, hne, hne'] using h1
      rw [ht, Prod.ext hcd hv]

/-- Equal contents over a zero fill are equal data. -/
theorem Memory.ext_of_read {m m' : Memory} (h : m.wf = true) (h' : m'.wf = true)
    (hf : m.fill = .zero) (hf' : m'.fill = .zero) (hr : ∀ addr, m.read addr = m'.read addr) : m = m' := by
  unfold Memory.wf at h h'
  simp only [hf, hf', ne_eq, not_true_eq_false, decide_false, Bool.false_or, Bool.and_eq_true,
    List.all_eq_true, bne_iff_ne] at h h'
  have hz : ∀ {cs : List Host.Cell}, (∀ c ∈ cs, c.2 ≠ 0) → ∀ {addr v}, lookupCell addr cs = some v → v ≠ 0 := by
    intro cs
    induction cs with
    | nil => intro _ addr v hv; simp [lookupCell] at hv
    | cons c cs ih =>
      intro hcs addr v hv
      simp only [lookupCell] at hv
      split at hv
      · simp only [Option.some.injEq] at hv
        exact hv ▸ hcs c List.mem_cons_self
      · exact ih (fun d hd => hcs d (List.mem_cons_of_mem _ hd)) hv
  have hl : ∀ addr, lookupCell addr m.cells = lookupCell addr m'.cells := by
    intro addr
    have h1 := hr addr
    simp only [Memory.read, hf, hf', Fill.byte] at h1
    cases hx : lookupCell addr m.cells with
    | none =>
      cases hy : lookupCell addr m'.cells with
      | none => rfl
      | some v => rw [hx, hy] at h1; exact absurd h1.symm (hz h'.2 hy)
    | some u =>
      cases hy : lookupCell addr m'.cells with
      | none => rw [hx, hy] at h1; exact absurd h1 (hz h.2 hx)
      | some v => rw [hx, hy] at h1; simpa using h1
  cases m; cases m'
  simp only [Memory.mk.injEq]
  exact ⟨hf.trans hf'.symm, cells_ext h.1 h'.1 hl⟩

/-! ### A range of bytes -/

@[simp] theorem Memory.writeBytes_nil (m : Memory) (addr : Nat) : m.writeBytes addr [] = m := rfl

theorem Memory.writeBytes_cons (m : Memory) (addr : Nat) (v : Byte) (vs : Bytes) :
    m.writeBytes addr (v :: vs) = (m.write addr v).writeBytes (addr + 1) vs := rfl

@[simp] theorem Memory.writeBytes_fill (m : Memory) (addr : Nat) (vs : Bytes) :
    (m.writeBytes addr vs).fill = m.fill := by
  induction vs generalizing m addr with
  | nil => rfl
  | cons v vs ih => simp [Memory.writeBytes_cons, ih]

/-- Read after a range write: the written bytes in the range, every byte outside it as before. -/
theorem Memory.read_writeBytes (m : Memory) (addr : Nat) (vs : Bytes) (other : Nat) :
    (m.writeBytes addr vs).read other =
      if addr ≤ other ∧ other < addr + vs.length then vs.getD (other - addr) 0 else m.read other := by
  induction vs generalizing m addr with
  | nil => simp only [Memory.writeBytes_nil, List.length_nil]; rw [if_neg (by omega)]
  | cons v vs ih =>
    rw [Memory.writeBytes_cons, ih, Memory.read_write]
    simp only [List.length_cons]
    by_cases h0 : other = addr
    · subst h0
      rw [if_neg (by omega), if_pos rfl, if_pos (by omega)]
      simp
    · by_cases h1 : addr + 1 ≤ other ∧ other < addr + 1 + vs.length
      · rw [if_pos h1, if_pos (by omega)]
        have : other - addr = (other - (addr + 1)) + 1 := by omega
        rw [this]; rfl
      · rw [if_neg h1, if_neg h0, if_neg (by omega)]

theorem Memory.read_writeBytes_inside (m : Memory) {addr other : Nat} {vs : Bytes}
    (h : addr ≤ other) (h' : other < addr + vs.length) :
    (m.writeBytes addr vs).read other = vs.getD (other - addr) 0 := by
  rw [Memory.read_writeBytes, if_pos ⟨h, h'⟩]

theorem Memory.read_writeBytes_outside (m : Memory) {addr other : Nat} {vs : Bytes}
    (h : other < addr ∨ addr + vs.length ≤ other) :
    (m.writeBytes addr vs).read other = m.read other := by
  rw [Memory.read_writeBytes, if_neg (by omega)]

/-- A range write keeps the canonical form. -/
theorem Memory.wf_writeBytes {m : Memory} (h : m.wf = true) (addr : Nat) (vs : Bytes) :
    (m.writeBytes addr vs).wf = true := by
  induction vs generalizing m addr with
  | nil => exact h
  | cons v vs ih => exact ih (Memory.wf_write h addr v) (addr + 1)

/-- A range write inside `[0, cap)` keeps every listed address inside. -/
theorem Memory.within_writeBytes {m : Memory} {cap : Nat} (h : m.within cap = true) {addr : Nat} {vs : Bytes}
    (ha : addr + vs.length ≤ cap) : (m.writeBytes addr vs).within cap = true := by
  induction vs generalizing m addr with
  | nil => exact h
  | cons v vs ih =>
    simp only [List.length_cons] at ha
    exact ih (Memory.within_write h (by omega) v) (by omega)

@[simp] theorem Memory.readBytes_length (m : Memory) (addr n : Nat) : (m.readBytes addr n).length = n := by
  simp [Memory.readBytes]

theorem Memory.readBytes_getD (m : Memory) (addr n : Nat) {j : Nat} (h : j < n) :
    (m.readBytes addr n).getD j 0 = m.read (addr + j) := by
  simp [Memory.readBytes, List.getD, h]

@[simp] theorem Memory.readBytes_getElem (m : Memory) (addr n j : Nat) (h : j < (m.readBytes addr n).length) :
    (m.readBytes addr n)[j] = m.read (addr + j) := by
  simp [Memory.readBytes]

/-- Ranges read alike when their bytes do. -/
theorem Memory.readBytes_congr {m m' : Memory} {addr n : Nat}
    (h : ∀ j, j < n → m.read (addr + j) = m'.read (addr + j)) : m.readBytes addr n = m'.readBytes addr n := by
  apply List.ext_getElem (by simp)
  intro j h1 h2
  simp only [Memory.readBytes_getElem]
  exact h j (by simpa using h1)

/-- A range that was just written reads back. -/
theorem Memory.readBytes_writeBytes (m : Memory) (addr : Nat) (vs : Bytes) :
    (m.writeBytes addr vs).readBytes addr vs.length = vs := by
  apply List.ext_getElem (by simp)
  intro j h1 h2
  rw [Memory.readBytes_getElem, Memory.read_writeBytes_inside _ (by omega) (by omega)]
  simp [List.getD, h2]

/-- A range read in two parts. -/
theorem Memory.readBytes_add (m : Memory) (addr n k : Nat) :
    m.readBytes addr (n + k) = m.readBytes addr n ++ m.readBytes (addr + n) k := by
  apply List.ext_getElem (by simp)
  intro j h1 h2
  rw [Memory.readBytes_getElem, List.getElem_append]
  split
  · simp
  · next h =>
    simp only [Memory.readBytes_length] at h
    simp only [Memory.readBytes_getElem, Memory.readBytes_length]
    congr 1
    omega

end Sys2Proof.Machine
end

