-- ==== Sys2Proof/Laws/State.lean ====
section
/-! SUPPORT. One lemma per field per state update, true by rfl, so that no proof unfolds a record update. A field
an update does not name reads as before: these lemmas are the frames of the step rules. -/

namespace Sys2Proof.Machine

/-! ### ENTRY TO FAILED (60_exceptions.md R222) -/

@[simp] theorem State.raise_config (s : State) (k : ErrorKind) : (s.raise k).config = s.config := rfl
@[simp] theorem State.raise_cmd (s : State) (k : ErrorKind) : (s.raise k).cmd = s.cmd := rfl
@[simp] theorem State.raise_phase (s : State) (k : ErrorKind) : (s.raise k).phase = .failed := rfl
@[simp] theorem State.raise_err (s : State) (k : ErrorKind) : (s.raise k).err = some k := rfl
@[simp] theorem State.raise_lenA (s : State) (k : ErrorKind) : (s.raise k).lenA = s.lenA := rfl
@[simp] theorem State.raise_lenB (s : State) (k : ErrorKind) : (s.raise k).lenB = s.lenB := rfl
@[simp] theorem State.raise_lenOut (s : State) (k : ErrorKind) : (s.raise k).lenOut = 0 := rfl
@[simp] theorem State.raise_idx (s : State) (k : ErrorKind) : (s.raise k).idx = s.idx := rfl
@[simp] theorem State.raise_nblk (s : State) (k : ErrorKind) : (s.raise k).nblk = s.nblk := rfl
@[simp] theorem State.raise_wlen (s : State) (k : ErrorKind) : (s.raise k).wlen = 0 := rfl
@[simp] theorem State.raise_a (s : State) (k : ErrorKind) : (s.raise k).a = s.a := rfl
@[simp] theorem State.raise_b (s : State) (k : ErrorKind) : (s.raise k).b = s.b := rfl
@[simp] theorem State.raise_w (s : State) (k : ErrorKind) : (s.raise k).w = Memory.zeros := rfl
@[simp] theorem State.raise_chain (s : State) (k : ErrorKind) : (s.raise k).chain = List.replicate s.config.L 0 := rfl
@[simp] theorem State.raise_events (s : State) (k : ErrorKind) : (s.raise k).events = s.events := rfl
@[simp] theorem State.raise_resets (s : State) (k : ErrorKind) : (s.raise k).resets = s.resets := rfl

/-! ### COMMAND START (44_control.md R191) -/

@[simp] theorem State.commandStart_config (s : State) (v : Word) : (s.commandStart v).config = s.config := rfl
@[simp] theorem State.commandStart_cmd (s : State) (v : Word) : (s.commandStart v).cmd = v := rfl
@[simp] theorem State.commandStart_phase (s : State) (v : Word) : (s.commandStart v).phase = .validate := rfl
@[simp] theorem State.commandStart_err (s : State) (v : Word) : (s.commandStart v).err = none := rfl
@[simp] theorem State.commandStart_lenA (s : State) (v : Word) : (s.commandStart v).lenA = s.lenA := rfl
@[simp] theorem State.commandStart_lenB (s : State) (v : Word) : (s.commandStart v).lenB = s.lenB := rfl
@[simp] theorem State.commandStart_lenOut (s : State) (v : Word) : (s.commandStart v).lenOut = 0 := rfl
@[simp] theorem State.commandStart_idx (s : State) (v : Word) : (s.commandStart v).idx = 0 := rfl
@[simp] theorem State.commandStart_nblk (s : State) (v : Word) : (s.commandStart v).nblk = 0 := rfl
@[simp] theorem State.commandStart_wlen (s : State) (v : Word) : (s.commandStart v).wlen = 0 := rfl
@[simp] theorem State.commandStart_a (s : State) (v : Word) : (s.commandStart v).a = s.a := rfl
@[simp] theorem State.commandStart_b (s : State) (v : Word) : (s.commandStart v).b = s.b := rfl
@[simp] theorem State.commandStart_w (s : State) (v : Word) : (s.commandStart v).w = Memory.zeros := rfl
@[simp] theorem State.commandStart_chain (s : State) (v : Word) :
    (s.commandStart v).chain = List.replicate s.config.L 0 := rfl
@[simp] theorem State.commandStart_events (s : State) (v : Word) : (s.commandStart v).events = s.events := rfl
@[simp] theorem State.commandStart_resets (s : State) (v : Word) : (s.commandStart v).resets = s.resets := rfl

/-! ### RESET (70_reset_and_hazards.md R240) -/

@[simp] theorem State.hostReset_config (s : State) : s.hostReset.config = s.config := rfl
@[simp] theorem State.hostReset_cmd (s : State) : s.hostReset.cmd = 0 := rfl
@[simp] theorem State.hostReset_phase (s : State) : s.hostReset.phase = .idle := rfl
@[simp] theorem State.hostReset_err (s : State) : s.hostReset.err = none := rfl
@[simp] theorem State.hostReset_lenA (s : State) : s.hostReset.lenA = 0 := rfl
@[simp] theorem State.hostReset_lenB (s : State) : s.hostReset.lenB = 0 := rfl
@[simp] theorem State.hostReset_lenOut (s : State) : s.hostReset.lenOut = 0 := rfl
@[simp] theorem State.hostReset_idx (s : State) : s.hostReset.idx = 0 := rfl
@[simp] theorem State.hostReset_nblk (s : State) : s.hostReset.nblk = 0 := rfl
@[simp] theorem State.hostReset_wlen (s : State) : s.hostReset.wlen = 0 := rfl
@[simp] theorem State.hostReset_a (s : State) :
    s.hostReset.a = { fill := .unspecified .a (s.resets + 1), cells := [] } := rfl
@[simp] theorem State.hostReset_b (s : State) :
    s.hostReset.b = { fill := .unspecified .b (s.resets + 1), cells := [] } := rfl
@[simp] theorem State.hostReset_w (s : State) : s.hostReset.w = Memory.zeros := rfl
@[simp] theorem State.hostReset_chain (s : State) : s.hostReset.chain = List.replicate s.config.L 0 := rfl
@[simp] theorem State.hostReset_events (s : State) : s.hostReset.events = s.events := rfl
@[simp] theorem State.hostReset_resets (s : State) : s.hostReset.resets = s.resets + 1 := rfl

/-! ### VALIDATE of CLEAR (R198) -/

@[simp] theorem State.clearValidated_config (s : State) : s.clearValidated.config = s.config := rfl
@[simp] theorem State.clearValidated_cmd (s : State) : s.clearValidated.cmd = s.cmd := rfl
@[simp] theorem State.clearValidated_phase (s : State) : s.clearValidated.phase = .idle := rfl
@[simp] theorem State.clearValidated_err (s : State) : s.clearValidated.err = s.err := rfl
@[simp] theorem State.clearValidated_lenA (s : State) : s.clearValidated.lenA = 0 := rfl
@[simp] theorem State.clearValidated_lenB (s : State) : s.clearValidated.lenB = 0 := rfl
@[simp] theorem State.clearValidated_lenOut (s : State) : s.clearValidated.lenOut = s.lenOut := rfl
@[simp] theorem State.clearValidated_idx (s : State) : s.clearValidated.idx = s.idx := rfl
@[simp] theorem State.clearValidated_nblk (s : State) : s.clearValidated.nblk = s.nblk := rfl
@[simp] theorem State.clearValidated_wlen (s : State) : s.clearValidated.wlen = s.wlen := rfl
@[simp] theorem State.clearValidated_a (s : State) : s.clearValidated.a = Memory.zeros := rfl
@[simp] theorem State.clearValidated_b (s : State) : s.clearValidated.b = Memory.zeros := rfl
@[simp] theorem State.clearValidated_w (s : State) : s.clearValidated.w = s.w := rfl
@[simp] theorem State.clearValidated_chain (s : State) : s.clearValidated.chain = s.chain := rfl
@[simp] theorem State.clearValidated_events (s : State) : s.clearValidated.events = s.events := rfl
@[simp] theorem State.clearValidated_resets (s : State) : s.clearValidated.resets = s.resets := rfl

/-! ### VALIDATE of PAD (R136) -/

@[simp] theorem State.padValidated_config (s : State) : s.padValidated.config = s.config := rfl
@[simp] theorem State.padValidated_cmd (s : State) : s.padValidated.cmd = s.cmd := rfl
@[simp] theorem State.padValidated_phase (s : State) : s.padValidated.phase = .pad := rfl
@[simp] theorem State.padValidated_err (s : State) : s.padValidated.err = s.err := rfl
@[simp] theorem State.padValidated_lenA (s : State) : s.padValidated.lenA = s.lenA := rfl
@[simp] theorem State.padValidated_lenB (s : State) : s.padValidated.lenB = s.lenB := rfl
@[simp] theorem State.padValidated_lenOut (s : State) : s.padValidated.lenOut = s.lenOut := rfl
@[simp] theorem State.padValidated_idx (s : State) : s.padValidated.idx = s.idx := rfl
@[simp] theorem State.padValidated_nblk (s : State) : s.padValidated.nblk = s.nblk := rfl
@[simp] theorem State.padValidated_wlen (s : State) : s.padValidated.wlen = s.wlen := rfl
@[simp] theorem State.padValidated_a (s : State) : s.padValidated.a = s.a := rfl
@[simp] theorem State.padValidated_b (s : State) : s.padValidated.b = s.b := rfl
@[simp] theorem State.padValidated_w (s : State) : s.padValidated.w = s.w := rfl
@[simp] theorem State.padValidated_chain (s : State) : s.padValidated.chain = s.chain := rfl
@[simp] theorem State.padValidated_events (s : State) : s.padValidated.events = s.events := rfl
@[simp] theorem State.padValidated_resets (s : State) : s.padValidated.resets = s.resets := rfl

/-! ### PAD step of PAD (R137) -/

@[simp] theorem State.padStep_config (s : State) (bl : BitVec 8) : (s.padStep bl).config = s.config := rfl
@[simp] theorem State.padStep_cmd (s : State) (bl : BitVec 8) : (s.padStep bl).cmd = s.cmd := rfl
@[simp] theorem State.padStep_phase (s : State) (bl : BitVec 8) : (s.padStep bl).phase = .done := rfl
@[simp] theorem State.padStep_err (s : State) (bl : BitVec 8) : (s.padStep bl).err = s.err := rfl
@[simp] theorem State.padStep_lenA (s : State) (bl : BitVec 8) : (s.padStep bl).lenA = s.lenA := rfl
@[simp] theorem State.padStep_lenB (s : State) (bl : BitVec 8) : (s.padStep bl).lenB = s.lenB := rfl
@[simp] theorem State.padStep_lenOut (s : State) (bl : BitVec 8) :
    (s.padStep bl).lenOut = BitVec.ofNat 32 (s.paddedLen (blockLen bl)) := rfl
@[simp] theorem State.padStep_idx (s : State) (bl : BitVec 8) : (s.padStep bl).idx = s.idx := rfl
@[simp] theorem State.padStep_nblk (s : State) (bl : BitVec 8) : (s.padStep bl).nblk = s.nblk := rfl
@[simp] theorem State.padStep_wlen (s : State) (bl : BitVec 8) :
    (s.padStep bl).wlen = BitVec.ofNat 32 (s.paddedLen (blockLen bl)) := rfl
@[simp] theorem State.padStep_a (s : State) (bl : BitVec 8) : (s.padStep bl).a = s.a := rfl
@[simp] theorem State.padStep_b (s : State) (bl : BitVec 8) : (s.padStep bl).b = s.b := rfl
@[simp] theorem State.padStep_w (s : State) (bl : BitVec 8) : (s.padStep bl).w = s.paddedWork (blockLen bl) := rfl
@[simp] theorem State.padStep_chain (s : State) (bl : BitVec 8) : (s.padStep bl).chain = s.chain := rfl
@[simp] theorem State.padStep_events (s : State) (bl : BitVec 8) : (s.padStep bl).events = s.events := rfl
@[simp] theorem State.padStep_resets (s : State) (bl : BitVec 8) : (s.padStep bl).resets = s.resets := rfl

/-! ### VALIDATE of UNPAD (R139) -/

@[simp] theorem State.unpadValidated_config (s : State) : s.unpadValidated.config = s.config := rfl
@[simp] theorem State.unpadValidated_cmd (s : State) : s.unpadValidated.cmd = s.cmd := rfl
@[simp] theorem State.unpadValidated_phase (s : State) : s.unpadValidated.phase = .unpad := rfl
@[simp] theorem State.unpadValidated_err (s : State) : s.unpadValidated.err = s.err := rfl
@[simp] theorem State.unpadValidated_lenA (s : State) : s.unpadValidated.lenA = s.lenA := rfl
@[simp] theorem State.unpadValidated_lenB (s : State) : s.unpadValidated.lenB = s.lenB := rfl
@[simp] theorem State.unpadValidated_lenOut (s : State) : s.unpadValidated.lenOut = s.lenOut := rfl
@[simp] theorem State.unpadValidated_idx (s : State) : s.unpadValidated.idx = s.idx := rfl
@[simp] theorem State.unpadValidated_nblk (s : State) : s.unpadValidated.nblk = s.nblk := rfl
@[simp] theorem State.unpadValidated_wlen (s : State) : s.unpadValidated.wlen = s.lenA := rfl
@[simp] theorem State.unpadValidated_a (s : State) : s.unpadValidated.a = s.a := rfl
@[simp] theorem State.unpadValidated_b (s : State) : s.unpadValidated.b = s.b := rfl
@[simp] theorem State.unpadValidated_w (s : State) : s.unpadValidated.w = s.w.writeBytes 0 s.operandA := rfl
@[simp] theorem State.unpadValidated_chain (s : State) : s.unpadValidated.chain = s.chain := rfl
@[simp] theorem State.unpadValidated_events (s : State) : s.unpadValidated.events = s.events := rfl
@[simp] theorem State.unpadValidated_resets (s : State) : s.unpadValidated.resets = s.resets := rfl

/-! ### VALIDATE of XOR (R153) -/

@[simp] theorem State.xorValidated_config (s : State) : s.xorValidated.config = s.config := rfl
@[simp] theorem State.xorValidated_cmd (s : State) : s.xorValidated.cmd = s.cmd := rfl
@[simp] theorem State.xorValidated_phase (s : State) : s.xorValidated.phase = .process := rfl
@[simp] theorem State.xorValidated_err (s : State) : s.xorValidated.err = s.err := rfl
@[simp] theorem State.xorValidated_lenA (s : State) : s.xorValidated.lenA = s.lenA := rfl
@[simp] theorem State.xorValidated_lenB (s : State) : s.xorValidated.lenB = s.lenB := rfl
@[simp] theorem State.xorValidated_lenOut (s : State) : s.xorValidated.lenOut = s.lenOut := rfl
@[simp] theorem State.xorValidated_idx (s : State) : s.xorValidated.idx = s.idx := rfl
@[simp] theorem State.xorValidated_nblk (s : State) : s.xorValidated.nblk = s.nblk := rfl
@[simp] theorem State.xorValidated_wlen (s : State) : s.xorValidated.wlen = s.wlen := rfl
@[simp] theorem State.xorValidated_a (s : State) : s.xorValidated.a = s.a := rfl
@[simp] theorem State.xorValidated_b (s : State) : s.xorValidated.b = s.b := rfl
@[simp] theorem State.xorValidated_w (s : State) : s.xorValidated.w = s.w := rfl
@[simp] theorem State.xorValidated_chain (s : State) : s.xorValidated.chain = s.chain := rfl
@[simp] theorem State.xorValidated_events (s : State) : s.xorValidated.events = s.events := rfl
@[simp] theorem State.xorValidated_resets (s : State) : s.xorValidated.resets = s.resets := rfl

/-! ### PROCESS step of XOR (R154) -/

@[simp] theorem State.xorStep_config (s : State) : s.xorStep.config = s.config := rfl
@[simp] theorem State.xorStep_cmd (s : State) : s.xorStep.cmd = s.cmd := rfl
@[simp] theorem State.xorStep_phase (s : State) : s.xorStep.phase = .done := rfl
@[simp] theorem State.xorStep_err (s : State) : s.xorStep.err = s.err := rfl
@[simp] theorem State.xorStep_lenA (s : State) : s.xorStep.lenA = s.lenA := rfl
@[simp] theorem State.xorStep_lenB (s : State) : s.xorStep.lenB = s.lenB := rfl
@[simp] theorem State.xorStep_lenOut (s : State) : s.xorStep.lenOut = s.lenA := rfl
@[simp] theorem State.xorStep_idx (s : State) : s.xorStep.idx = s.idx := rfl
@[simp] theorem State.xorStep_nblk (s : State) : s.xorStep.nblk = s.nblk := rfl
@[simp] theorem State.xorStep_wlen (s : State) : s.xorStep.wlen = s.lenA := rfl
@[simp] theorem State.xorStep_a (s : State) : s.xorStep.a = s.a := rfl
@[simp] theorem State.xorStep_b (s : State) : s.xorStep.b = s.b := rfl
@[simp] theorem State.xorStep_w (s : State) :
    s.xorStep.w = s.w.writeBytes 0 (xorBytes s.operandA (s.b.readBytes 0 s.lenA.toNat)) := rfl
@[simp] theorem State.xorStep_chain (s : State) : s.xorStep.chain = s.chain := rfl
@[simp] theorem State.xorStep_events (s : State) : s.xorStep.events = s.events := rfl
@[simp] theorem State.xorStep_resets (s : State) : s.xorStep.resets = s.resets := rfl

/-! ### VALIDATE of CBC.ENC (R166) -/

@[simp] theorem State.encValidated_config (s : State) : s.encValidated.config = s.config := rfl
@[simp] theorem State.encValidated_cmd (s : State) : s.encValidated.cmd = s.cmd := rfl
@[simp] theorem State.encValidated_phase (s : State) : s.encValidated.phase = .pad := rfl
@[simp] theorem State.encValidated_err (s : State) : s.encValidated.err = s.err := rfl
@[simp] theorem State.encValidated_lenA (s : State) : s.encValidated.lenA = s.lenA := rfl
@[simp] theorem State.encValidated_lenB (s : State) : s.encValidated.lenB = s.lenB := rfl
@[simp] theorem State.encValidated_lenOut (s : State) : s.encValidated.lenOut = s.lenOut := rfl
@[simp] theorem State.encValidated_idx (s : State) : s.encValidated.idx = s.idx := rfl
@[simp] theorem State.encValidated_nblk (s : State) : s.encValidated.nblk = s.nblk := rfl
@[simp] theorem State.encValidated_wlen (s : State) : s.encValidated.wlen = s.wlen := rfl
@[simp] theorem State.encValidated_a (s : State) : s.encValidated.a = s.a := rfl
@[simp] theorem State.encValidated_b (s : State) : s.encValidated.b = s.b := rfl
@[simp] theorem State.encValidated_w (s : State) : s.encValidated.w = s.w := rfl
@[simp] theorem State.encValidated_chain (s : State) : s.encValidated.chain = s.iv := rfl
@[simp] theorem State.encValidated_events (s : State) : s.encValidated.events = s.events := rfl
@[simp] theorem State.encValidated_resets (s : State) : s.encValidated.resets = s.resets := rfl

/-! ### PAD step of CBC.ENC (R167) -/

@[simp] theorem State.encPadStep_config (s : State) : s.encPadStep.config = s.config := rfl
@[simp] theorem State.encPadStep_cmd (s : State) : s.encPadStep.cmd = s.cmd := rfl
@[simp] theorem State.encPadStep_phase (s : State) : s.encPadStep.phase = .process := rfl
@[simp] theorem State.encPadStep_err (s : State) : s.encPadStep.err = s.err := rfl
@[simp] theorem State.encPadStep_lenA (s : State) : s.encPadStep.lenA = s.lenA := rfl
@[simp] theorem State.encPadStep_lenB (s : State) : s.encPadStep.lenB = s.lenB := rfl
@[simp] theorem State.encPadStep_lenOut (s : State) : s.encPadStep.lenOut = s.lenOut := rfl
@[simp] theorem State.encPadStep_idx (s : State) : s.encPadStep.idx = s.idx := rfl
@[simp] theorem State.encPadStep_nblk (s : State) :
    s.encPadStep.nblk = BitVec.ofNat 32 (s.paddedLen s.config.L / s.config.L) := rfl
@[simp] theorem State.encPadStep_wlen (s : State) :
    s.encPadStep.wlen = BitVec.ofNat 32 (s.paddedLen s.config.L) := rfl
@[simp] theorem State.encPadStep_a (s : State) : s.encPadStep.a = s.a := rfl
@[simp] theorem State.encPadStep_b (s : State) : s.encPadStep.b = s.b := rfl
@[simp] theorem State.encPadStep_w (s : State) : s.encPadStep.w = s.paddedWork s.config.L := rfl
@[simp] theorem State.encPadStep_chain (s : State) : s.encPadStep.chain = s.chain := rfl
@[simp] theorem State.encPadStep_events (s : State) : s.encPadStep.events = s.events := rfl
@[simp] theorem State.encPadStep_resets (s : State) : s.encPadStep.resets = s.resets := rfl

/-! ### PROCESS step of CBC.ENC (R168) -/

@[simp] theorem State.encStep_config (s : State) : s.encStep.config = s.config := rfl
@[simp] theorem State.encStep_cmd (s : State) : s.encStep.cmd = s.cmd := rfl
@[simp] theorem State.encStep_phase (s : State) : s.encStep.phase = if s.lastBlock then .done else .process := rfl
@[simp] theorem State.encStep_err (s : State) : s.encStep.err = s.err := rfl
@[simp] theorem State.encStep_lenA (s : State) : s.encStep.lenA = s.lenA := rfl
@[simp] theorem State.encStep_lenB (s : State) : s.encStep.lenB = s.lenB := rfl
@[simp] theorem State.encStep_lenOut (s : State) : s.encStep.lenOut = if s.lastBlock then s.wlen else s.lenOut := rfl
@[simp] theorem State.encStep_idx (s : State) : s.encStep.idx = BitVec.ofNat 32 (s.blockIndex + 1) := rfl
@[simp] theorem State.encStep_nblk (s : State) : s.encStep.nblk = s.nblk := rfl
@[simp] theorem State.encStep_wlen (s : State) : s.encStep.wlen = s.wlen := rfl
@[simp] theorem State.encStep_a (s : State) : s.encStep.a = s.a := rfl
@[simp] theorem State.encStep_b (s : State) : s.encStep.b = s.b := rfl
@[simp] theorem State.encStep_w (s : State) :
    s.encStep.w = s.w.writeBytes (s.blockIndex * s.config.L) (s.encryptBlock s.encInput) := rfl
@[simp] theorem State.encStep_chain (s : State) : s.encStep.chain = s.encryptBlock s.encInput := rfl
@[simp] theorem State.encStep_events (s : State) : s.encStep.events = s.events := rfl
@[simp] theorem State.encStep_resets (s : State) : s.encStep.resets = s.resets := rfl

/-! ### VALIDATE of CBC.DEC (R170) -/

@[simp] theorem State.decValidated_config (s : State) : s.decValidated.config = s.config := rfl
@[simp] theorem State.decValidated_cmd (s : State) : s.decValidated.cmd = s.cmd := rfl
@[simp] theorem State.decValidated_phase (s : State) :
    s.decValidated.phase = if 0 < s.lenA.toNat then .process else .unpad := rfl
@[simp] theorem State.decValidated_err (s : State) : s.decValidated.err = s.err := rfl
@[simp] theorem State.decValidated_lenA (s : State) : s.decValidated.lenA = s.lenA := rfl
@[simp] theorem State.decValidated_lenB (s : State) : s.decValidated.lenB = s.lenB := rfl
@[simp] theorem State.decValidated_lenOut (s : State) : s.decValidated.lenOut = s.lenOut := rfl
@[simp] theorem State.decValidated_idx (s : State) : s.decValidated.idx = s.idx := rfl
@[simp] theorem State.decValidated_nblk (s : State) :
    s.decValidated.nblk = BitVec.ofNat 32 (s.lenA.toNat / s.config.L) := rfl
@[simp] theorem State.decValidated_wlen (s : State) : s.decValidated.wlen = s.lenA := rfl
@[simp] theorem State.decValidated_a (s : State) : s.decValidated.a = s.a := rfl
@[simp] theorem State.decValidated_b (s : State) : s.decValidated.b = s.b := rfl
@[simp] theorem State.decValidated_w (s : State) : s.decValidated.w = s.w := rfl
@[simp] theorem State.decValidated_chain (s : State) : s.decValidated.chain = s.iv := rfl
@[simp] theorem State.decValidated_events (s : State) : s.decValidated.events = s.events := rfl
@[simp] theorem State.decValidated_resets (s : State) : s.decValidated.resets = s.resets := rfl

/-! ### PROCESS step of CBC.DEC (R171) -/

@[simp] theorem State.decStep_config (s : State) : s.decStep.config = s.config := rfl
@[simp] theorem State.decStep_cmd (s : State) : s.decStep.cmd = s.cmd := rfl
@[simp] theorem State.decStep_phase (s : State) : s.decStep.phase = if s.lastBlock then .unpad else .process := rfl
@[simp] theorem State.decStep_err (s : State) : s.decStep.err = s.err := rfl
@[simp] theorem State.decStep_lenA (s : State) : s.decStep.lenA = s.lenA := rfl
@[simp] theorem State.decStep_lenB (s : State) : s.decStep.lenB = s.lenB := rfl
@[simp] theorem State.decStep_lenOut (s : State) : s.decStep.lenOut = s.lenOut := rfl
@[simp] theorem State.decStep_idx (s : State) : s.decStep.idx = BitVec.ofNat 32 (s.blockIndex + 1) := rfl
@[simp] theorem State.decStep_nblk (s : State) : s.decStep.nblk = s.nblk := rfl
@[simp] theorem State.decStep_wlen (s : State) : s.decStep.wlen = s.wlen := rfl
@[simp] theorem State.decStep_a (s : State) : s.decStep.a = s.a := rfl
@[simp] theorem State.decStep_b (s : State) : s.decStep.b = s.b := rfl
@[simp] theorem State.decStep_w (s : State) :
    s.decStep.w = s.w.writeBytes (s.blockIndex * s.config.L) (xorBytes (s.decryptBlock s.decInput) s.chain) := rfl
@[simp] theorem State.decStep_chain (s : State) : s.decStep.chain = s.decInput := rfl
@[simp] theorem State.decStep_events (s : State) : s.decStep.events = s.events := rfl
@[simp] theorem State.decStep_resets (s : State) : s.decStep.resets = s.resets := rfl

end Sys2Proof.Machine
end

