-- ==== Sys2Proof/Laws/Machine.lean ====
section
/-! SUPPORT. What a step can do, said once: the decoder's inversion, the forward equations of each command, the
inversion of `exec` and of `step`. Later proofs cite these instead of unfolding the step function. -/

namespace Sys2Proof

/-! ### The decoder -/

/-- A decoded word has the command's opcode in OP and, for format B, its operand in BL. -/
theorem opField_of_decode {w : Word} {i : Instr} (h : decode w = .ok i) : opField w = i.opcode := by
  unfold decode formatN formatB at h
  repeat' split at h
  all_goals first
    | (cases h; assumption)
    | cases h

theorem blField_of_decode_pad {w : Word} {bl : BitVec 8} (h : decode w = .ok (.pad bl)) :
    blField w = bl ∧ bl ≠ 0 := by
  unfold decode formatN formatB at h
  repeat' split at h
  all_goals first
    | (cases h; exact ⟨rfl, by assumption⟩)
    | cases h

theorem blField_of_decode_unpad {w : Word} {bl : BitVec 8} (h : decode w = .ok (.unpad bl)) :
    blField w = bl ∧ bl ≠ 0 := by
  unfold decode formatN formatB at h
  repeat' split at h
  all_goals first
    | (cases h; exact ⟨rfl, by assumption⟩)
    | cases h

end Sys2Proof

namespace Sys2Proof.Machine

/-- The ranges of R6, as facts. -/
theorem legal_iff (c : Config) :
    c.legal = true ↔ 1 ≤ c.L ∧ c.L ≤ 255 ∧ 6 * c.L + 7 ≤ c.CAP ∧ c.CAP < 2 ^ 31 := by
  simp [Config.legal, and_assoc]

/-! ### VALIDATE -/

theorem State.validateStep_none {s passed : State} {checks : List Check} (h : firstError checks = none) :
    s.validateStep checks passed = passed := by
  simp [State.validateStep, h]

theorem State.validateStep_some {s passed : State} {checks : List Check} {k : ErrorKind}
    (h : firstError checks = some k) : s.validateStep checks passed = s.raise k := by
  simp [State.validateStep, h]

/-- The VALIDATE step is the success rule, all checks passed, or entry to FAILED. -/
theorem State.validateStep_cases (s passed : State) (checks : List Check) :
    (firstError checks = none ∧ s.validateStep checks passed = passed) ∨
    (∃ k, firstError checks = some k ∧ s.validateStep checks passed = s.raise k) := by
  cases h : firstError checks with
  | none => exact .inl ⟨rfl, State.validateStep_none h⟩
  | some k => exact .inr ⟨k, rfl, State.validateStep_some h⟩

/-! ### The checks of VALIDATE (R193) -/

theorem firstError_cons (c : Check) (cs : List Check) :
    firstError (c :: cs) = if c.1 = true then some c.2 else firstError cs := rfl

/-- A raised error is the error of one of the checks. -/
theorem firstError_mem {cs : List Check} {k : ErrorKind} (h : firstError cs = some k) : ∃ c ∈ cs, c.2 = k := by
  induction cs with
  | nil => cases h
  | cons c cs ih =>
    rw [firstError_cons] at h
    split at h
    · cases h; exact ⟨c, List.mem_cons_self, rfl⟩
    · obtain ⟨d, hd, he⟩ := ih h
      exact ⟨d, List.mem_cons_of_mem _ hd, he⟩

/-- When no error is raised, no check's condition holds. -/
theorem firstError_none {cs : List Check} (h : firstError cs = none) : ∀ c ∈ cs, c.1 = false := by
  induction cs with
  | nil => simp
  | cons c cs ih =>
    rw [firstError_cons] at h
    split at h
    · cases h
    · next hc =>
      intro d hd
      rcases List.mem_cons.mp hd with rfl | hd
      · simpa using hc
      · exact ih h d hd

theorem State.lenA_le_of_checked {s : State} {cs : List Check} (h : firstError cs = none) (hm : s.checkLenA ∈ cs) :
    s.lenA.toNat ≤ s.config.CAP := by
  have := firstError_none h _ hm
  simpa [State.checkLenA] using this

theorem State.lenB_le_of_checked {s : State} {cs : List Check} (h : firstError cs = none) (hm : s.checkLenB ∈ cs) :
    s.lenB.toNat ≤ s.config.CAP := by
  have := firstError_none h _ hm
  simpa [State.checkLenB] using this

theorem State.sameLen_of_checked {s : State} {cs : List Check} (h : firstError cs = none)
    (hm : s.checkSameLen ∈ cs) : s.lenA = s.lenB := by
  have := firstError_none h _ hm
  simpa [State.checkSameLen] using this

theorem State.ivLen_of_checked {s : State} {cs : List Check} (h : firstError cs = none) (hm : s.checkIvLen ∈ cs) :
    s.lenB.toNat = s.config.L := by
  have := firstError_none h _ hm
  simpa [State.checkIvLen] using this

theorem State.multiple_of_checked {s : State} {cs : List Check} (h : firstError cs = none)
    (hm : s.checkMultiple ∈ cs) : s.lenA.toNat % s.config.L = 0 := by
  have := firstError_none h _ hm
  simpa [State.checkMultiple] using this

theorem State.paddedLen_le_of_checked {s : State} {m : Nat} {cs : List Check} (h : firstError cs = none)
    (hm : s.checkPadded m ∈ cs) : s.paddedLen m ≤ s.config.CAP := by
  have := firstError_none h _ hm
  simpa [State.checkPadded, State.paddedLen] using this

theorem State.checkPadded_eq (s : State) (m : Nat) : s.checkPadded m = (s.paddedOverflow m, .capacity) := rfl

theorem checkedLen_pad (s : State) (bl : BitVec 8) : checkedLen (.pad bl) s = (blField s.cmd).toNat := rfl

theorem checkedLen_cbcEnc (s : State) : checkedLen .cbcEnc s = s.config.L := rfl

/-- The table of R193, one row at a time. -/
theorem find?_check (r : CheckRow) (rs : List CheckRow) (i : Instr) (s : State) :
    ((r :: rs).find? fun r => r.applies i && r.fails i s).map CheckRow.error =
      if r.applies i = true ∧ r.fails i s = true then some r.error
      else (rs.find? fun r => r.applies i && r.fails i s).map CheckRow.error := by
  rw [List.find?_cons]
  cases h : (r.applies i && r.fails i s)
  · rw [if_neg (by simpa using h)]
  · rw [if_pos (by simpa using h)]
    rfl

/-! The error that the table gives a command is that of the command's own checks, in order. -/

theorem validateError_clear (s : State) : validateError .clear s = none := by
  simp [validateError, checkTable, Instr.opcode]

theorem validateError_pad (s : State) {bl : BitVec 8} (hb : blField s.cmd = bl) (h0 : bl ≠ 0) :
    validateError (.pad bl) s = firstError (s.padChecks bl) := by
  have h0' : ¬ bl = 0#8 := h0
  simp [validateError, checkTable, find?_check, Instr.opcode, State.padChecks, firstError_cons, firstError,
    checkBlockLen, h0', State.checkLenA, State.checkPadded_eq, blockLen, checkedLen_pad, hb]

theorem validateError_unpad (s : State) {bl : BitVec 8} (h0 : bl ≠ 0) :
    validateError (.unpad bl) s = firstError (s.unpadChecks bl) := by
  have h0' : ¬ bl = 0#8 := h0
  simp [validateError, checkTable, find?_check, Instr.opcode, State.unpadChecks, firstError_cons, firstError,
    checkBlockLen, h0', State.checkLenA]

theorem validateError_xor (s : State) : validateError .xor s = firstError s.xorChecks := by
  have h1 : s.lenA.toNat = s.lenB.toNat ↔ s.lenA = s.lenB := ⟨BitVec.eq_of_toNat_eq, fun h => by rw [h]⟩
  simp [validateError, checkTable, find?_check, Instr.opcode, State.xorChecks, firstError_cons, firstError,
    State.checkLenA, State.checkLenB, State.checkSameLen, h1]

theorem validateError_cbcEnc (s : State) : validateError .cbcEnc s = firstError s.encChecks := by
  simp [validateError, checkTable, find?_check, Instr.opcode, State.encChecks, firstError_cons, firstError,
    State.checkLenA, State.checkLenB, State.checkIvLen, State.checkPadded_eq, checkedLen_cbcEnc]

theorem validateError_cbcDec (s : State) : validateError .cbcDec s = firstError s.decChecks := by
  simp [validateError, checkTable, find?_check, Instr.opcode, State.decChecks, firstError_cons, firstError,
    State.checkLenA, State.checkLenB, State.checkIvLen, State.checkMultiple]

/-! ### The padded work buffer (R137, R167) -/

theorem State.paddedWork_read_data (s : State) (m : Nat) {addr : Nat} (h : addr < s.lenA.toNat) :
    (s.paddedWork m).read addr = s.a.read addr := by
  unfold State.paddedWork
  rw [Memory.read_writeBytes_outside _ (by omega),
    Memory.read_writeBytes_inside _ (by omega) (by simpa [State.operandA]),
    State.operandA, Memory.readBytes_getD _ _ _ (by omega)]
  simp

theorem State.paddedWork_read_padding (s : State) (m : Nat) (hm : m ≤ 255) {addr : Nat}
    (h : s.lenA.toNat ≤ addr) (h' : addr < s.paddedLen m) :
    ((s.paddedWork m).read addr).toNat = padCount s.lenA.toNat m := by
  have := padCount_le s.lenA.toNat m
  unfold State.paddedLen at h'
  unfold State.paddedWork
  rw [Memory.read_writeBytes_inside _ h (by simpa), List.getD, List.getElem?_replicate, if_pos (by omega)]
  simp only [Option.getD_some, BitVec.toNat_ofNat]
  exact Nat.mod_eq_of_lt (by omega)

theorem State.paddedWork_read_rest (s : State) (m : Nat) {addr : Nat} (h : s.paddedLen m ≤ addr) :
    (s.paddedWork m).read addr = s.w.read addr := by
  unfold State.paddedLen at h
  unfold State.paddedWork
  rw [Memory.read_writeBytes_outside _ (by simp; omega),
    Memory.read_writeBytes_outside _ (by simp [State.operandA]; omega)]

/-! ### Forward: the step of each command in each of its states -/

theorem execClear_validate {s : State} (h : s.phase = .validate) : execClear s = .next s.clearValidated := by
  simp [execClear, h, State.validateStep, firstError]

theorem execPad_validate {s : State} (bl : BitVec 8) (h : s.phase = .validate) :
    execPad bl s = .next (s.validateStep (s.padChecks bl) s.padValidated) := by
  simp [execPad, h]

theorem execPad_pad {s : State} (bl : BitVec 8) (h : s.phase = .pad) : execPad bl s = .next (s.padStep bl) := by
  simp [execPad, h]

theorem execUnpad_validate {s : State} (bl : BitVec 8) (h : s.phase = .validate) :
    execUnpad bl s = .next (s.validateStep (s.unpadChecks bl) s.unpadValidated) := by
  simp [execUnpad, h]

theorem execUnpad_unpad {s : State} (bl : BitVec 8) (h : s.phase = .unpad) :
    execUnpad bl s = .next (s.unpadStep (blockLen bl)) := by
  simp [execUnpad, h]

theorem execXor_validate {s : State} (h : s.phase = .validate) :
    execXor s = .next (s.validateStep s.xorChecks s.xorValidated) := by
  simp [execXor, h]

theorem execXor_process {s : State} (h : s.phase = .process) : execXor s = .next s.xorStep := by
  simp [execXor, h]

theorem execCbcEnc_validate {s : State} (h : s.phase = .validate) :
    execCbcEnc s = .next (s.validateStep s.encChecks s.encValidated) := by
  simp [execCbcEnc, h]

theorem execCbcEnc_pad {s : State} (h : s.phase = .pad) : execCbcEnc s = .next s.encPadStep := by
  simp [execCbcEnc, h]

theorem execCbcEnc_process {s : State} (h : s.phase = .process) : execCbcEnc s = .next s.encStep := by
  simp [execCbcEnc, h]

theorem execCbcDec_validate {s : State} (h : s.phase = .validate) :
    execCbcDec s = .next (s.validateStep s.decChecks s.decValidated) := by
  simp [execCbcDec, h]

theorem execCbcDec_process {s : State} (h : s.phase = .process) : execCbcDec s = .next s.decStep := by
  simp [execCbcDec, h]

theorem execCbcDec_unpad {s : State} (h : s.phase = .unpad) :
    execCbcDec s = .next (s.unpadStep s.config.L) := by
  simp [execCbcDec, h]

/-- Outside the states of its command a meaning answers no next state. -/
theorem offPath_ne_next (p : Phase) (t : State) : offPath p ≠ .next t := by
  unfold offPath; split <;> simp

/-- The UNPAD step is DONE with the length of `unpad`'s result, or entry to FAILED with its kind. -/
theorem State.unpadStep_cases (s : State) (m : Nat) :
    (∃ r, Sys2Proof.Machine.unpad s.work m = .ok r ∧
      s.unpadStep m = { s with lenOut := BitVec.ofNat 32 r.length, phase := .done }) ∨
    (∃ k, Sys2Proof.Machine.unpad s.work m = .error k ∧ s.unpadStep m = s.raise k) := by
  unfold State.unpadStep
  cases h : Sys2Proof.Machine.unpad s.work m with
  | ok r => exact .inl ⟨r, rfl, rfl⟩
  | error k => exact .inr ⟨k, rfl, rfl⟩

/-! ### Inversion of `exec` -/

/-- Everything one engine step of a command can do. -/
inductive ExecStep : Instr → State → State → Prop where
  | raised {i s k} (hp : s.phase = .validate) : ExecStep i s (s.raise k)
  | clear {s} (hp : s.phase = .validate) : ExecStep .clear s s.clearValidated
  | padOk {s bl} (hp : s.phase = .validate) (hc : firstError (s.padChecks bl) = none) :
      ExecStep (.pad bl) s s.padValidated
  | padStep {s bl} (hp : s.phase = .pad) : ExecStep (.pad bl) s (s.padStep bl)
  | unpadOk {s bl} (hp : s.phase = .validate) (hc : firstError (s.unpadChecks bl) = none) :
      ExecStep (.unpad bl) s s.unpadValidated
  | unpadStep {s bl} (hp : s.phase = .unpad) : ExecStep (.unpad bl) s (s.unpadStep (blockLen bl))
  | xorOk {s} (hp : s.phase = .validate) (hc : firstError s.xorChecks = none) : ExecStep .xor s s.xorValidated
  | xorStep {s} (hp : s.phase = .process) : ExecStep .xor s s.xorStep
  | encOk {s} (hp : s.phase = .validate) (hc : firstError s.encChecks = none) : ExecStep .cbcEnc s s.encValidated
  | encPadStep {s} (hp : s.phase = .pad) : ExecStep .cbcEnc s s.encPadStep
  | encStep {s} (hp : s.phase = .process) : ExecStep .cbcEnc s s.encStep
  | decOk {s} (hp : s.phase = .validate) (hc : firstError s.decChecks = none) : ExecStep .cbcDec s s.decValidated
  | decStep {s} (hp : s.phase = .process) : ExecStep .cbcDec s s.decStep
  | decUnpad {s} (hp : s.phase = .unpad) : ExecStep .cbcDec s (s.unpadStep s.config.L)

/-- A VALIDATE step that answers `t` raised, or passed its checks. -/
theorem validateStep_inv {i : Instr} {s t passed : State} {checks : List Check}
    (h : (Host.Outcome.next (s.validateStep checks passed) : Host.Outcome State Fault Refusal) = .next t)
    (hp : s.phase = .validate) (hok : firstError checks = none → ExecStep i s passed) : ExecStep i s t := by
  cases h
  rcases s.validateStep_cases passed checks with ⟨hc, he⟩ | ⟨k, -, he⟩
  · rw [he]; exact hok hc
  · rw [he]; exact .raised hp

/-- The inversion lemma: an engine step that answers a next state is one of `ExecStep`. -/
theorem exec_inv {i : Instr} {s t : State} (h : exec i s = .next t) : ExecStep i s t := by
  cases i with
  | clear =>
    change execClear s = _ at h
    unfold execClear at h
    split at h
    · next hp => exact validateStep_inv h hp fun _ => .clear hp
    · exact absurd h (offPath_ne_next _ _)
  | pad bl =>
    change execPad bl s = _ at h
    unfold execPad at h
    split at h
    · next hp => exact validateStep_inv h hp fun hc => .padOk hp hc
    · next hp => cases h; exact .padStep hp
    · exact absurd h (offPath_ne_next _ _)
  | unpad bl =>
    change execUnpad bl s = _ at h
    unfold execUnpad at h
    split at h
    · next hp => exact validateStep_inv h hp fun hc => .unpadOk hp hc
    · next hp => cases h; exact .unpadStep hp
    · exact absurd h (offPath_ne_next _ _)
  | xor =>
    change execXor s = _ at h
    unfold execXor at h
    split at h
    · next hp => exact validateStep_inv h hp fun hc => .xorOk hp hc
    · next hp => cases h; exact .xorStep hp
    · exact absurd h (offPath_ne_next _ _)
  | cbcEnc =>
    change execCbcEnc s = _ at h
    unfold execCbcEnc at h
    split at h
    · next hp => exact validateStep_inv h hp fun hc => .encOk hp hc
    · next hp => cases h; exact .encPadStep hp
    · next hp => cases h; exact .encStep hp
    · exact absurd h (offPath_ne_next _ _)
  | cbcDec =>
    change execCbcDec s = _ at h
    unfold execCbcDec at h
    split at h
    · next hp => exact validateStep_inv h hp fun hc => .decOk hp hc
    · next hp => cases h; exact .decStep hp
    · next hp => cases h; exact .decUnpad hp
    · exact absurd h (offPath_ne_next _ _)

/-- An engine step changes neither CMD nor the parameters nor the model's own fields. -/
theorem exec_frame {i : Instr} {s t : State} (h : exec i s = .next t) :
    t.cmd = s.cmd ∧ t.config = s.config ∧ t.events = s.events ∧ t.resets = s.resets := by
  have hx := exec_inv h
  have hu : ∀ m, (s.unpadStep m).cmd = s.cmd ∧ (s.unpadStep m).config = s.config ∧
      (s.unpadStep m).events = s.events ∧ (s.unpadStep m).resets = s.resets := by
    intro m
    rcases State.unpadStep_cases s m with ⟨r, -, he⟩ | ⟨k, -, he⟩ <;> rw [he] <;> simp
  cases hx with
  | unpadStep _ => exact hu _
  | decUnpad _ => exact hu _
  | _ => simp

/-! ### Inversion of `step` -/

/-- The step of an illegal word answers a next state in VALIDATE only, and it is entry to FAILED. -/
theorem illegalStep_inv {s t : State} (h : illegalStep s = .next t) :
    s.phase = .validate ∧ t = s.raise .illegalCommand := by
  unfold illegalStep at h
  split at h
  · next hp => cases h; exact ⟨hp, rfl⟩
  · exact absurd h (offPath_ne_next _ _)

/-- Everything one event can do to a state `s` whose schedule entry has been taken off. -/
inductive EventStep : State → State → Prop where
  | command {s t : State} {i : Instr} (hb : s.busy = true) (hd : decode s.cmd = .ok i) (hx : exec i s = .next t) :
      EventStep s t
  | illegal {s : State} {e : DecodeError} (hp : s.phase = .validate) (hd : decode s.cmd = .error e) :
      EventStep s (s.raise .illegalCommand)
  | idle {s : State} (hb : s.busy = false) : EventStep s s

theorem engineTurn_inv {s t : State} (h : engineTurn s = .next t) : EventStep s t := by
  unfold engineTurn at h
  split at h
  · next hb =>
    unfold engineStep at h
    split at h
    · next hd => exact .command hb hd h
    · next hd =>
      obtain ⟨hp, rfl⟩ := illegalStep_inv h
      exact .illegal hp hd
  · next hb => cases h; exact .idle (by simpa using hb)

/-- The inversion lemma: a step is an engine turn or a host access, on the state without its schedule entry. -/
theorem step_inv {s t : State} (h : step s = .next t) :
    s.config.legal = true ∧
    ((s.events = [] ∧ EventStep s t) ∨
     (∃ rest, s.events = .engine :: rest ∧ EventStep { s with events := rest } t) ∨
     (∃ x rest, s.events = .host x :: rest ∧ t = ({ s with events := rest } : State).hostAccess x)) := by
  unfold step at h
  split at h
  · next hl =>
    refine ⟨hl, ?_⟩
    unfold nextEvent at h
    split at h
    · next he => exact .inl ⟨he, engineTurn_inv h⟩
    · next rest he => exact .inr (.inl ⟨rest, he, engineTurn_inv h⟩)
    · next x rest he => cases h; exact .inr (.inr ⟨x, rest, he, rfl⟩)
  · cases h

/-- A busy engine that the host leaves alone takes its engine step. -/
theorem step_alone {s : State} (hl : s.config.legal = true) (he : s.events = []) (hb : s.busy = true) :
    step s = engineStep s := by
  simp [step, hl, nextEvent, he, engineTurn, hb]

/-- With a decoded command, that step is `exec` of it. -/
theorem step_exec {s : State} {i : Instr} (hl : s.config.legal = true) (he : s.events = []) (hb : s.busy = true)
    (hd : decode s.cmd = .ok i) : step s = exec i s := by
  rw [step_alone hl he hb, engineStep, hd]

/-! ### Host accesses -/

theorem State.regWrite_busy {s : State} (h : s.busy = true) (off : Nat) (v : Word) : s.regWrite off v = s := by
  simp [State.regWrite, h]

theorem State.memWrite_busy {s : State} (h : s.busy = true) (space : Space) (addr : Nat) (v : Byte) :
    s.memWrite space addr v = s := by
  simp [State.memWrite, h]

theorem State.regWrite_cmd {s : State} (h : s.busy = false) (v : Word) : s.regWrite 0x00 v = s.commandStart v := by
  simp [State.regWrite, h]

/-- While busy the host changes nothing but by reset (R201). -/
theorem State.hostAccess_busy {s : State} (h : s.busy = true) {x : Access} (hx : x ≠ .reset) :
    s.hostAccess x = s := by
  cases x with
  | regRead off => rfl
  | regWrite off v => exact State.regWrite_busy h off v
  | memRead space addr => rfl
  | memWrite space addr v => exact State.memWrite_busy h space addr v
  | reset => exact absurd rfl hx

/-- Everything a register write can do. -/
theorem State.regWrite_cases (s : State) (off : Nat) (v : Word) :
    (s.busy = false ∧ off = 0x00 ∧ s.regWrite off v = s.commandStart v) ∨
    (s.busy = false ∧ off = 0x0C ∧ s.regWrite off v = { s with lenA := v }) ∨
    (s.busy = false ∧ off = 0x10 ∧ s.regWrite off v = { s with lenB := v }) ∨
    s.regWrite off v = s := by
  unfold State.regWrite
  split
  · exact .inr (.inr (.inr rfl))
  · next hb =>
    have hb' : s.busy = false := by simpa using hb
    split
    · exact .inl ⟨hb', rfl, rfl⟩
    · exact .inr (.inl ⟨hb', rfl, rfl⟩)
    · exact .inr (.inr (.inl ⟨hb', rfl, rfl⟩))
    · exact .inr (.inr (.inr rfl))

/-- Everything a buffer write can do. -/
theorem State.memWrite_cases (s : State) (space : Space) (addr : Nat) (v : Byte) :
    (s.busy = false ∧ addr < s.config.CAP ∧ space = .a ∧
      s.memWrite space addr v = { s with a := s.a.write addr v }) ∨
    (s.busy = false ∧ addr < s.config.CAP ∧ space = .b ∧
      s.memWrite space addr v = { s with b := s.b.write addr v }) ∨
    s.memWrite space addr v = s := by
  unfold State.memWrite
  split
  · exact .inr (.inr rfl)
  · next h =>
    simp only [not_or, Bool.not_eq_true, not_le] at h
    cases space with
    | a => exact .inl ⟨h.1, h.2, rfl, rfl⟩
    | b => exact .inr (.inl ⟨h.1, h.2, rfl, rfl⟩)
    | out => exact .inr (.inr rfl)

/-- STATUS by STATE (R28). -/
theorem State.statusWord_eq (s : State) : s.statusWord = match s.phase with
    | .idle => 0x0#32
    | .validate => 0x9#32
    | .pad => 0xA#32
    | .process => 0xB#32
    | .unpad => 0xC#32
    | .done => 0x5#32
    | .failed => 0x6#32 := by
  unfold State.statusWord
  cases s.phase <;> rfl

theorem State.errWord_toNat (s : State) : s.errWord.toNat = (errCode s.err).toNat := by
  have h := (errCode s.err).isLt
  simp only [State.errWord, BitVec.toNat_setWidth]
  omega

theorem State.errWord_none {s : State} (h : s.err = none) : s.errWord = 0 := by
  simp [State.errWord, h, errCode]

theorem State.errWord_some {s : State} {k : ErrorKind} (h : s.err = some k) : s.errWord = k.code.setWidth 32 := by
  simp [State.errWord, h, errCode]

@[simp] theorem State.regRead_status (s : State) : s.regRead 0x04 = s.statusWord := rfl
@[simp] theorem State.regRead_err (s : State) : s.regRead 0x08 = s.errWord := rfl
@[simp] theorem State.regRead_lenOut (s : State) : s.regRead 0x14 = s.lenOut := rfl

/-! ### Runs -/

@[simp] theorem runSteps_zero (s : State) : runSteps 0 s = .next s := rfl

theorem runSteps_succ {k : Nat} {s t : State} (h : step s = .next t) : runSteps (k + 1) s = runSteps k t := by
  simp [runSteps, h]

/-- A run in two parts. -/
theorem runSteps_add {j k : Nat} {s u : State} (h : runSteps j s = .next u) :
    runSteps (j + k) s = runSteps k u := by
  induction j generalizing s with
  | zero => cases h; simp
  | succ j ih =>
    rw [Nat.succ_add]
    simp only [runSteps] at h ⊢
    cases hs : step s with
    | next t => simp only [hs] at h ⊢; exact ih h
    | fault f => simp [hs] at h
    | refused r => simp [hs] at h

/-- A run is its first steps and then the rest. -/
theorem runSteps_split {j k : Nat} {s t : State} (h : runSteps (j + k) s = .next t) :
    ∃ u, runSteps j s = .next u ∧ runSteps k u = .next t := by
  induction j generalizing s with
  | zero => exact ⟨s, rfl, by simpa using h⟩
  | succ j ih =>
    rw [Nat.succ_add] at h
    simp only [runSteps] at h ⊢
    cases hs : step s with
    | next u => simp only [hs] at h ⊢; exact ih h
    | fault f => simp [hs] at h
    | refused r => simp [hs] at h

/-- An invariant that every step keeps holds along every run. -/
theorem runSteps_invariant {P : State → Prop} (hstep : ∀ s t, P s → step s = .next t → P t) {k : Nat}
    {s t : State} (hs : P s) (h : runSteps k s = .next t) : P t := by
  induction k generalizing s with
  | zero => cases h; exact hs
  | succ k ih =>
    simp only [runSteps] at h
    cases hx : step s with
    | next u => simp only [hx] at h; exact ih (hstep s u hs hx) h
    | fault f => simp [hx] at h
    | refused r => simp [hx] at h

/-- One step of `Host.Core.run`, unfolded. -/
theorem core_run_succ (M : Host.Core) (k : Nat) (s : M.State) :
    M.run (k + 1) s = match M.step s with
      | .next t => M.run k t
      | .fault f => .fault f
      | .refused r => .refused r := by
  rfl

/-- The run is `Host.Core.run` of the machine. -/
theorem runSteps_eq_core_run (k : Nat) (s : State) : runSteps k s = Host.Core.run Sys2Proof.core k s := by
  induction k generalizing s with
  | zero => rfl
  | succ k ih =>
    refine Eq.trans ?_ (core_run_succ Sys2Proof.core k s).symm
    have hc : Sys2Proof.core.step s = step s := rfl
    rw [hc]
    simp only [runSteps]
    cases step s with
    | next t => exact ih t
    | fault f => rfl
    | refused r => rfl

end Sys2Proof.Machine
end

