-- ==== Sys2Proof/Laws/PerInstr.lean ====
section
/-! SUPPORT. Statements made of every command as syntax, one lemma per constructor of `Instr`. -/

namespace Sys2Proof.Laws.TableRow

/-- A well-formed command's word has its opcode in OP and zeros in RSV (30_encoding.md R93, R96), and selects the
row of the opcode map that carries its mnemonic. -/
def Statement (i : Instr) : Prop :=
  i.wf = true →
    opField (encode i) = i.opcode ∧ rsvField (encode i) = 0 ∧
    ∃ r ∈ opcodeMap, r.mnemonic = i.mnemonic ∧ r.selects (encode i) = true

/-- `Statement` with its row found by search, so that it can be decided. -/
theorem statement_of_any {i : Instr}
    (h : (!i.wf || (opField (encode i) == i.opcode && rsvField (encode i) == 0 &&
      opcodeMap.any fun r => r.mnemonic == i.mnemonic && r.selects (encode i))) = true) : Statement i := by
  intro hw
  simp only [hw, Bool.not_true, Bool.false_or, Bool.and_eq_true, beq_iff_eq, List.any_eq_true] at h
  obtain ⟨⟨h1, h2⟩, r, hr, h3⟩ := h
  exact ⟨h1, h2, r, hr, h3⟩

theorem clear : Statement .clear := statement_of_any (by decide)

theorem pad (bl : BitVec 8) : Statement (.pad bl) := statement_of_any (by revert bl; decide)

theorem unpad (bl : BitVec 8) : Statement (.unpad bl) := statement_of_any (by revert bl; decide)

theorem xor : Statement .xor := statement_of_any (by decide)

theorem cbcEnc : Statement .cbcEnc := statement_of_any (by decide)

theorem cbcDec : Statement .cbcDec := statement_of_any (by decide)

end Sys2Proof.Laws.TableRow
end

