-- ==== Sys2Proof/Laws/Script.lean ====
section
/-! SUPPORT. Events in order, and the host scripts: a list of events run by `State.afterEvents` is the same list run as
a schedule by `step`, and the polling loop one read at a time. -/

namespace Sys2Proof.Machine

/-! ### The schedule is not read by the engine or by an access -/

theorem validateStep_withEvents {s passed : State} {checks : List Check} (es : List Event) :
    ({ s with events := es } : State).validateStep checks { passed with events := es } =
      { s.validateStep checks passed with events := es } := by
  unfold State.validateStep
  cases firstError checks <;> rfl

theorem unpadStep_withEvents (s : State) (m : Nat) (es : List Event) :
    ({ s with events := es } : State).unpadStep m = { s.unpadStep m with events := es } := by
  have hw : ({ s with events := es } : State).work = s.work := rfl
  unfold State.unpadStep
  rw [hw]
  cases unpad s.work m <;> rfl

/-- An engine step of a command does not read the schedule. -/
theorem exec_withEvents {i : Instr} {s t : State} (h : exec i s = .next t) (es : List Event) :
    exec i { s with events := es } = .next { t with events := es } := by
  have key : ∀ {checks : List Check} {passed : State},
      (.next (s.validateStep checks passed) : Host.Outcome State Fault Refusal) = .next t →
      (.next (({ s with events := es } : State).validateStep checks { passed with events := es }) :
        Host.Outcome State Fault Refusal) = .next { t with events := es } := by
    intro checks passed hv
    rw [validateStep_withEvents]
    cases hv
    rfl
  have keyU : ∀ {m : Nat}, (.next (s.unpadStep m) : Host.Outcome State Fault Refusal) = .next t →
      (.next (({ s with events := es } : State).unpadStep m) : Host.Outcome State Fault Refusal) =
        .next { t with events := es } := by
    intro m hv
    rw [unpadStep_withEvents]
    cases hv
    rfl
  cases i with
  | clear =>
    change execClear s = _ at h
    change execClear _ = _
    unfold execClear at h ⊢
    cases hp : s.phase <;> simp only [hp] at h ⊢ <;> first | exact key h | exact absurd h (offPath_ne_next _ _)
  | pad bl =>
    change execPad bl s = _ at h
    change execPad bl _ = _
    unfold execPad at h ⊢
    cases hp : s.phase <;> simp only [hp] at h ⊢ <;>
      first | exact key h | (cases h; rfl) | exact absurd h (offPath_ne_next _ _)
  | unpad bl =>
    change execUnpad bl s = _ at h
    change execUnpad bl _ = _
    unfold execUnpad at h ⊢
    cases hp : s.phase <;> simp only [hp] at h ⊢ <;>
      first | exact key h | exact keyU h | exact absurd h (offPath_ne_next _ _)
  | xor =>
    change execXor s = _ at h
    change execXor _ = _
    unfold execXor at h ⊢
    cases hp : s.phase <;> simp only [hp] at h ⊢ <;>
      first | exact key h | (cases h; rfl) | exact absurd h (offPath_ne_next _ _)
  | cbcEnc =>
    change execCbcEnc s = _ at h
    change execCbcEnc _ = _
    unfold execCbcEnc at h ⊢
    cases hp : s.phase <;> simp only [hp] at h ⊢ <;>
      first | exact key h | (cases h; rfl) | exact absurd h (offPath_ne_next _ _)
  | cbcDec =>
    change execCbcDec s = _ at h
    change execCbcDec _ = _
    unfold execCbcDec at h ⊢
    cases hp : s.phase <;> simp only [hp] at h ⊢ <;>
      first | exact key h | exact keyU h | (cases h; rfl) | exact absurd h (offPath_ne_next _ _)

/-- The engine's turn does not read the schedule. -/
theorem engineTurn_withEvents {s t : State} (h : engineTurn s = .next t) (es : List Event) :
    engineTurn { s with events := es } = .next { t with events := es } := by
  have hb : ({ s with events := es } : State).busy = s.busy := rfl
  unfold engineTurn at h ⊢
  rw [hb]
  split at h
  · next hbusy =>
    rw [if_pos hbusy]
    unfold engineStep at h ⊢
    change (match decode s.cmd with
      | .ok i => exec i _
      | .error _ => illegalStep _) = _
    cases hd : decode s.cmd with
    | ok i => simp only [hd] at h ⊢; exact exec_withEvents h es
    | error e =>
      simp only [hd] at h ⊢
      obtain ⟨hp, rfl⟩ := illegalStep_inv h
      have hp' : ({ s with events := es } : State).phase = .validate := hp
      unfold illegalStep
      rw [hp']
      rfl
  · next hidle =>
    rw [if_neg hidle]
    cases h
    rfl

/-- A host access does not read the schedule. -/
theorem hostAccess_withEvents (s : State) (x : Access) (es : List Event) :
    ({ s with events := es } : State).hostAccess x = { s.hostAccess x with events := es } := by
  have hb : ({ s with events := es } : State).busy = s.busy := rfl
  cases x with
  | regRead off => rfl
  | memRead space addr => rfl
  | reset => rfl
  | regWrite off v =>
    simp only [State.hostAccess, State.regWrite, hb]
    split
    · rfl
    · split <;> rfl
  | memWrite space addr v =>
    simp only [State.hostAccess, State.memWrite, hb]
    split
    · rfl
    · cases space <;> rfl

/-! ### The parameters stay -/

@[simp] theorem hostAccess_config (s : State) (x : Access) : (s.hostAccess x).config = s.config := by
  cases x with
  | regWrite off v =>
    rcases s.regWrite_cases off v with ⟨-, -, h⟩ | ⟨-, -, h⟩ | ⟨-, -, h⟩ | h <;> simp [State.hostAccess, h]
  | memWrite space addr v =>
    rcases s.memWrite_cases space addr v with ⟨-, -, -, h⟩ | ⟨-, -, -, h⟩ | h <;> simp [State.hostAccess, h]
  | _ => rfl

theorem engineTurn_config {s t : State} (h : engineTurn s = .next t) : t.config = s.config := by
  rcases engineTurn_inv h with ⟨-, -, hx⟩ | _ | _
  · exact (exec_frame hx).2.1
  · rfl
  · rfl

/-! ### Events in order -/

@[simp] theorem State.afterEvents_nil (s : State) : s.afterEvents [] = .next s := rfl

@[simp] theorem State.afterEvents_host (s : State) (x : Access) (es : List Event) :
    s.afterEvents (.host x :: es) = (s.hostAccess x).afterEvents es := rfl

theorem State.afterEvents_engine {s t : State} (h : engineTurn s = .next t) (es : List Event) :
    s.afterEvents (.engine :: es) = t.afterEvents es := by
  simp [State.afterEvents, h]

/-- Events in two parts. -/
theorem State.afterEvents_append {s t : State} {es : List Event} (h : s.afterEvents es = .next t)
    (fs : List Event) : s.afterEvents (es ++ fs) = t.afterEvents fs := by
  induction es generalizing s with
  | nil => cases h; rfl
  | cons e es ih =>
    cases e with
    | host x => exact ih h
    | engine =>
      simp only [State.afterEvents, List.cons_append] at h ⊢
      cases ht : engineTurn s with
      | next u => simp only [ht] at h ⊢; exact ih h
      | fault f => simp [ht] at h
      | refused r => simp [ht] at h

/-- A list of events is the same list as a schedule: the run uses it up and ends in the same state. -/
theorem runSteps_schedule {s t : State} {es : List Event} (hl : s.config.legal = true)
    (h : s.afterEvents es = .next t) (fs : List Event) :
    runSteps es.length { s with events := es ++ fs } = .next { t with events := fs } := by
  induction es generalizing s with
  | nil => cases h; rfl
  | cons e es ih =>
    cases e with
    | host x =>
      have hs : step { s with events := .host x :: (es ++ fs) } =
          .next { s.hostAccess x with events := es ++ fs } := by
        rw [← hostAccess_withEvents]
        simp [step, hl, nextEvent]
      rw [List.length_cons, List.cons_append, runSteps_succ hs]
      exact ih (by simpa using hl) h
    | engine =>
      simp only [State.afterEvents] at h
      cases ht : engineTurn s with
      | next u =>
        simp only [ht] at h
        have hs : step { s with events := .engine :: (es ++ fs) } = .next { u with events := es ++ fs } := by
          simp only [step, hl, nextEvent, if_true]
          exact engineTurn_withEvents ht (es ++ fs)
        rw [List.length_cons, List.cons_append, runSteps_succ hs]
        exact ih (by rw [engineTurn_config ht]; exact hl) h
      | fault f => simp [ht] at h
      | refused r => simp [ht] at h

/-! ### The lengths that SETA and SETB write (R102, R103) -/

/-- A length that a 32-bit register can hold is written as it is. -/
theorem lengthWord_toNat {h : Bytes} (hh : h.length < 2 ^ 32) : (lengthWord h).toNat = h.length := by
  rw [lengthWord, BitVec.toNat_ofNat]
  omega

/-- A string longer than a legal CAP gets a length above CAP, of whatever length it is. -/
theorem lt_lengthWord {c : Config} (hc : c.legal = true) {h : Bytes} (hh : c.CAP < h.length) :
    c.CAP < (lengthWord h).toNat := by
  have hcap : c.CAP < 2 ^ 31 := by simp [Config.legal] at hc; omega
  rw [lengthWord, BitVec.toNat_ofNat]
  omega

/-! ### The polling loop (R102) -/

/-- Bit 3 of STATUS is BUSY (R25, R28). -/
theorem State.statusWord_busy (s : State) : s.statusWord.getLsbD 3 = s.busy := by
  rw [State.statusWord_eq, State.busy]
  cases s.phase <;> rfl

/-- The loop's test is quiescence. -/
theorem pollEnds_status (s : State) : pollEnds (s.regRead 0x04) = !s.busy := by
  rw [State.regRead_status, pollEnds, State.statusWord_busy]

/-- One read of the loop: the turns before it, the read, and the rest of the loop when it shows BUSY = 1. -/
theorem pollLoop_cons {s u : State} {turns : Nat} (h : s.afterEvents (List.replicate turns .engine) = .next u)
    (pace : List Nat) :
    pollLoop (turns :: pace) s =
      if u.busy then (pollLoop pace u).map (pollOnce turns ++ ·) else some (pollOnce turns) := by
  simp only [pollLoop, h, pollEnds_status]
  cases u.busy <;> rfl

/-- Everything the loop can do: it ends with a read, and that read shows BUSY = 0. -/
theorem pollLoop_some {pace : List Nat} {s : State} {es : List Event} (h : pollLoop pace s = some es) :
    ∃ pre u, es = pre ++ [.host (.regRead 0x04)] ∧ s.afterEvents pre = .next u ∧ u.busy = false := by
  induction pace generalizing s es with
  | nil => cases h
  | cons turns pace ih =>
    cases ht : s.afterEvents (List.replicate turns .engine) with
    | fault f => simp [pollLoop, ht] at h
    | refused r => simp [pollLoop, ht] at h
    | next u =>
      rw [pollLoop_cons ht] at h
      cases hb : u.busy with
      | false =>
        simp only [hb, Bool.false_eq_true, if_false, Option.some.injEq] at h
        exact ⟨_, u, h.symm, ht, hb⟩
      | true =>
        simp only [hb, if_true, Option.map_eq_some_iff] at h
        obtain ⟨fs, hfs, rfl⟩ := h
        obtain ⟨pre, v, rfl, hv, hvb⟩ := ih hfs
        refine ⟨pollOnce turns ++ pre, v, (List.append_assoc ..).symm, ?_, hvb⟩
        have hone : s.afterEvents (pollOnce turns) = .next u := by
          rw [pollOnce, State.afterEvents_append ht]
          rfl
        rw [State.afterEvents_append hone, hv]

/-- A RUN that has ended leaves the engine quiescent, so what comes next in the script starts from there. -/
theorem scriptRunWord_some {w : Word} {pace : List Nat} {s : State} {es : List Event}
    (h : scriptRunWord w pace s = some es) :
    ∃ t, s.afterEvents es = .next t ∧ t.busy = false ∧ es.getLast? = some (.host (.regRead 0x04)) := by
  simp only [scriptRunWord, pollSchedule, Option.map_eq_some_iff] at h
  obtain ⟨fs, hfs, rfl⟩ := h
  obtain ⟨pre, u, rfl, hu, hb⟩ := pollLoop_some hfs
  refine ⟨u, State.afterEvents_append (s := s) (es := .host (.regWrite 0x00 w) :: pre) hu _, hb, ?_⟩
  rw [← List.cons_append, List.getLast?_concat]

/-- A script one pseudo-instruction at a time. -/
theorem scriptSchedule_cons {p : Pseudo} {s t : State} {es : List Event} {paces : List (List Nat)}
    (hp : p.schedule (paces.headD []) s = some es) (ht : s.afterEvents es = .next t) (ps : List Pseudo) :
    scriptSchedule paces (p :: ps) s = (scriptSchedule paces.tail ps t).map (es ++ ·) := by
  simp only [scriptSchedule, hp, ht]

end Sys2Proof.Machine
end

