-- ==== Sys2Proof/Tests/Slice0.lean ====
section
/-! SUPPORT. The model's own tests: the WellFormed smoke tests, words written out bit by bit, single steps whose
results are the vectors of spec/95_test_vectors.md, and for every statement with hypotheses a witness that meets
them. -/

namespace Sys2Proof.Tests

open Sys2Proof.Machine

/-! ### WellFormed refuses the ill-formed (R96, R97) -/

theorem test_wf_pad_zero : Instr.wf (.pad 0) = false := by decide
theorem test_wf_unpad_zero : Instr.wf (.unpad 0) = false := by decide
theorem test_wf_pad_255 : Instr.wf (.pad 255) = true := by decide

/-! ### Words written out from R91, R92, R93, R96: RSV, BL, OP -/

theorem test_decode_clear : decode 0b0000000000000000_00000000_00000000#32 = .ok .clear := by decide
theorem test_decode_pad : decode 0b0000000000000000_00010000_00000001#32 = .ok (.pad 16) := by decide
theorem test_decode_pad_high : decode 0b0000000000000000_11111111_00000001#32 = .ok (.pad 255) := by decide
theorem test_decode_unpad : decode 0b0000000000000000_00000100_00000010#32 = .ok (.unpad 4) := by decide
theorem test_decode_unpad_high : decode 0b0000000000000000_10000001_00000010#32 = .ok (.unpad 129) := by decide
theorem test_decode_xor : decode 0b0000000000000000_00000000_00000011#32 = .ok .xor := by decide
theorem test_decode_cbcEnc : decode 0b0000000000000000_00000000_00000100#32 = .ok .cbcEnc := by decide
theorem test_decode_cbcDec : decode 0b0000000000000000_00000000_00000101#32 = .ok .cbcDec := by decide

/-- F1 to F5 of 95_test_vectors.md, by the name of what is wrong, and two words at the ends of the ranges. -/
theorem test_decode_illegal :
    decode 0x00000006#32 = .error .unassignedOpcode ∧ decode 0x000000FF#32 = .error .unassignedOpcode ∧
    decode 0x00010004#32 = .error .reservedBitsSet ∧ decode 0x80000001#32 = .error .reservedBitsSet ∧
    decode 0x00001004#32 = .error .blockLengthNotZero ∧ decode 0x00000001#32 = .error .blockLengthZero ∧
    decode 0x00000100#32 = .error .blockLengthNotZero := by decide

theorem test_decodeTableWord : decodeTableWord 32 0x00000801 = some (.pad 8) := by decide

/-! ### Small states: L = 4, CAP = 31, the engine of 95_test_vectors.md -/

/-- L = 4, CAP = 31 (the smallest legal CAP), with one of the three test ciphers. -/
def testConfig (c : Cipher) : Config where
  L := 4
  CAP := 31
  cipher := c

/-- An engine in STATE `p` with command word `w` in CMD, and `a` and `b` as its operands. -/
def testState (c : Cipher) (p : Phase) (w : Word) (a b : Bytes) : State :=
  { State.resetWith (testConfig c) 0 [] with
    phase := p
    cmd := w
    lenA := BitVec.ofNat 32 a.length
    lenB := BitVec.ofNat 32 b.length
    a := Memory.zeros.writeBytes 0 a
    b := Memory.zeros.writeBytes 0 b }

/-- Whether an outcome is a next state with the property. -/
def nextHas (o : Host.Outcome State Fault Refusal) (p : State → Bool) : Bool :=
  match o with
  | .next t => p t
  | _ => false

/-- The plaintext and IV of vector E5 and its ciphertext under INC. -/
def plainE5 : Bytes := [1, 2, 3, 4, 5]
def ivE5 : Bytes := [0xa0, 0xb0, 0xc0, 0xd0]
def cipherE5 : Bytes := [0xa2, 0xb3, 0xc4, 0xd5, 0xa8, 0xb1, 0xc8, 0xd7]

/-- Program P1: the encryption before its VALIDATE step, its PAD step, its second PROCESS step, and after the end. -/
def encStart : State := testState .inc .validate 0x00000004#32 plainE5 ivE5
def encPad : State := { encStart with phase := .pad, chain := ivE5 }
def encMid : State :=
  { testState .inc .process 0x00000004#32 plainE5 ivE5 with
    w := Memory.zeros.writeBytes 0 [0xa2, 0xb3, 0xc4, 0xd5, 5, 3, 3, 3]
    wlen := 8
    chain := [0xa2, 0xb3, 0xc4, 0xd5]
    idx := 1
    nblk := 2 }
def encDone : State :=
  { encMid with
    w := Memory.zeros.writeBytes 0 cipherE5, chain := [0xa8, 0xb1, 0xc8, 0xd7], idx := 2, lenOut := 8, phase := .done }

/-- Program P1: the decryption before its VALIDATE step, its second PROCESS step, its UNPAD step. -/
def decStart : State := testState .inc .validate 0x00000005#32 cipherE5 ivE5
def decMid : State :=
  { testState .inc .process 0x00000005#32 cipherE5 ivE5 with
    w := Memory.zeros.writeBytes 0 [1, 2, 3, 4]
    wlen := 8
    chain := [0xa2, 0xb3, 0xc4, 0xd5]
    idx := 1
    nblk := 2 }
def decUnpad : State :=
  { decMid with
    w := Memory.zeros.writeBytes 0 [1, 2, 3, 4, 5, 3, 3, 3], chain := [0xa8, 0xb1, 0xc8, 0xd7], idx := 2, phase := .unpad }

/-- Program P2: the engine that has failed. -/
def decFailed : State := decUnpad.raise .padding

/-- A quiescent engine with E5's operands. -/
def ready : State := testState .inc .idle 0 plainE5 ivE5

/-! ### Single steps -/

/-- P2, the trace of CLEAR. -/
theorem test_clear :
    nextHas (step (testState .ident .validate 0x00000000#32 cipherE5 ivE5))
      (fun t => t.phase == .idle && t.lenA == 0 && t.a == Memory.zeros && t.b == Memory.zeros) = true := by decide

/-- V4. -/
theorem test_pad :
    nextHas (step (testState .ident .pad 0x00000401#32 plainE5 []))
      (fun t => t.phase == .done && t.getOut == [1, 2, 3, 4, 5, 3, 3, 3]) = true := by decide

/-- F13: 28 bytes would pad to 32. -/
theorem test_pad_capacity :
    nextHas (step (testState .ident .validate 0x00000401#32 (List.replicate 28 0) []))
      (fun t => t.regRead 0x08 == 7 && t.phase == .failed) = true := by decide

/-- U3. -/
theorem test_unpad :
    nextHas (step { testState .ident .unpad 0x00000402#32 [] [] with
        w := Memory.zeros.writeBytes 0 [1, 2, 3, 4, 5, 3, 3, 3], wlen := 8 })
      (fun t => t.phase == .done && t.getOut == plainE5) = true := by decide

/-- U14: all `n` trailing bytes are checked. -/
theorem test_unpad_padding :
    nextHas (step { testState .ident .unpad 0x00000402#32 [] [] with
        w := Memory.zeros.writeBytes 0 [1, 3, 2, 3], wlen := 4 })
      (fun t => t.regRead 0x04 == 6 && t.regRead 0x08 == 5 && t.w == Memory.zeros) = true := by decide

/-- X1. -/
theorem test_xor :
    nextHas (step (testState .ident .process 0x00000003#32 [0x61, 0x62, 0x63, 0x64] [0x10, 0x10, 0x10, 0x10]))
      (fun t => t.phase == .done && t.getOut == [0x71, 0x72, 0x73, 0x74]) = true := by decide

/-- X5. -/
theorem test_xor_mismatch :
    nextHas (step (testState .ident .validate 0x00000003#32 [1, 2] [1])) (fun t => t.regRead 0x08 == 4) = true := by
  decide

/-- P1, the last step of the encryption. -/
theorem test_cbcEnc :
    nextHas (step encMid)
      (fun t => t.phase == .done && t.idx == 2 && t.chain == [0xa8, 0xb1, 0xc8, 0xd7] && t.getOut == cipherE5) = true := by
  decide

/-- E2 with ROT, which tells XOR before the cipher from XOR after it. -/
theorem test_cbcEnc_rot :
    nextHas (step { testState .rot .process 0x00000004#32 [1] ivE5 with
        w := Memory.zeros.writeBytes 0 [1, 3, 3, 3], wlen := 4, chain := ivE5, nblk := 1 })
      (fun t => t.getOut == [0xb4, 0xc4, 0xd4, 0xa2]) = true := by decide

/-- P1, the second PROCESS step of the decryption: CHAIN takes the ciphertext block. -/
theorem test_cbcDec :
    nextHas (step decMid)
      (fun t => t.phase == .unpad && t.chain == [0xa8, 0xb1, 0xc8, 0xd7] && t.work == [1, 2, 3, 4, 5, 3, 3, 3]) = true := by
  decide

/-- F11: the IV is checked before the ciphertext's length, and no block is processed. -/
theorem test_cbcDec_order :
    nextHas (step (testState .ident .validate 0x00000005#32 [1] [0xa0]))
      (fun t => t.regRead 0x08 == 3 && t.nblk == 0) = true := by decide

/-- F20: check 2 before check 5. -/
theorem test_check_order :
    nextHas (step { testState .ident .validate 0x00000004#32 [] [] with lenA := 99, lenB := 3 })
      (fun t => t.regRead 0x08 == 7) = true := by decide

/-- G1, G2, G8: the window is shut until DONE and ends at LEN_OUT. -/
theorem test_window :
    encMid.memRead .out 0 = 0 ∧ encMid.regRead 0x14 = 0 ∧ encDone.memRead .out 7 = 0xd7 ∧ encDone.memRead .out 8 = 0 := by
  decide

/-- G3 to G5: host writes while busy are dropped. -/
theorem test_busy_writes :
    encMid.hostAccess (.memWrite .a 0 0xee) = encMid ∧ encMid.hostAccess (.regWrite 0x0C 0) = encMid ∧
    encMid.hostAccess (.regWrite 0x00 0) = encMid := by decide

/-- R45: the buffers of the reset state are in canonical form. -/
theorem test_reset_memories_wf : State.reset.a.wf = true ∧ State.reset.b.wf = true ∧ State.reset.w.wf = true := by decide

/-- A command placed after reset is the next thing to run. -/
theorem test_withFetchWord :
    step (State.reset.withFetchWord 32 0x00000003) = execXor (State.reset.withFetchWord 32 0x00000003) := rfl

/-! ### Witnesses: the hypotheses of each statement, met together -/

theorem witness_DecodeEncodeRoundTrip :
    Instr.wf (.pad 1) = true ∧ Instr.wf (.unpad 255) = true ∧ Instr.wf .cbcDec = true ∧
    decode 0x0000FF01#32 = .ok (.pad 255) ∧ decode 0x00000102#32 = .ok (.unpad 1) := by decide

theorem witness_IllegalWordsExactly :
    ready.busy = false ∧ decode 0x00000006#32 = .error .unassignedOpcode ∧
    (testState .ident .validate 0x00000006#32 [] []).phase = .validate ∧
    decode (testState .ident .validate 0x00000006#32 [] []).cmd = .error .unassignedOpcode := by decide

theorem witness_OpcodeMapIsTheDecoder :
    decode 0x00000101#32 = .ok (.pad 1) ∧ decode 0x00000001#32 = .error .blockLengthZero := by decide

theorem witness_StepRunsDecodedCommand :
    encMid.config.legal = true ∧ encMid.busy = true ∧ decode encMid.cmd = .ok .cbcEnc ∧ encMid.events = [] ∧
    ({ encMid with events := [.engine] } : State).events = .engine :: [] := by decide

theorem witness_PlacedWordRunsNext :
    encMid.config.legal = true ∧ 0x00000801 < 2 ^ 32 ∧ decodeTableWord 32 0x00000801 = some (.pad 8) := by decide

theorem witness_HostAccessesAndIdleTurns :
    ready.busy = false ∧ ready.config.legal = true ∧ ready.events = [] ∧
    ({ ready with events := [.engine] } : State).events = .engine :: [] ∧
    ({ encMid with events := [.host .reset] } : State).events = .host .reset :: [] := by decide

/-- The four ends of the ranges of R6, each just outside. -/
theorem witness_IllegalParametersRefused :
    (¬ (1 ≤ 0 ∧ 0 ≤ 255 ∧ 6 * 0 + 7 ≤ 31 ∧ 31 < 2 ^ 31)) ∧ (¬ (1 ≤ 256 ∧ 256 ≤ 255 ∧ 6 * 256 + 7 ≤ 4096 ∧ 4096 < 2 ^ 31)) ∧
    (¬ (1 ≤ 4 ∧ 4 ≤ 255 ∧ 6 * 4 + 7 ≤ 30 ∧ 30 < 2 ^ 31)) ∧
    (¬ (1 ≤ 4 ∧ 4 ≤ 255 ∧ 6 * 4 + 7 ≤ 2147483648 ∧ 2147483648 < 2 ^ 31)) ∧
    nextHas (step encMid) (fun _ => true) = true := by decide

theorem witness_CommandStart : decFailed.busy = false ∧ encDone.busy = false ∧ encMid.busy = true := by decide

theorem witness_LengthRegistersTakeAnyValue : encDone.busy = false ∧ encDone.lenOut = 8 := by decide

theorem witness_DroppedWrites :
    encMid.busy = true ∧ 0x14 ≠ 0x00 ∧ 0x14 ≠ 0x0C ∧ 0x14 ≠ 0x10 ∧ ready.config.CAP ≤ 31 := by decide

/-- The lowest and the highest address. -/
theorem witness_BufferWriteStoresOneByte :
    ready.busy = false ∧ 0 < ready.config.CAP ∧ 30 < ready.config.CAP ∧ encMid.busy = true ∧ ready.config.CAP ≤ 31 := by
  decide

/-- G8: the last byte that shows, the first that does not. -/
theorem witness_ReadsAnswerAndChangeNothing :
    encDone.phase = .done ∧ 7 < encDone.lenOut.toNat ∧ 7 < encDone.config.CAP ∧ encDone.lenOut.toNat ≤ 8 ∧
    encMid.phase ≠ .done ∧ encDone.config.CAP ≤ 31 := by decide

theorem witness_RegisterMap : ready.config.legal = true ∧ 0x01 % 4 ≠ 0 ∧ 0x28 ≤ 0x28 := by decide

theorem witness_ValidateRaisesFirstFailingCheck :
    (testState .ident .validate 0x00000001#32 [] []).phase = .validate ∧
    decode (testState .ident .validate 0x00000001#32 [] []).cmd = .error .blockLengthZero ∧
    (testState .ident .validate 0x00000005#32 [1] [0xa0]).phase = .validate ∧
    decode (testState .ident .validate 0x00000005#32 [1] [0xa0]).cmd = .ok .cbcDec ∧
    validateError .cbcDec (testState .ident .validate 0x00000005#32 [1] [0xa0]) = some .invalidLength ∧
    encStart.phase = .validate ∧ decode encStart.cmd = .ok .cbcEnc ∧ validateError .cbcEnc encStart = none := by decide

theorem witness_ClearCompletes : (testState .ident .validate 0 plainE5 ivE5).phase = .validate := by decide

/-- 27 bytes pad to 28, the most that a block length of 4 fits (V10). -/
theorem witness_PadderValidateCompletes :
    (testState .ident .validate 0x00000401#32 (List.replicate 27 0) []).phase = .validate ∧ (4 : BitVec 8) ≠ 0 ∧
    (testState .ident .validate 0x00000401#32 (List.replicate 27 0) []).lenA.toNat ≤ 31 ∧
    27 + ((4 : BitVec 8).toNat - 27 % (4 : BitVec 8).toNat) ≤ 31 := by decide

theorem witness_PadStepCompletes :
    (testState .ident .pad 0x00000401#32 (List.replicate 27 0) []).config.legal = true ∧
    (testState .ident .pad 0x00000401#32 (List.replicate 27 0) []).phase = .pad ∧ (4 : BitVec 8) ≠ 0 ∧
    1 = (4 : BitVec 8).toNat -
      (testState .ident .pad 0x00000401#32 (List.replicate 27 0) []).lenA.toNat % (4 : BitVec 8).toNat ∧
    (testState .ident .pad 0x00000401#32 (List.replicate 27 0) []).lenA.toNat + 1 ≤ 31 := by decide

/-- The bytes of an `Ok` answer. -/
def okBytes (e : Except ErrorKind Bytes) : Option Bytes := e.toOption

/-- The kind of an `Err` answer. -/
def errKind (e : Except ErrorKind Bytes) : Option ErrorKind :=
  match e with
  | .ok _ => none
  | .error k => some k

theorem witness_UnpadStepCompletes :
    decUnpad.phase = .unpad ∧ okBytes (unpad (decUnpad.w.readBytes 0 decUnpad.wlen.toNat) decUnpad.config.L) = some plainE5 ∧
    ({ decUnpad with wlen := 4 } : State).phase = .unpad ∧
    errKind (unpad (decUnpad.w.readBytes 0 4) ((3 : BitVec 8).toNat)) = some .invalidLength ∧
    errKind (unpad (decUnpad.w.readBytes 0 7) ((7 : BitVec 8).toNat)) = some .padding := by decide

theorem witness_XorCompletes :
    (testState .ident .validate 0x00000003#32 [1] [2]).phase = .validate ∧
    (testState .ident .validate 0x00000003#32 [1] [2]).lenB = (testState .ident .validate 0x00000003#32 [1] [2]).lenA ∧
    (testState .ident .validate 0x00000003#32 [1, 2] [1]).lenB ≠ (testState .ident .validate 0x00000003#32 [1, 2] [1]).lenA ∧
    (testState .ident .validate 0x00000003#32 [1, 2] [1]).lenA.toNat ≤ 31 ∧
    (testState .ident .process 0x00000003#32 [1] [2]).phase = .process := by decide

theorem witness_EncValidateCompletes :
    encStart.phase = .validate ∧ encStart.lenB.toNat ≤ encStart.config.CAP ∧ encStart.lenB.toNat = encStart.config.L ∧
    encStart.lenA.toNat + (encStart.config.L - encStart.lenA.toNat % encStart.config.L) ≤ encStart.config.CAP := by decide

theorem witness_EncPadStepCompletes :
    encPad.config.legal = true ∧ encPad.phase = .pad ∧ 3 = encPad.config.L - encPad.lenA.toNat % encPad.config.L ∧
    encPad.lenA.toNat + 3 ≤ encPad.config.CAP := by decide

/-- The last block, and (with NBLK = 3) one that is not the last. -/
theorem witness_EncProcessStepCompletes :
    encMid.phase = .process ∧ encMid.chain.length = encMid.config.L ∧ 1 = encMid.idx.toNat ∧ 1 < encMid.nblk.toNat ∧
    [0xa7#8, 0xb0#8, 0xc7#8, 0xd6#8].length = encMid.config.L ∧
    (∀ j, j < encMid.config.L → [0xa7#8, 0xb0#8, 0xc7#8, 0xd6#8].getD j 0 =
      encMid.chain.getD j 0 ^^^ encMid.w.read (1 * encMid.config.L + j)) ∧
    1 + 1 = encMid.nblk.toNat ∧ 1 + 1 ≠ ({ encMid with nblk := 3 } : State).nblk.toNat := by decide

theorem witness_DecValidateCompletes :
    decStart.phase = .validate ∧ decStart.lenA.toNat ≤ decStart.config.CAP ∧ decStart.lenB.toNat ≤ decStart.config.CAP ∧
    decStart.lenB.toNat = decStart.config.L ∧ decStart.lenA.toNat % decStart.config.L = 0 ∧ 0 < decStart.lenA.toNat ∧
    ({ decStart with lenA := 0 } : State).lenA.toNat = 0 := by decide

theorem witness_DecProcessStepCompletes :
    decMid.phase = .process ∧ decMid.chain.length = decMid.config.L ∧ 1 = decMid.idx.toNat ∧ 1 < decMid.nblk.toNat ∧
    [0xa8#8, 0xb1#8, 0xc8#8, 0xd7#8].length = decMid.config.L ∧
    (∀ j, j < decMid.config.L → [0xa8#8, 0xb1#8, 0xc8#8, 0xd7#8].getD j 0 =
      decMid.a.read (1 * decMid.config.L + j)) ∧
    1 + 1 = decMid.nblk.toNat ∧ 1 + 1 ≠ ({ decMid with nblk := 3 } : State).nblk.toNat := by decide

theorem witness_OnlyClearWritesOperands : nextHas (exec .cbcEnc encMid) (fun _ => true) = true ∧ Instr.cbcEnc ≠ .clear := by
  decide

theorem witness_CipherlessCommandsLeaveChainAndCounters :
    Instr.xor ≠ .cbcEnc ∧ Instr.xor ≠ .cbcDec ∧
    nextHas (exec .xor (testState .ident .process 0x00000003#32 [1] [2])) (fun _ => true) = true := by decide

theorem witness_OperandsStableWhileBusy :
    encMid.busy = true ∧ decode encMid.cmd ≠ .ok .clear ∧ encMid.events = [] ∧
    nextHas (step encMid) (fun _ => true) = true := by decide

theorem witness_CipherErrorsNeverRaised :
    decUnpad.err ≠ some .invalidKeyLength ∧ decUnpad.err ≠ some .invalidBlockLength ∧
    nextHas (step decUnpad) (fun _ => true) = true := by decide

theorem witness_PortBlocksHaveLengthL :
    encMid.chain.length = encMid.config.L ∧ enginePortCall encMid = some (.encrypt [0xa7, 0xb0, 0xc7, 0xd6]) ∧
    enginePortCall decMid = some (.decrypt [0xa8, 0xb1, 0xc8, 0xd7]) := by decide

/-! The invariant holds in states of every kind: of the runs of P1 and P2. -/

theorem tail_of_within {m : Memory} {n : Nat} (hf : m.fill = .zero) (h : m.within n = true) :
    ∀ addr, n ≤ addr → m.read addr = 0 := by
  intro addr ha
  rw [Memory.read_of_within h ha, hf]
  rfl

theorem witness_engineInv_encStart : EngineInv encStart := by
  refine ⟨by decide, ⟨by decide, by decide, by decide, fun h => absurd h (by decide), by decide, by decide, by decide⟩,
    ⟨rfl, rfl, rfl⟩, ⟨by decide, by decide, by decide, by decide, by decide, by decide, by decide,
      tail_of_within rfl (by decide), by decide⟩⟩

theorem witness_engineInv_encPad : EngineInv encPad := by
  refine ⟨by decide, ⟨by decide, by decide, by decide, fun h => absurd h (by decide), by decide, by decide, by decide⟩,
    ⟨rfl, rfl, rfl, .inr ⟨by decide, by decide, by decide⟩⟩, ⟨by decide, by decide, by decide, by decide, by decide,
      by decide, by decide, tail_of_within rfl (by decide), by decide⟩⟩

theorem witness_engineInv_encMid : EngineInv encMid := by
  refine ⟨by decide, ⟨by decide, by decide, by decide, fun h => absurd h (by decide), by decide, by decide, by decide⟩,
    .inr (.inl ⟨by decide, by decide, by decide⟩), ⟨by decide, by decide, by decide, by decide, by decide,
      by decide, by decide, tail_of_within rfl (by decide), by decide⟩⟩

theorem witness_engineInv_encDone : EngineInv encDone := by
  refine ⟨by decide, ⟨by decide, by decide, by decide, fun h => absurd h (by decide), by decide, by decide, by decide⟩,
    trivial, ⟨by decide, by decide, by decide, by decide, by decide,
      by decide, by decide, tail_of_within rfl (by decide), by decide⟩⟩

theorem witness_engineInv_decMid : EngineInv decMid := by
  refine ⟨by decide, ⟨by decide, by decide, by decide, fun h => absurd h (by decide), by decide, by decide, by decide⟩,
    .inr (.inr ⟨by decide, by decide, by decide⟩), ⟨by decide, by decide, by decide, by decide, by decide,
      by decide, by decide, tail_of_within rfl (by decide), by decide⟩⟩

theorem witness_engineInv_decUnpad : EngineInv decUnpad := by
  refine ⟨by decide, ⟨by decide, by decide, by decide, fun h => absurd h (by decide), by decide, by decide, by decide⟩,
    .inr ⟨by decide, by decide, by decide, by decide, by decide⟩, ⟨by decide, by decide, by decide, by decide, by decide,
      by decide, by decide, tail_of_within rfl (by decide), by decide⟩⟩

theorem witness_engineInv_decFailed : EngineInv decFailed := by
  refine ⟨by decide, ⟨by decide, by decide, by decide, fun _ => ⟨rfl, fun _ => rfl, rfl⟩, by decide, by decide, by decide⟩,
    trivial, ⟨by decide, by decide, by decide, by decide, by decide,
      by decide, by decide, fun _ _ => rfl, by decide⟩⟩

/-- With the invariant of `encMid` and the others above: every premise of TransitionRelation, NoPartialOutput,
StepKeepsInvariant, StepNeverStops and EveryCommandEnds, for an engine turn and for a host access. -/
theorem witness_steps_of_engineInv :
    nextHas (step encMid) (fun t => t.phase == .done) = true ∧ nextHas (step decMid) (fun t => t.phase != .done) = true ∧
    nextHas (step { encMid with events := [.host (.regRead 0x04)] }) (fun t => t.phase != .done) = true ∧
    encMid.events = [] := by decide

theorem witness_ResetMeetsInvariant : (testConfig .rot).legal = true ∧ Config.standard.legal = true := by decide

theorem witness_StateLawsHoldAlways :
    (testConfig .inc).legal = true ∧
    nextHas (runSteps 2 (State.resetWith (testConfig .inc) 0 [.host (.regWrite 0x00 0x00000003#32), .engine]))
      (fun t => t.phase == .process) = true := by decide

/-- Two engine turns with host writes between them, the last block of a decryption and its UNPAD step. -/
theorem witness_ScheduleIndependence :
    decMid.config.legal = true ∧
    Event.host .reset ∉ [Event.host (.regWrite 0x00 0), .engine, .host (.memWrite .a 0 9), .engine] ∧
    [Event.host (.regWrite 0x00 0), .engine, .host (.memWrite .a 0 9), .engine].getLast? = some .engine ∧
    engineTurns [Event.host (.regWrite 0x00 0), .engine, .host (.memWrite .a 0 9), .engine] = 2 ∧
    nextHas (runSteps 0 { decMid with events := [] }) (fun t => t.busy) = true ∧
    nextHas (runSteps 1 { decMid with events := [] }) (fun t => t.busy) = true ∧
    nextHas (runSteps 2 { decMid with events := [] }) (fun t => t.phase == .done) = true := by decide

/-- Buffers that differ from those of `decMid` from LEN_A and LEN_B on. -/
theorem witness_UnwrittenBytesDoNotMatter :
    decode decMid.cmd = .ok .cbcDec ∧ (∀ addr, addr < decMid.lenA.toNat → (decMid.a.write 8 0xee).read addr = decMid.a.read addr) ∧
    (∀ addr, addr < decMid.lenB.toNat → (decMid.b.write 4 0xee).read addr = decMid.b.read addr) ∧
    nextHas (exec .cbcDec decMid) (fun _ => true) = true := by decide

/-- Two decryptions that fail alike, on different bytes. -/
theorem witness_UnfinishedOrFailedRevealsNoData :
    nextHas (runSteps 3 ({ testState .ident .idle 0 [1, 2, 3, 4] ivE5 with cmd := 7 }.regWrite 0x00 0x00000005#32))
      (fun t => t.phase == .failed) = true ∧
    nextHas (runSteps 3 ({ testState .ident .idle 0 [1, 2, 3, 4] ivE5 with
        cmd := 7, a := Memory.zeros.writeBytes 0 ivE5 }.regWrite 0x00 0x00000005#32))
      (fun t => t.phase == .failed) = true := by decide

/-- Both ends of the range of the block length. -/
theorem witness_PadLaws : 1 ≤ 1 ∧ 1 ≤ 255 ∧ 255 ≤ 255 := by decide

theorem witness_UnpadSucceedsExactly :
    okBytes (unpad [1, 2, 3, 1] 4) = some [1, 2, 3] ∧ errKind (unpad [] 4) = some .invalidLength ∧
    errKind (unpad [1, 3, 2, 3] 4) = some .padding := by decide

theorem witness_UnpadInvertsPad :
    okBytes (pad plainE5 4) = some [1, 2, 3, 4, 5, 3, 3, 3] ∧ okBytes (unpad [4, 4, 4, 4] 4) = some [] := by decide

theorem witness_XorLaws :
    [1#8, 2#8].length ≠ [1#8].length ∧ [0x61#8, 0x62#8].length = [0x10#8, 0x10#8].length ∧
    okBytes (xor [0x10, 0x10] [1, 2]) = some [0x11, 0x12] := by decide

theorem witness_CbcLengthLaws :
    (∀ x : Bytes, x.length = 4 → (Cipher.E .inc 4 x).length = 4) ∧
    (∀ x : Bytes, x.length = 4 → (Cipher.D .inc 4 x).length = 4) ∧
    okBytes (cbcEncrypt (Cipher.E .inc 4) 4 plainE5 ivE5) = some cipherE5 ∧
    okBytes (cbcDecrypt (Cipher.D .inc 4) 4 cipherE5 ivE5) = some plainE5 :=
  ⟨fun _ _ => by simp, fun _ _ => by simp, by decide, by decide⟩

theorem witness_ChainStructure : 0 < [ivE5, plainE5].length ∧ 1 < [ivE5, plainE5].length := by decide

theorem witness_CbcRoundTrip :
    (∀ x : Bytes, x.length = 4 → (Cipher.E .inc 4 x).length = 4) ∧ CipherInv (Cipher.E .inc 4) (Cipher.D .inc 4) 4 ∧
    ivE5.length = 4 ∧ okBytes (cbcEncrypt (Cipher.E .inc 4) 4 plainE5 ivE5) = some cipherE5 :=
  ⟨fun _ _ => by simp, cipherInv_inc 4, by decide, by decide⟩

theorem witness_ChangedBlockEffect :
    (∀ x : Bytes, x.length = 4 → (Cipher.D .ident 4 x).length = 4) ∧ ivE5.length = 4 ∧ [0#8, 0#8, 0#8, 5#8].length = 4 ∧
    (∀ x ∈ blocksOf 4 cipherE5, x.length = 4) ∧ 0 < (blocksOf 4 cipherE5).length ∧ 0 + 1 < (blocksOf 4 cipherE5).length :=
  ⟨fun _ _ => by simp, by decide, by decide, by decide, by decide, by decide⟩

/-- K1, K2, K3 of 95_test_vectors.md: the two exceptions, and the ordinary case. -/
theorem witness_CorruptedPadding :
    ([1#8, 2#8, 3#8, 4#8, 4#8, 4#8, 4#8, 4#8] = [1#8, 2#8, 3#8, 4#8] ++ List.replicate 4 (BitVec.ofNat 8 4) ∧
      4 ≤ 7 ∧ 7 < 8 ∧ (1#8).toNat ≠ 4 ∧ 7 + 1 = 8 ∧ 2 ≤ 4) ∧
    ([1#8, 2#8, 2#8, 1#8] = [1#8, 2#8, 2#8] ++ List.replicate 1 (BitVec.ofNat 8 1) ∧ 3 ≤ 3 ∧ 3 < 4 ∧
      2 ≤ (2#8).toNat ∧ (2#8).toNat ≤ 4 ∧
      (∀ j, j < 4 → 4 - (2#8).toNat ≤ j → j + 1 < 4 → [1#8, 2#8, 2#8, 1#8].getD j 0 = 2#8)) ∧
    (4 ≤ 6 ∧ 6 < 8 ∧ (5#8).toNat ≠ 4 ∧ ¬ (6 + 1 = 8)) := by decide

theorem witness_ready : ready.Ready := ⟨by decide, by decide, by decide⟩

theorem witness_EmptyCiphertextFails :
    ({ ready with lenA := 0 } : State).Ready ∧ ({ ready with lenA := 0 } : State).lenA = 0 ∧
    ({ ready with lenA := 0 } : State).lenB.toNat = ready.config.L :=
  ⟨⟨by decide, by decide, by decide⟩, by decide, by decide⟩

/-- PAD 4 at the capacity boundary: 27 bytes pad to 28 and fit, 28 bytes would pad to 32 and do not (V10, F13). -/
theorem witness_PadderCommandsAgree :
    (testState .ident .idle 0 (List.replicate 27 0) []).Ready ∧ (testState .ident .idle 0 (List.replicate 28 0) []).Ready ∧
    (testState .ident .idle 0 [1, 2, 3, 1] []).Ready ∧
    ((4 : BitVec 8) ≠ 0 ∧ (testState .ident .idle 0 (List.replicate 28 0) []).lenA.toNat ≤ 31 ∧
      (testState .ident .idle 0 (List.replicate 27 0) []).lenA.toNat +
        ((4 : BitVec 8).toNat - (testState .ident .idle 0 (List.replicate 27 0) []).lenA.toNat % (4 : BitVec 8).toNat) ≤ 31 ∧
      31 < (testState .ident .idle 0 (List.replicate 28 0) []).lenA.toNat +
        ((4 : BitVec 8).toNat - (testState .ident .idle 0 (List.replicate 28 0) []).lenA.toNat % (4 : BitVec 8).toNat) ∧
      okBytes (unpad (testState .ident .idle 0 [1, 2, 3, 1] []).operandA 4) = some [1, 2, 3] ∧
      errKind (unpad ready.operandA 4) = some .invalidLength) :=
  ⟨⟨by decide, by decide, by decide⟩, ⟨by decide, by decide, by decide⟩, ⟨by decide, by decide, by decide⟩, by decide⟩

theorem witness_XorCommandAgrees :
    okBytes (xor (testState .ident .idle 0 [1] [2]).operandA (testState .ident .idle 0 [1] [2]).operandB) = some [3] ∧
    errKind (xor ready.operandA ready.operandB) = some .lengthMismatch ∧ ready.lenB.toNat ≤ ready.config.CAP := by decide

/-- `ready`, and for the error clause the state of F6, whose IV is one byte short. -/
theorem witness_EncryptCommandAgrees :
    (testState .ident .idle 0 [1, 2] [0xa0, 0xb0, 0xc0]).Ready ∧
    (ready.lenA.toNat + (ready.config.L - ready.lenA.toNat % ready.config.L) ≤ ready.config.CAP ∧
      okBytes (cbcEncrypt ready.encryptBlock ready.config.L ready.operandA ready.operandB) = some cipherE5 ∧
      (testState .ident .idle 0 [1, 2] [0xa0, 0xb0, 0xc0]).lenA.toNat + (4 - 2 % 4) ≤ 31 ∧
      (testState .ident .idle 0 [1, 2] [0xa0, 0xb0, 0xc0]).lenB.toNat ≤ 31 ∧
      errKind (cbcEncrypt (testState .ident .idle 0 [1, 2] [0xa0, 0xb0, 0xc0]).encryptBlock 4
        (testState .ident .idle 0 [1, 2] [0xa0, 0xb0, 0xc0]).operandA
        (testState .ident .idle 0 [1, 2] [0xa0, 0xb0, 0xc0]).operandB) = some .invalidLength) :=
  ⟨⟨by decide, by decide, by decide⟩, by decide⟩

theorem witness_DecryptCommandAgrees :
    okBytes (cbcDecrypt ready.decryptBlock 4 (testState .inc .idle 0 cipherE5 ivE5).operandA ready.operandB) =
      some plainE5 ∧
    errKind (cbcDecrypt ready.decryptBlock 4 ready.operandA ready.operandB) = some .invalidLength ∧
    errKind (cbcDecrypt (Cipher.D .ident 4) 4 cipherE5 ivE5) = some .padding := by decide

/-- Every row of R195. -/
theorem witness_RunLengths :
    decode 0x00000001#32 = .error .blockLengthZero ∧
    validateError .xor (ready.regWrite 0x00 0x00000003#32) = some .lengthMismatch ∧
    validateError .clear (ready.regWrite 0x00 0x00000000#32) = none ∧
    validateError (.pad 4) (ready.regWrite 0x00 0x00000401#32) = none ∧
    validateError (.unpad 4) (ready.regWrite 0x00 0x00000402#32) = none ∧
    validateError .cbcEnc (ready.regWrite 0x00 0x00000004#32) = none ∧
    validateError .cbcDec ((testState .inc .idle 0 cipherE5 ivE5).regWrite 0x00 0x00000005#32) = none ∧
    validateError .xor ((testState .inc .idle 0 ivE5 ivE5).regWrite 0x00 0x00000003#32) = none := by decide

theorem witness_PortCallsInOrder :
    ready.lenA.toNat ≤ ready.config.CAP ∧ ready.lenB.toNat = ready.config.L ∧
    (testState .inc .idle 0 cipherE5 ivE5).lenA.toNat % 4 = 0 ∧ encStart.phase = .validate ∧
    decode (testState .ident .process 0x00000003#32 [1] [2]).cmd ≠ .ok .cbcEnc ∧
    decode (testState .ident .process 0x00000003#32 [1] [2]).cmd ≠ .ok .cbcDec := by decide

/-- RUN CBC.ENC with three turns before the first read and one before each later one: one read shows BUSY = 1, the
last BUSY = 0. The call's clause with an IV of L bytes and with one of another length. -/
theorem witness_EncryptCallScript :
    (ivE5.length ≤ ready.config.CAP ∧ plainE5.length ≠ ready.config.L ∧ plainE5.length ≤ ready.config.CAP ∧
      ivE5.length = ready.config.L ∧
      plainE5.length + (ready.config.L - plainE5.length % ready.config.L) ≤ ready.config.CAP) ∧
    scriptRunWord 0x00000004#32 [3] ready =
      some ([.host (.regWrite 0x00 0x00000004#32), .engine, .engine, .engine, .host (.regRead 0x04), .engine] ++
        [.host (.regRead 0x04)]) ∧
    nextHas (ready.afterEvents
      [.host (.regWrite 0x00 0x00000004#32), .engine, .engine, .engine, .host (.regRead 0x04), .engine])
      (fun u => (u.regRead 0x04).getLsbD 3 == false) = true ∧
    nextHas (ready.afterEvents [.host (.regWrite 0x00 0x00000004#32), .engine, .engine, .engine])
      (fun v => (v.regRead 0x04).getLsbD 3 == true) = true := by decide

/-- States of the first clause: a quiescent engine, where the word is accepted, and a busy one, where it is lost. -/
theorem witness_EncryptCallScript_inv : EngineInv encDone ∧ EngineInv decMid ∧ encDone.busy = false ∧
    decMid.busy = true ∧ (scriptRunWord 0x00000000#32 [] encDone).isSome = true ∧
    scriptRunWord 0x00000000#32 [] decMid =
      some [.host (.regWrite 0x00 0x00000000#32), .engine, .host (.regRead 0x04), .engine, .host (.regRead 0x04)] :=
  ⟨witness_engineInv_encDone, witness_engineInv_decMid, by decide, by decide, by decide, by decide⟩

/-- RUN XOR repeats until BUSY = 0: with a read before the first turn and one a turn after it, with no speed given, and
with turns to spare. -/
theorem test_run_loop :
    scriptRunWord 0x00000003#32 [0, 1, 1, 1] (testState .ident .idle 0 [1] [2]) =
      some [.host (.regWrite 0x00 0x00000003#32), .host (.regRead 0x04), .engine, .host (.regRead 0x04), .engine,
        .host (.regRead 0x04)] ∧
    scriptRunWord 0x00000003#32 [] (testState .ident .idle 0 [1] [2]) =
      some [.host (.regWrite 0x00 0x00000003#32), .engine, .host (.regRead 0x04), .engine, .host (.regRead 0x04)] ∧
    scriptRunWord 0x00000003#32 [5, 9] (testState .ident .idle 0 [1] [2]) =
      some [.host (.regWrite 0x00 0x00000003#32), .engine, .engine, .engine, .engine, .engine,
        .host (.regRead 0x04)] := by decide

/-- GETERR after RUN starts only when RUN has ended, whatever the speed. -/
theorem test_script_waits :
    scriptSchedule [] [.run .xor, .getErr] (testState .ident .idle 0 [1] [2]) =
      some [.host (.regWrite 0x00 0x00000003#32), .engine, .host (.regRead 0x04), .engine, .host (.regRead 0x04),
        .host (.regRead 0x08)] := by decide

/-- GETOUT reads LEN_OUT and then that many bytes, none after CLEAR. -/
theorem test_getOut_script :
    scriptGetOut encDone = .host (.regRead 0x14) :: (List.range 8).map (fun i => .host (.memRead .out i)) ∧
    scriptGetOut ready = [.host (.regRead 0x14)] := by decide

end Sys2Proof.Tests
end

section
/-! PROOFS. The parameters of the engine (00_scope.md R6): which are refused, and that no step changes them. -/

namespace Sys2Proof

/-- The decidable check is the ranges of R6. -/
theorem Config.legal_iff (c : Config) :
    c.legal = true ↔ 1 ≤ c.L ∧ c.L ≤ 255 ∧ 6 * c.L + 7 ≤ c.CAP ∧ c.CAP < 2 ^ 31 := by
  simp only [Config.legal, Bool.and_eq_true, decide_eq_true_eq, and_assoc]

end Sys2Proof

namespace Sys2Proof.Machine

/-- U3, U5: the refusal comes before any event is looked at. -/
theorem step_illegalConfiguration {s : State} (h : ¬ s.config.legal = true) :
    step s = .refused .illegalConfiguration :=
  if_neg h

theorem EventStep.config_eq {s t : State} (h : EventStep s t) : t.config = s.config := by
  cases h with
  | command _ _ hx =>
    obtain ⟨-, hconfig, -, -⟩ := exec_frame hx
    exact hconfig
  | illegal _ _ => exact State.raise_config s _
  | idle _ => rfl

theorem step_config {s t : State} (h : step s = .next t) : t.config = s.config := by
  obtain ⟨-, ⟨-, hev⟩ | ⟨rest, -, hev⟩ | ⟨x, rest, -, rfl⟩⟩ := step_inv h
  · exact hev.config_eq
  · exact hev.config_eq
  · exact hostAccess_config _ x

/-- Settles O8: the ranges of R6 are exactly what `step` asks for first, and each kind of event keeps `config`. -/
theorem illegalParametersRefused : Obligations.IllegalParametersRefused := fun s =>
  ⟨fun hout => step_illegalConfiguration (mt s.config.legal_iff.mp hout), fun _ => step_config⟩

end Sys2Proof.Machine
end

section
/-! PROOFS. The invariant of the machine (10_state.md R44, 20_memory.md R79): ways to establish each of its parts, its
step lemmas, one for each constructor of `ExecStep`, and that every event keeps it. -/

namespace Sys2Proof.Machine

/-! ### Bytes, words and lengths -/

/-- A range written in two parts. -/
theorem Memory.writeBytes_append (m : Memory) (addr : Nat) (xs ys : Bytes) :
    m.writeBytes addr (xs ++ ys) = (m.writeBytes addr xs).writeBytes (addr + xs.length) ys := by
  induction xs generalizing m addr with
  | nil => rfl
  | cons x xs ih =>
    rw [List.cons_append, Memory.writeBytes_cons, Memory.writeBytes_cons, ih, List.length_cons]
    congr 1
    omega

@[simp] theorem State.operandA_length (s : State) : s.operandA.length = s.lenA.toNat :=
  Memory.readBytes_length _ _ _

@[simp] theorem State.work_length (s : State) : s.work.length = s.wlen.toNat :=
  Memory.readBytes_length _ _ _

@[simp] theorem State.iv_length (s : State) : s.iv.length = s.config.L :=
  Memory.readBytes_length _ _ _

@[simp] theorem State.decInput_length (s : State) : s.decInput.length = s.config.L :=
  Memory.readBytes_length _ _ _

/-- The two writes of the PAD step are one write of `pad`'s result. -/
theorem State.paddedWork_eq (s : State) (m : Nat) : s.paddedWork m = s.w.writeBytes 0 (padBytes s.operandA m) := by
  simp only [padBytes, Memory.writeBytes_append, State.operandA_length, Nat.zero_add]
  rfl

theorem State.padBytes_operandA_length (s : State) (m : Nat) : (padBytes s.operandA m).length = s.paddedLen m := by
  simp [State.paddedLen]

/-- A length within CAP fits a register (R11). -/
theorem toNat_ofNat_of_le_cap {c : Config} (hl : c.legal = true) {n : Nat} (hn : n ≤ c.CAP) :
    (BitVec.ofNat 32 n).toNat = n := by
  obtain ⟨-, -, -, hcap⟩ := (legal_iff c).mp hl
  rw [BitVec.toNat_ofNat]
  exact Nat.mod_eq_of_lt (by omega)

/-- Blocks that lie within CAP can be counted in a register (R11). -/
theorem toNat_ofNat_of_mul_le_cap {c : Config} (hl : c.legal = true) {n : Nat} (hn : n * c.L ≤ c.CAP) :
    (BitVec.ofNat 32 n).toNat = n := by
  obtain ⟨hL, -, -, -⟩ := (legal_iff c).mp hl
  exact toNat_ofNat_of_le_cap hl (le_trans (Nat.le_mul_of_pos_right n hL) hn)

/-! ### The UNPAD step's frame -/

@[simp] theorem State.unpadStep_frame (s : State) (m : Nat) :
    (s.unpadStep m).a = s.a ∧ (s.unpadStep m).b = s.b ∧ (s.unpadStep m).lenA = s.lenA ∧
    (s.unpadStep m).lenB = s.lenB ∧ (s.unpadStep m).idx = s.idx ∧ (s.unpadStep m).nblk = s.nblk := by
  rcases s.unpadStep_cases m with ⟨r, -, he⟩ | ⟨k, -, he⟩ <;> rw [he] <;> simp

/-! ### The buffers -/

/-- Work memory written inside `[0, WLEN)`, A and B untouched: every engine step but CLEAR and entry to FAILED. -/
theorem BufferLaws.of_writeBytes {s t : State} (h : BufferLaws s) (addr : Nat) (vs : Bytes)
    (hconfig : t.config = s.config) (ha : t.a = s.a) (hb : t.b = s.b) (hw : t.w = s.w.writeBytes addr vs)
    (hchain : t.chain.length = s.config.L) (hcap : t.wlen.toNat ≤ s.config.CAP)
    (hgrow : s.wlen.toNat ≤ t.wlen.toNat) (hend : addr + vs.length ≤ t.wlen.toNat) : BufferLaws t where
  aWf := ha ▸ h.aWf
  bWf := hb ▸ h.bWf
  wWf := hw ▸ Memory.wf_writeBytes h.wWf addr vs
  aWithin := by rw [ha, hconfig]; exact h.aWithin
  bWithin := by rw [hb, hconfig]; exact h.bWithin
  wWithin := by rw [hw, hconfig]; exact Memory.within_writeBytes h.wWithin (le_trans hend hcap)
  wFill := by rw [hw, Memory.writeBytes_fill]; exact h.wFill
  wTail := fun x hx => by
    rw [hw, Memory.read_writeBytes_outside _ (.inr (le_trans hend hx))]
    exact h.wTail x (le_trans hgrow hx)
  chainLen := by rw [hchain, hconfig]

/-- W and CHAIN zeroed: reset, command start and entry to FAILED. -/
theorem BufferLaws.of_zeroed {t : State} (haWf : t.a.wf = true) (hbWf : t.b.wf = true)
    (haWithin : t.a.within t.config.CAP = true) (hbWithin : t.b.within t.config.CAP = true)
    (hw : t.w = Memory.zeros) (hchain : t.chain = List.replicate t.config.L 0) : BufferLaws t where
  aWf := haWf
  bWf := hbWf
  wWf := hw ▸ Memory.wf_zeros
  aWithin := haWithin
  bWithin := hbWithin
  wWithin := hw ▸ Memory.within_zeros _
  wFill := hw ▸ Memory.zeros_fill
  wTail := fun x _ => hw ▸ Memory.read_zeros x
  chainLen := by rw [hchain, List.length_replicate]

/-- A and B replaced, W and CHAIN untouched: CLEAR and the host's writes. -/
theorem BufferLaws.of_operands {s t : State} (h : BufferLaws s) (hconfig : t.config = s.config)
    (hw : t.w = s.w) (hwlen : t.wlen = s.wlen) (hchain : t.chain = s.chain)
    (haWf : t.a.wf = true) (hbWf : t.b.wf = true)
    (haWithin : t.a.within s.config.CAP = true) (hbWithin : t.b.within s.config.CAP = true) : BufferLaws t where
  aWf := haWf
  bWf := hbWf
  wWf := hw ▸ h.wWf
  aWithin := hconfig ▸ haWithin
  bWithin := hconfig ▸ hbWithin
  wWithin := by rw [hw, hconfig]; exact h.wWithin
  wFill := hw ▸ h.wFill
  wTail := by rw [hw, hwlen]; exact h.wTail
  chainLen := by rw [hchain, hconfig]; exact h.chainLen

/-- No buffer touched. -/
theorem BufferLaws.of_eq {s t : State} (h : BufferLaws s) (hconfig : t.config = s.config) (ha : t.a = s.a)
    (hb : t.b = s.b) (hw : t.w = s.w) (hwlen : t.wlen = s.wlen) (hchain : t.chain = s.chain) : BufferLaws t :=
  h.of_operands hconfig hw hwlen hchain (ha ▸ h.aWf) (hb ▸ h.bWf) (ha ▸ h.aWithin) (hb ▸ h.bWithin)

/-! ### The laws of R44 -/

/-- Item 7 holds of every state: STATE is never read as 7 (R28). -/
theorem State.statusWord_ne_seven (s : State) : s.statusWord.extractLsb' 0 3 ≠ 7#3 := by
  rw [State.statusWord_eq]
  cases s.phase <;> decide

theorem StateLaws.err_none {s : State} (h : StateLaws s) (hp : s.phase ≠ .failed) : s.err = none :=
  not_not.mp (mt h.errIffFailed.mp hp)

/-- The laws in a state that has neither a result nor an error. -/
theorem StateLaws.of_running {t : State} (herr : t.err = none) (hout : t.lenOut = 0)
    (hdone : t.phase ≠ .done) (hfailed : t.phase ≠ .failed) (hcap : t.wlen.toNat ≤ t.config.CAP)
    (hcbc : t.phase = .process → (t.op = 0x04#8 ∨ t.op = 0x05#8) →
      t.idx.toNat < t.nblk.toNat ∧ t.nblk.toNat * t.config.L = t.wlen.toNat) : StateLaws t where
  errIffFailed := iff_of_false (not_not.mpr herr) hfailed
  lenOutOutsideDone := fun _ => hout
  lenOutLe := ⟨by simp [hout], hcap⟩
  failedIsClear := fun hp => absurd hp hfailed
  cbcProcess := fun hp hop => by
    obtain ⟨hlt, hmul⟩ := hcbc hp hop
    exact ⟨hlt, by omega, hmul⟩
  encDone := fun hp => absurd hp hdone
  stateNot7 := t.statusWord_ne_seven

/-- An engine step from one such state to another. -/
theorem StateLaws.step_running {s t : State} (h : StateLaws s) (hs : s.phase ≠ .done ∧ s.phase ≠ .failed)
    (ht : t.phase ≠ .done ∧ t.phase ≠ .failed) (herr : t.err = s.err) (hout : t.lenOut = s.lenOut)
    (hcap : t.wlen.toNat ≤ t.config.CAP)
    (hcbc : t.phase = .process → (t.op = 0x04#8 ∨ t.op = 0x05#8) →
      t.idx.toNat < t.nblk.toNat ∧ t.nblk.toNat * t.config.L = t.wlen.toNat) : StateLaws t :=
  .of_running (herr.trans (h.err_none hs.2)) (hout.trans (h.lenOutOutsideDone hs.1)) ht.1 ht.2 hcap hcbc

/-- The laws in DONE. -/
theorem StateLaws.of_done {t : State} (hp : t.phase = .done) (herr : t.err = none)
    (hout : t.lenOut.toNat ≤ t.wlen.toNat) (hcap : t.wlen.toNat ≤ t.config.CAP)
    (henc : t.op = 0x04#8 → t.idx = t.nblk ∧ t.lenOut = t.wlen ∧ t.wlen.toNat = t.nblk.toNat * t.config.L) :
    StateLaws t where
  errIffFailed := iff_of_false (not_not.mpr herr) (by simp [hp])
  lenOutOutsideDone := fun hne => absurd hp hne
  lenOutLe := ⟨hout, hcap⟩
  failedIsClear := fun hf => by simp [hp] at hf
  cbcProcess := fun hpr => by simp [hp] at hpr
  encDone := fun _ => henc
  stateNot7 := t.statusWord_ne_seven

/-- A and B, their lengths and the schedule are no part of the laws of R44. -/
theorem StateLaws.of_operands {s : State} (h : StateLaws s) (lenA lenB : Word) (a b : Memory) (es : List Event) :
    StateLaws { s with lenA := lenA, lenB := lenB, a := a, b := b, events := es } :=
  ⟨h.errIffFailed, h.lenOutOutsideDone, h.lenOutLe, h.failedIsClear, h.cbcProcess, h.encDone, h.stateNot7⟩

/-! ### What the invariant says of a command in a state -/

theorem State.op_eq_enc_iff {s : State} {i : Instr} (hd : decode s.cmd = .ok i) :
    s.op = 0x04#8 ↔ i = .cbcEnc := by
  rw [State.op, opField_of_decode hd]
  cases i <;> simp [Instr.opcode]

theorem State.op_eq_dec_iff {s : State} {i : Instr} (hd : decode s.cmd = .ok i) :
    s.op = 0x05#8 ↔ i = .cbcDec := by
  rw [State.op, opField_of_decode hd]
  cases i <;> simp [Instr.opcode]

/-- In a quiescent state no command is owed anything. -/
theorem pathLaw.of_quiescent {s : State} (hb : s.busy = false) : pathLaw s := by
  cases hp : s.phase with
  | idle | done | failed => simp only [pathLaw, hp]
  | validate | pad | process | unpad => simp [State.busy, hp, Phase.busy] at hb

theorem pathLaw.validate {s : State} (h : pathLaw s) (hp : s.phase = .validate) :
    s.idx = 0 ∧ s.nblk = 0 ∧ s.wlen = 0 := by
  simpa only [pathLaw, hp] using h

theorem pathLaw.pad_pad {s : State} (h : pathLaw s) (hp : s.phase = .pad) {bl : BitVec 8}
    (hd : decode s.cmd = .ok (.pad bl)) : s.wlen = 0 ∧ s.paddedLen (blockLen bl) ≤ s.config.CAP := by
  simp only [pathLaw, hp, hd] at h
  obtain ⟨-, -, hwlen, ⟨bl', hbl, hfit⟩ | ⟨henc, -, -⟩⟩ := h
  · cases hbl
    exact ⟨hwlen, hfit⟩
  · cases henc

theorem pathLaw.pad_cbcEnc {s : State} (h : pathLaw s) (hp : s.phase = .pad) (hd : decode s.cmd = .ok .cbcEnc) :
    s.idx = 0 ∧ s.wlen = 0 ∧ s.lenB.toNat = s.config.L ∧ s.paddedLen s.config.L ≤ s.config.CAP := by
  simp only [pathLaw, hp, hd] at h
  obtain ⟨hidx, -, hwlen, ⟨bl, hbl, -⟩ | ⟨-, hlenB, hfit⟩⟩ := h
  · cases hbl
  · exact ⟨hidx, hwlen, hlenB, hfit⟩

theorem pathLaw.process_xor {s : State} (h : pathLaw s) (hp : s.phase = .process) (hd : decode s.cmd = .ok .xor) :
    s.wlen = 0 ∧ s.lenA.toNat ≤ s.config.CAP := by
  simp only [pathLaw, hp, hd] at h
  obtain ⟨-, hwlen, -, hfit⟩ | ⟨henc, -⟩ | ⟨hdec, -⟩ := h
  · exact ⟨hwlen, hfit⟩
  · cases henc
  · cases hdec

theorem pathLaw.process_cbcEnc {s : State} (h : pathLaw s) (hp : s.phase = .process)
    (hd : decode s.cmd = .ok .cbcEnc) : s.lenB.toNat = s.config.L ∧ s.wlen.toNat = s.paddedLen s.config.L := by
  simp only [pathLaw, hp, hd] at h
  obtain ⟨hxor, -⟩ | ⟨-, hlens⟩ | ⟨hdec, -⟩ := h
  · cases hxor
  · exact hlens
  · cases hdec

theorem pathLaw.process_cbcDec {s : State} (h : pathLaw s) (hp : s.phase = .process)
    (hd : decode s.cmd = .ok .cbcDec) : s.lenB.toNat = s.config.L ∧ s.wlen = s.lenA := by
  simp only [pathLaw, hp, hd] at h
  obtain ⟨hxor, -⟩ | ⟨henc, -⟩ | ⟨-, hlens⟩ := h
  · cases hxor
  · cases henc
  · exact hlens

namespace EngineInv

variable {s : State}

/-- What items 3 and 5 of R44 say before a PROCESS step of a CBC command. -/
theorem cbc_process (h : EngineInv s) (hp : s.phase = .process) {i : Instr} (hd : decode s.cmd = .ok i)
    (hi : i = .cbcEnc ∨ i = .cbcDec) :
    s.idx.toNat < s.nblk.toNat ∧ s.nblk.toNat * s.config.L = s.wlen.toNat ∧ s.wlen.toNat ≤ s.config.CAP := by
  have hop : s.op = 0x04#8 ∨ s.op = 0x05#8 := hi.imp (State.op_eq_enc_iff hd).mpr (State.op_eq_dec_iff hd).mpr
  obtain ⟨hlt, -, hmul⟩ := h.laws.cbcProcess hp hop
  exact ⟨hlt, hmul, h.laws.lenOutLe.2⟩

/-- Where the block of a PROCESS step ends, IDX after it, and when it is the last (R168, R171). -/
theorem block_process (h : EngineInv s) (hp : s.phase = .process) {i : Instr} (hd : decode s.cmd = .ok i)
    (hi : i = .cbcEnc ∨ i = .cbcDec) :
    s.blockIndex * s.config.L + s.config.L ≤ s.wlen.toNat ∧
    (BitVec.ofNat 32 (s.blockIndex + 1)).toNat = s.idx.toNat + 1 ∧
    (s.lastBlock = true ↔ s.idx.toNat + 1 = s.nblk.toNat) := by
  obtain ⟨hlt, hmul, hcap⟩ := h.cbc_process hp hd hi
  have hend : (s.idx.toNat + 1) * s.config.L ≤ s.nblk.toNat * s.config.L := Nat.mul_le_mul_right _ hlt
  refine ⟨?_, toNat_ofNat_of_mul_le_cap h.legal (by unfold State.blockIndex; omega), by
    simp [State.lastBlock, State.blockIndex]⟩
  rw [Nat.succ_mul] at hend
  unfold State.blockIndex
  omega

/-! ### Engine steps -/

/-- Entry to FAILED, from any state. -/
theorem raise (h : EngineInv s) (k : ErrorKind) : EngineInv (s.raise k) where
  legal := h.legal
  laws :=
    { errIffFailed := by simp
      lenOutOutsideDone := fun _ => rfl
      lenOutLe := by simp
      failedIsClear := fun _ => ⟨rfl, fun _ => rfl, rfl⟩
      cbcProcess := fun hp => by simp at hp
      encDone := fun hp => by simp at hp
      stateNot7 := State.statusWord_ne_seven _ }
  path := trivial
  buffers := .of_zeroed h.buffers.aWf h.buffers.bWf h.buffers.aWithin h.buffers.bWithin rfl rfl

theorem clearValidated (h : EngineInv s) (hp : s.phase = .validate) : EngineInv s.clearValidated where
  legal := h.legal
  laws := h.laws.step_running (by simp [hp]) (by simp) rfl rfl h.laws.lenOutLe.2 (fun hpr => by simp at hpr)
  path := trivial
  buffers := h.buffers.of_operands rfl rfl rfl rfl rfl rfl rfl rfl

theorem padValidated (h : EngineInv s) (hp : s.phase = .validate) {bl : BitVec 8}
    (hd : decode s.cmd = .ok (.pad bl)) (hc : firstError (s.padChecks bl) = none) : EngineInv s.padValidated where
  legal := h.legal
  laws := h.laws.step_running (by simp [hp]) (by simp) rfl rfl h.laws.lenOutLe.2 (fun hpr => by simp at hpr)
  path := by
    obtain ⟨hidx, hnblk, hwlen⟩ := h.path.validate hp
    exact ⟨hidx, hnblk, hwlen, .inl ⟨bl, hd, State.paddedLen_le_of_checked (s := s) hc (by simp [State.padChecks])⟩⟩
  buffers := h.buffers.of_eq rfl rfl rfl rfl rfl rfl

theorem padStep (h : EngineInv s) (hp : s.phase = .pad) {bl : BitVec 8} (hd : decode s.cmd = .ok (.pad bl)) :
    EngineInv (s.padStep bl) := by
  obtain ⟨hwlen, hfit⟩ := h.path.pad_pad hp hd
  have hlen : (s.padStep bl).wlen.toNat = s.paddedLen (blockLen bl) := toNat_ofNat_of_le_cap h.legal hfit
  exact
    { legal := h.legal
      laws := .of_done rfl (h.laws.err_none (by simp [hp])) le_rfl (hlen ▸ hfit)
        (fun hop => absurd ((State.op_eq_enc_iff hd).mp hop) (by simp))
      path := trivial
      buffers := h.buffers.of_writeBytes 0 (padBytes s.operandA (blockLen bl)) rfl rfl rfl (s.paddedWork_eq _)
        h.buffers.chainLen (hlen ▸ hfit) (by simp [hwlen])
        (by rw [State.padBytes_operandA_length, hlen, Nat.zero_add]) }

theorem unpadValidated (h : EngineInv s) (hp : s.phase = .validate) {bl : BitVec 8}
    (hd : decode s.cmd = .ok (.unpad bl)) (hc : firstError (s.unpadChecks bl) = none) :
    EngineInv s.unpadValidated := by
  obtain ⟨-, -, hwlen⟩ := h.path.validate hp
  have hfit : s.lenA.toNat ≤ s.config.CAP := State.lenA_le_of_checked hc (by simp [State.unpadChecks])
  exact
    { legal := h.legal
      laws := h.laws.step_running (by simp [hp]) (by simp) rfl rfl hfit (fun hpr => by simp at hpr)
      path := .inl ⟨bl, hd, rfl⟩
      buffers := h.buffers.of_writeBytes 0 s.operandA rfl rfl rfl rfl h.buffers.chainLen hfit (by simp [hwlen])
        (by simp) }

/-- The UNPAD step of either command that has one. -/
theorem unpadStep (h : EngineInv s) (hp : s.phase = .unpad) (hop : s.op ≠ 0x04#8) (m : Nat) :
    EngineInv (s.unpadStep m) := by
  rcases s.unpadStep_cases m with ⟨r, hr, he⟩ | ⟨k, -, he⟩
  · have hcap := h.laws.lenOutLe.2
    have hle : r.length ≤ s.wlen.toNat := s.work_length ▸ unpad_length_le hr
    rw [he]
    exact
      { legal := h.legal
        laws := .of_done rfl (h.laws.err_none (by simp [hp]))
          ((toNat_ofNat_of_le_cap h.legal (hle.trans hcap)).trans_le hle) hcap (fun hop' => absurd hop' hop)
        path := trivial
        buffers := h.buffers.of_eq rfl rfl rfl rfl rfl rfl }
  · rw [he]
    exact h.raise k

theorem xorValidated (h : EngineInv s) (hp : s.phase = .validate) (hd : decode s.cmd = .ok .xor)
    (hc : firstError s.xorChecks = none) : EngineInv s.xorValidated where
  legal := h.legal
  laws := h.laws.step_running (by simp [hp]) (by simp) rfl rfl h.laws.lenOutLe.2
    (fun _ hop => by
      rcases hop with hop | hop
      · exact absurd ((State.op_eq_enc_iff hd).mp hop) (by simp)
      · exact absurd ((State.op_eq_dec_iff hd).mp hop) (by simp))
  path := by
    obtain ⟨-, -, hwlen⟩ := h.path.validate hp
    exact .inl ⟨hd, hwlen, State.sameLen_of_checked (s := s) hc (by simp [State.xorChecks]),
      State.lenA_le_of_checked (s := s) hc (by simp [State.xorChecks])⟩
  buffers := h.buffers.of_eq rfl rfl rfl rfl rfl rfl

theorem xorStep (h : EngineInv s) (hp : s.phase = .process) (hd : decode s.cmd = .ok .xor) :
    EngineInv s.xorStep := by
  obtain ⟨hwlen, hfit⟩ := h.path.process_xor hp hd
  exact
    { legal := h.legal
      laws := .of_done rfl (h.laws.err_none (by simp [hp])) le_rfl hfit
        (fun hop => absurd ((State.op_eq_enc_iff hd).mp hop) (by simp))
      path := trivial
      buffers := h.buffers.of_writeBytes 0 _ rfl rfl rfl s.xorStep_w h.buffers.chainLen hfit (by simp [hwlen])
        (by simp) }

theorem encValidated (h : EngineInv s) (hp : s.phase = .validate) (hd : decode s.cmd = .ok .cbcEnc)
    (hc : firstError s.encChecks = none) : EngineInv s.encValidated where
  legal := h.legal
  laws := h.laws.step_running (by simp [hp]) (by simp) rfl rfl h.laws.lenOutLe.2 (fun hpr => by simp at hpr)
  path := by
    obtain ⟨hidx, hnblk, hwlen⟩ := h.path.validate hp
    exact ⟨hidx, hnblk, hwlen, .inr ⟨hd, State.ivLen_of_checked (s := s) hc (by simp [State.encChecks]),
      State.paddedLen_le_of_checked (s := s) hc (by simp [State.encChecks])⟩⟩
  buffers := h.buffers.of_writeBytes 0 [] rfl rfl rfl rfl s.iv_length h.laws.lenOutLe.2 le_rfl (by simp)

theorem encPadStep (h : EngineInv s) (hp : s.phase = .pad) (hd : decode s.cmd = .ok .cbcEnc) :
    EngineInv s.encPadStep := by
  obtain ⟨hidx, hwlen, hlenB, hfit⟩ := h.path.pad_cbcEnc hp hd
  obtain ⟨hL, -, -, -⟩ := (legal_iff _).mp h.legal
  have hlen : s.encPadStep.wlen.toNat = s.paddedLen s.config.L := toNat_ofNat_of_le_cap h.legal hfit
  have hmul : s.paddedLen s.config.L = (s.lenA.toNat / s.config.L + 1) * s.config.L := add_padCount hL _
  have hnblk : s.encPadStep.nblk.toNat = s.lenA.toNat / s.config.L + 1 := by
    rw [State.encPadStep_nblk, hmul, Nat.mul_div_cancel _ hL]
    exact toNat_ofNat_of_mul_le_cap h.legal (hmul ▸ hfit)
  exact
    { legal := h.legal
      laws := h.laws.step_running (by simp [hp]) (by simp) rfl rfl (hlen ▸ hfit)
        (fun _ _ => ⟨by rw [hnblk, State.encPadStep_idx, hidx]; exact Nat.succ_pos _,
          by rw [hnblk, hlen, hmul, State.encPadStep_config]⟩)
      path := .inr (.inl ⟨hd, hlenB, hlen⟩)
      buffers := h.buffers.of_writeBytes 0 (padBytes s.operandA s.config.L) rfl rfl rfl (s.paddedWork_eq _)
        h.buffers.chainLen (hlen ▸ hfit) (by simp [hwlen])
        (by rw [State.padBytes_operandA_length, hlen, Nat.zero_add]) }

theorem encStep (h : EngineInv s) (hp : s.phase = .process) (hd : decode s.cmd = .ok .cbcEnc) :
    EngineInv s.encStep := by
  obtain ⟨hlt, hmul, hcap⟩ := h.cbc_process hp hd (.inl rfl)
  obtain ⟨hend, hidx, hlast⟩ := h.block_process hp hd (.inl rfl)
  have hbuffers : BufferLaws s.encStep :=
    h.buffers.of_writeBytes _ _ rfl rfl rfl s.encStep_w (by simp) hcap le_rfl (by simpa using hend)
  cases hb : s.lastBlock with
  | true =>
    have hphase : s.encStep.phase = .done := by simp [hb]
    have hdone : s.idx.toNat + 1 = s.nblk.toNat := hlast.mp hb
    exact
      { legal := h.legal
        laws := .of_done hphase (h.laws.err_none (by simp [hp])) (by simp [hb]) hcap
          (fun _ => ⟨BitVec.eq_of_toNat_eq (hidx.trans hdone), by simp [hb], hmul.symm⟩)
        path := .of_quiescent (by rw [State.busy, hphase]; rfl)
        buffers := hbuffers }
  | false =>
    have hphase : s.encStep.phase = .process := by simp [hb]
    have hmore : s.idx.toNat + 1 ≠ s.nblk.toNat := fun he => by simp [hlast.mpr he] at hb
    exact
      { legal := h.legal
        laws := h.laws.step_running (by simp [hp]) (by rw [hphase]; decide) rfl (by simp [hb]) hcap
          (fun _ _ => ⟨by rw [State.encStep_idx, hidx, State.encStep_nblk]; omega, hmul⟩)
        path := by
          rw [pathLaw, hphase]
          exact .inr (.inl ⟨hd, h.path.process_cbcEnc hp hd⟩)
        buffers := hbuffers }

/-- NBLK after VALIDATE counts the ciphertext's blocks (R170). -/
theorem decValidated_nblk_mul (h : EngineInv s) (hc : firstError s.decChecks = none) :
    s.decValidated.nblk.toNat * s.config.L = s.lenA.toNat := by
  have hfit : s.lenA.toNat ≤ s.config.CAP := State.lenA_le_of_checked hc (by simp [State.decChecks])
  have hmod : s.lenA.toNat % s.config.L = 0 := State.multiple_of_checked hc (by simp [State.decChecks])
  have hmul : s.lenA.toNat / s.config.L * s.config.L = s.lenA.toNat :=
    Nat.div_mul_cancel (Nat.dvd_of_mod_eq_zero hmod)
  rw [State.decValidated_nblk, toNat_ofNat_of_mul_le_cap h.legal (hmul.trans_le hfit), hmul]

theorem decValidated (h : EngineInv s) (hp : s.phase = .validate) (hd : decode s.cmd = .ok .cbcDec)
    (hc : firstError s.decChecks = none) : EngineInv s.decValidated := by
  obtain ⟨hidx, -, hwlen⟩ := h.path.validate hp
  obtain ⟨hL, -, -, -⟩ := (legal_iff _).mp h.legal
  have hblocks := h.decValidated_nblk_mul hc
  have hfit : s.lenA.toNat ≤ s.config.CAP := State.lenA_le_of_checked hc (by simp [State.decChecks])
  have hlenB : s.lenB.toNat = s.config.L := State.ivLen_of_checked hc (by simp [State.decChecks])
  have hbuffers : BufferLaws s.decValidated :=
    h.buffers.of_writeBytes 0 [] rfl rfl rfl rfl s.iv_length hfit (by simp [hwlen]) (by simp)
  by_cases hpos : 0 < s.lenA.toNat
  · have hphase : s.decValidated.phase = .process := if_pos hpos
    have hnblk : 0 < s.decValidated.nblk.toNat := Nat.pos_of_mul_pos_right (hblocks ▸ hpos)
    exact
      { legal := h.legal
        laws := h.laws.step_running (by simp [hp]) (by rw [hphase]; decide) rfl rfl hfit
          (fun _ _ => ⟨by rw [State.decValidated_idx, hidx]; exact hnblk, hblocks⟩)
        path := by
          rw [pathLaw, hphase]
          exact .inr (.inr ⟨hd, hlenB, rfl⟩)
        buffers := hbuffers }
  · have hphase : s.decValidated.phase = .unpad := if_neg hpos
    have hnblk : s.decValidated.nblk.toNat = 0 :=
      (Nat.mul_eq_zero.mp (hblocks.trans (Nat.eq_zero_of_not_pos hpos))).resolve_right (by omega)
    exact
      { legal := h.legal
        laws := h.laws.step_running (by simp [hp]) (by rw [hphase]; decide) rfl rfl hfit
          (fun hpr => absurd (hphase.symm.trans hpr) (by decide))
        path := by
          rw [pathLaw, hphase]
          refine .inr ⟨hd, hlenB, rfl, BitVec.eq_of_toNat_eq ?_, hblocks⟩
          rw [hnblk, State.decValidated_idx, hidx]
          rfl
        buffers := hbuffers }

theorem decStep (h : EngineInv s) (hp : s.phase = .process) (hd : decode s.cmd = .ok .cbcDec) :
    EngineInv s.decStep := by
  obtain ⟨hlt, hmul, hcap⟩ := h.cbc_process hp hd (.inr rfl)
  obtain ⟨hend, hidx, hlast⟩ := h.block_process hp hd (.inr rfl)
  obtain ⟨hlenB, hwlen⟩ := h.path.process_cbcDec hp hd
  exact
    { legal := h.legal
      laws := h.laws.step_running (by simp [hp]) (by rw [State.decStep_phase]; split <;> decide) rfl rfl hcap
        (fun hpr _ => by
          have hmore : s.idx.toNat + 1 ≠ s.nblk.toNat := fun he => by simp [hlast.mpr he] at hpr
          exact ⟨by rw [State.decStep_idx, hidx, State.decStep_nblk]; omega, hmul⟩)
      path := by
        cases hb : s.lastBlock with
        | true =>
          simp only [pathLaw, State.decStep_phase, hb, if_true]
          exact .inr ⟨hd, hlenB, hwlen, BitVec.eq_of_toNat_eq (hidx.trans (hlast.mp hb)), hmul⟩
        | false =>
          simp only [pathLaw, State.decStep_phase, hb]
          exact .inr (.inr ⟨hd, hlenB, hwlen⟩)
      buffers := h.buffers.of_writeBytes _ _ rfl rfl rfl s.decStep_w s.decInput_length hcap le_rfl
        (by simpa [h.buffers.chainLen] using hend) }

/-- An engine step of the command in CMD keeps the invariant. -/
theorem of_exec {i : Instr} {t : State} (h : EngineInv s) (hd : decode s.cmd = .ok i)
    (hx : exec i s = .next t) : EngineInv t := by
  cases exec_inv hx with
  | raised hp => exact h.raise _
  | clear hp => exact h.clearValidated hp
  | padOk hp hc => exact h.padValidated hp hd hc
  | padStep hp => exact h.padStep hp hd
  | unpadOk hp hc => exact h.unpadValidated hp hd hc
  | unpadStep hp => exact h.unpadStep hp (mt (State.op_eq_enc_iff hd).mp (by simp)) _
  | xorOk hp hc => exact h.xorValidated hp hd hc
  | xorStep hp => exact h.xorStep hp hd
  | encOk hp hc => exact h.encValidated hp hd hc
  | encPadStep hp => exact h.encPadStep hp hd
  | encStep hp => exact h.encStep hp hd
  | decOk hp hc => exact h.decValidated hp hd hc
  | decStep hp => exact h.decStep hp hd
  | decUnpad hp => exact h.unpadStep hp (mt (State.op_eq_enc_iff hd).mp (by simp)) _

theorem of_eventStep {t : State} (h : EngineInv s) (he : EventStep s t) : EngineInv t := by
  cases he with
  | command _ hd hx => exact h.of_exec hd hx
  | illegal _ _ => exact h.raise _
  | idle _ => exact h

end EngineInv

/-! ### Host accesses -/

/-- Settles O35: a reset state is IDLE with W and CHAIN zero, and A and B list no byte. -/
theorem resetMeetsInvariant : Obligations.ResetMeetsInvariant := fun c epoch es hl =>
  { legal := hl
    laws := .of_running rfl rfl (by simp [State.resetWith]) (by simp [State.resetWith]) (Nat.zero_le _)
      (fun hpr => by simp [State.resetWith] at hpr)
    path := trivial
    buffers := .of_zeroed rfl rfl rfl rfl rfl rfl }

namespace EngineInv

variable {s : State}

theorem commandStart (h : EngineInv s) (v : Word) : EngineInv (s.commandStart v) where
  legal := h.legal
  laws := .of_running rfl rfl (by simp) (by simp) (Nat.zero_le _) (fun hpr => by simp at hpr)
  path := ⟨rfl, rfl, rfl⟩
  buffers := .of_zeroed h.buffers.aWf h.buffers.bWf h.buffers.aWithin h.buffers.bWithin rfl rfl

theorem withEvents (h : EngineInv s) (es : List Event) : EngineInv { s with events := es } where
  legal := h.legal
  laws := h.laws.of_operands s.lenA s.lenB s.a s.b es
  path := h.path
  buffers := h.buffers.of_eq rfl rfl rfl rfl rfl rfl

/-- While quiescent the operands may be any, as long as their buffers are in form. -/
theorem withOperands (h : EngineInv s) (hb : s.busy = false) {lenA lenB : Word} {a b : Memory}
    (haWf : a.wf = true) (hbWf : b.wf = true) (haWithin : a.within s.config.CAP = true)
    (hbWithin : b.within s.config.CAP = true) :
    EngineInv { s with lenA := lenA, lenB := lenB, a := a, b := b } where
  legal := h.legal
  laws := h.laws.of_operands lenA lenB a b s.events
  path := .of_quiescent hb
  buffers := h.buffers.of_operands rfl rfl rfl rfl haWf hbWf haWithin hbWithin

theorem of_regWrite (h : EngineInv s) (off : Nat) (v : Word) : EngineInv (s.regWrite off v) := by
  have hlens : s.busy = false → ∀ lenA lenB, EngineInv { s with lenA := lenA, lenB := lenB } := fun hb _ _ =>
    h.withOperands hb h.buffers.aWf h.buffers.bWf h.buffers.aWithin h.buffers.bWithin
  rcases s.regWrite_cases off v with ⟨-, -, he⟩ | ⟨hb, -, he⟩ | ⟨hb, -, he⟩ | he <;> rw [he]
  · exact h.commandStart v
  · exact hlens hb v s.lenB
  · exact hlens hb s.lenA v
  · exact h

theorem of_memWrite (h : EngineInv s) (space : Space) (addr : Nat) (v : Byte) :
    EngineInv (s.memWrite space addr v) := by
  rcases s.memWrite_cases space addr v with ⟨hb, hin, -, he⟩ | ⟨hb, hin, -, he⟩ | he <;> rw [he]
  · exact h.withOperands hb (Memory.wf_write h.buffers.aWf addr v) h.buffers.bWf
      (Memory.within_write h.buffers.aWithin hin v) h.buffers.bWithin
  · exact h.withOperands hb h.buffers.aWf (Memory.wf_write h.buffers.bWf addr v) h.buffers.aWithin
      (Memory.within_write h.buffers.bWithin hin v)
  · exact h

theorem of_hostAccess (h : EngineInv s) (x : Access) : EngineInv (s.hostAccess x) := by
  cases x with
  | regRead off => exact h
  | regWrite off v => exact h.of_regWrite off v
  | memRead space addr => exact h
  | memWrite space addr v => exact h.of_memWrite space addr v
  | reset => exact resetMeetsInvariant s.config (s.resets + 1) s.events h.legal

end EngineInv

/-- Settles O36: an event is an engine step of the command in CMD, entry to FAILED, an idle turn or a host access. -/
theorem stepKeepsInvariant : Obligations.StepKeepsInvariant := by
  intro s t h hs
  obtain ⟨-, ⟨-, hev⟩ | ⟨rest, -, hev⟩ | ⟨x, rest, -, rfl⟩⟩ := step_inv hs
  · exact h.of_eventStep hev
  · exact (h.withEvents rest).of_eventStep hev
  · exact (h.withEvents rest).of_hostAccess x

/-- Settles O37: the invariant holds after reset and every step keeps it, and the laws are part of it. -/
theorem stateLawsHoldAlways : Obligations.StateLawsHoldAlways := fun c epoch es _ _ hl hrun =>
  (runSteps_invariant stepKeepsInvariant (resetMeetsInvariant c epoch es hl) hrun).laws

end Sys2Proof.Machine
end

section
/-! PROOFS. What the engine steps leave alone (10_state.md R21, R30, R33, R34, R38) and how STATE moves (R24). -/

namespace Sys2Proof.Machine

/-- Settles O28: of the effects of `ExecStep` only CLEAR's names an operand. -/
theorem onlyClearWritesOperands : Obligations.OnlyClearWritesOperands := by
  intro i s t h
  refine ⟨fun hi => ?_, exec_frame h⟩
  cases exec_inv h with
  | clear _ => exact absurd rfl hi
  | unpadStep _ => simp
  | decUnpad _ => simp
  | _ => exact ⟨rfl, rfl, rfl, rfl⟩

/-- The UNPAD step keeps CHAIN, or enters FAILED (R140, R222). -/
theorem State.unpadStep_chain (s : State) (m : Nat) :
    (s.unpadStep m).chain = s.chain ∨
    ((s.unpadStep m).phase = .failed ∧ (s.unpadStep m).chain = List.replicate s.config.L 0) := by
  rcases s.unpadStep_cases m with ⟨r, -, he⟩ | ⟨k, -, he⟩ <;> rw [he]
  · exact .inl rfl
  · exact .inr ⟨rfl, rfl⟩

/-- Settles O29: of the steps of these commands only entry to FAILED writes CHAIN, and none writes a counter. -/
theorem cipherlessCommandsLeaveChainAndCounters : Obligations.CipherlessCommandsLeaveChainAndCounters := by
  intro i s t henc hdec h
  cases exec_inv h with
  | raised _ => exact ⟨rfl, rfl, .inr ⟨rfl, rfl⟩⟩
  | unpadStep _ => exact ⟨by simp, by simp, s.unpadStep_chain _⟩
  | encOk _ _ | encPadStep _ | encStep _ => exact absurd rfl henc
  | decOk _ _ | decStep _ | decUnpad _ => exact absurd rfl hdec
  | _ => exact ⟨rfl, rfl, .inl rfl⟩

/-! ### The transition relation of STATE -/

/-- The VALIDATE step of every command is its checks, in the order of R193, and its success rule, which goes where R24
says. -/
theorem exec_validate {i : Instr} {s : State} (hd : decode s.cmd = .ok i) (hp : s.phase = .validate) :
    ∃ checks passed, exec i s = .next (s.validateStep checks passed) ∧
      validateError i s = firstError checks ∧ passed.phase = phaseAfterValidate i s := by
  cases i with
  | clear => exact ⟨[], s.clearValidated, execClear_validate hp, validateError_clear s, rfl⟩
  | pad bl =>
    obtain ⟨hbl, hne⟩ := blField_of_decode_pad hd
    exact ⟨_, _, execPad_validate bl hp, validateError_pad s hbl hne, rfl⟩
  | unpad bl =>
    obtain ⟨-, hne⟩ := blField_of_decode_unpad hd
    exact ⟨_, _, execUnpad_validate bl hp, validateError_unpad s hne, rfl⟩
  | xor => exact ⟨_, _, execXor_validate hp, validateError_xor s, rfl⟩
  | cbcEnc => exact ⟨_, _, execCbcEnc_validate hp, validateError_cbcEnc s, rfl⟩
  | cbcDec => exact ⟨_, _, execCbcDec_validate hp, validateError_cbcDec s, rfl⟩

theorem exec_phase_validate {i : Instr} {s t : State} (hd : decode s.cmd = .ok i) (hp : s.phase = .validate)
    (hx : exec i s = .next t) : phaseAfter i s = some t.phase := by
  obtain ⟨checks, passed, he, herr, hphase⟩ := exec_validate hd hp
  cases he.symm.trans hx
  simp only [phaseAfter, hp, herr]
  rcases s.validateStep_cases passed checks with ⟨hc, hv⟩ | ⟨k, hc, hv⟩
  · simp [hc, hv, hphase]
  · simp [hc, hv]

/-- DONE or FAILED, as `unpad` answers (R140). -/
theorem State.unpadStep_phase (s : State) (m : Nat) :
    (s.unpadStep m).phase = if (unpad s.work m).isOk then .done else .failed := by
  rcases s.unpadStep_cases m with ⟨r, hr, he⟩ | ⟨k, hk, he⟩
  · rw [he, hr]; rfl
  · rw [he, hk]; rfl

/-- "The last block" is "no further block", as long as IDX is below NBLK. -/
theorem State.ite_lastBlock {s : State} (h : s.idx.toNat < s.nblk.toNat) (p q : Phase) :
    (if s.lastBlock then p else q) = if s.idx.toNat + 1 < s.nblk.toNat then q else p := by
  simp only [State.lastBlock, State.blockIndex, beq_iff_eq]
  by_cases hlast : s.idx.toNat + 1 = s.nblk.toNat
  · rw [if_pos hlast, if_neg (by omega)]
  · rw [if_neg hlast, if_pos (by omega)]

/-- The rows of R24 that are engine steps. -/
theorem EngineInv.phase_of_exec {i : Instr} {s t : State} (h : EngineInv s) (hd : decode s.cmd = .ok i)
    (hx : exec i s = .next t) : phaseAfter i s = some t.phase := by
  by_cases hv : s.phase = .validate
  · exact exec_phase_validate hd hv hx
  cases exec_inv hx with
  | raised hp | clear hp => exact absurd hp hv
  | padOk hp _ | unpadOk hp _ | xorOk hp _ | encOk hp _ | decOk hp _ => exact absurd hp hv
  | padStep hp | encPadStep hp => simp [phaseAfter, hp, phaseAfterPad]
  | xorStep hp => simp [phaseAfter, hp, phaseAfterProcess]
  | encStep hp =>
    obtain ⟨hlt, -⟩ := h.cbc_process hp hd (.inl rfl)
    simp [phaseAfter, hp, phaseAfterProcess, State.ite_lastBlock hlt]
  | decStep hp =>
    obtain ⟨hlt, -⟩ := h.cbc_process hp hd (.inr rfl)
    simp [phaseAfter, hp, phaseAfterProcess, State.ite_lastBlock hlt]
  | unpadStep hp | decUnpad hp => simp [phaseAfter, hp, phaseAfterUnpad, State.unpadStep_phase]

/-- What R24 says of the engine's turn. -/
def turnTransition (s t : State) : Prop :=
  if s.busy then
    match decode s.cmd with
    | .ok i => phaseAfter i s = some t.phase
    | .error _ => s.phase = .validate ∧ t.phase = .failed
  else t.phase = s.phase

theorem EngineInv.turnTransition_of_eventStep {s t : State} (h : EngineInv s) (he : EventStep s t) :
    turnTransition s t := by
  cases he with
  | command hb hd hx =>
    rw [turnTransition, if_pos hb, hd]
    exact h.phase_of_exec hd hx
  | illegal hp hd =>
    rw [turnTransition, if_pos (by rw [State.busy, hp]; rfl), hd]
    exact ⟨hp, rfl⟩
  | idle hb => rw [turnTransition, if_neg (by simp [hb])]

/-- A host access moves STATE by reset and by an accepted CMD write only. -/
theorem State.hostAccess_phase (s : State) {x : Access} (hr : x ≠ .reset) (hc : ∀ v, x ≠ .regWrite 0x00 v) :
    (s.hostAccess x).phase = s.phase := by
  cases x with
  | regRead off => rfl
  | regWrite off v =>
    rcases s.regWrite_cases off v with ⟨-, hoff, -⟩ | ⟨-, -, he⟩ | ⟨-, -, he⟩ | he
    · exact absurd (hoff ▸ rfl) (hc v)
    all_goals rw [State.hostAccess, he]
  | memRead space addr => rfl
  | memWrite space addr v =>
    rcases s.memWrite_cases space addr v with ⟨-, -, -, he⟩ | ⟨-, -, -, he⟩ | he <;> rw [State.hostAccess, he]
  | reset => exact absurd rfl hr

theorem State.regWrite_cmd_phase (s : State) (v : Word) :
    if s.busy then (s.regWrite 0x00 v).phase = s.phase else (s.regWrite 0x00 v).phase = .validate := by
  split
  · next hb => rw [State.regWrite_busy hb]
  · next hb => rw [State.regWrite_cmd (by simpa using hb), State.commandStart_phase]

/-- The rows of R24 for the host's events. -/
theorem stateTransition_hostAccess {s : State} {x : Access} {rest : List Event} (he : s.events = .host x :: rest) :
    stateTransition s (({ s with events := rest } : State).hostAccess x) := by
  rw [stateTransition, he]
  split
  · next heq => cases heq; rfl
  · next heq => cases heq; exact State.regWrite_cmd_phase { s with events := rest } _
  · next hreset hcmd heq => cases heq; exact State.hostAccess_phase { s with events := rest } hreset hcmd
  · next hhost => exact absurd rfl (hhost x rest)

/-- Settles O31: an engine turn moves STATE as the decoded command's row of R24 says, a host access as its own. -/
theorem transitionRelation : Obligations.TransitionRelation := by
  intro s t h hs
  obtain ⟨-, ⟨he, hev⟩ | ⟨rest, he, hev⟩ | ⟨x, rest, he, rfl⟩⟩ := step_inv hs
  · rw [stateTransition, he]
    exact h.turnTransition_of_eventStep hev
  · rw [stateTransition, he]
    exact (h.withEvents rest).turnTransition_of_eventStep hev
  · exact stateTransition_hostAccess he

end Sys2Proof.Machine
end

section
/-! PROOFS. The register map (10_state.md R26, R28, R37) and the reset values (R45). -/

namespace Sys2Proof.Machine

theorem State.statusWord_busy_bit (s : State) : s.statusWord.toNat / 8 = 1 ↔ s.busy = true := by
  rw [State.statusWord_eq, State.busy]
  cases s.phase <;> decide

theorem State.regRead_lengths {s : State} (hl : s.config.legal = true) :
    (s.regRead 0x20).toNat = s.config.L ∧ (s.regRead 0x24).toNat = s.config.CAP := by
  obtain ⟨-, hL, hcap, -⟩ := (legal_iff _).mp hl
  exact ⟨toNat_ofNat_of_le_cap hl (by omega), toNat_ofNat_of_le_cap hl le_rfl⟩

/-- An offset that is no register's reads 0 (R37, R67). -/
theorem State.regRead_other (s : State) {off : Nat} (h : off % 4 ≠ 0 ∨ 0x28 ≤ off) : s.regRead off = 0 := by
  unfold State.regRead
  split
  case h_11 => rfl
  all_goals omega

/-- A write to such an offset is ignored (R37, R202). -/
theorem State.regWrite_other (s : State) {off : Nat} (h : off % 4 ≠ 0 ∨ 0x28 ≤ off) (v : Word) :
    s.regWrite off v = s := by
  rcases s.regWrite_cases off v with ⟨-, hoff, -⟩ | ⟨-, hoff, -⟩ | ⟨-, hoff, -⟩ | he
  · omega
  · omega
  · omega
  · exact he

/-- Settles O14. -/
theorem registerMap : Obligations.RegisterMap := fun s =>
  ⟨rfl, s.statusWord_eq, s.statusWord_busy_bit, s.errWord_toNat, rfl, rfl, rfl, rfl, rfl, State.regRead_lengths,
    fun _ h => ⟨s.regRead_other h, s.regWrite_other h⟩⟩

/-- Settles O15: each value is that of `State.resetWith`. -/
theorem resetValues : Obligations.ResetValues := fun _ =>
  ⟨rfl, State.statusWord_eq _, State.errWord_none rfl, rfl, rfl, rfl, rfl, rfl, rfl, rfl, Memory.read_zeros, rfl, rfl,
    rfl, rfl⟩

end Sys2Proof.Machine
end

section
/-! PROOFS. The host's accesses to the buffers and the order of events (20_memory.md): what a read answers (R64), what
a write stores (R65), operands that stay while the engine is busy (R70), one event a step (R72), and a schedule that
does not matter (R74). -/

namespace Sys2Proof.Machine

/-! ### One event a step (R72, R194) -/

theorem step_noEvents {s : State} (hl : s.config.legal = true) (he : s.events = []) : step s = engineTurn s := by
  simp [step, hl, nextEvent, he]

theorem step_engineEvent {s : State} {rest : List Event} (hl : s.config.legal = true)
    (he : s.events = .engine :: rest) : step s = engineTurn { s with events := rest } := by
  simp [step, hl, nextEvent, he]

theorem step_hostEvent {s : State} {x : Access} {rest : List Event} (hl : s.config.legal = true)
    (he : s.events = .host x :: rest) : step s = .next (({ s with events := rest } : State).hostAccess x) := by
  simp [step, hl, nextEvent, he]

theorem engineTurn_quiescent {s : State} (hb : s.busy = false) : engineTurn s = .next s := by
  simp [engineTurn, hb]

theorem Phase.busy_eq_false_iff (p : Phase) : p.busy = false ↔ p = .idle ∨ p = .done ∨ p = .failed := by
  cases p <;> decide

/-- No command's meaning has an arm for a quiescent state: each falls through to `offPath` (R194). -/
theorem exec_quiescent (i : Instr) {s : State} (hb : s.busy = false) : exec i s = .fault .noStep := by
  rcases s.phase.busy_eq_false_iff.mp hb with hp | hp | hp
  all_goals
    cases i <;> simp only [exec, execClear, execPad, execUnpad, execXor, execCbcEnc, execCbcDec, hp] <;> rfl

/-- Settles O7: the step is the first entry of the schedule, and a quiescent engine's turn is no change. -/
theorem hostAccessesAndIdleTurns : Obligations.HostAccessesAndIdleTurns :=
  ⟨fun i _ hb => exec_quiescent i hb, fun _ hl =>
    ⟨fun _ _ he => step_hostEvent hl he, fun hb =>
      ⟨fun he => (step_noEvents hl he).trans (engineTurn_quiescent hb),
        fun _ he => (step_engineEvent hl he).trans (engineTurn_quiescent hb)⟩⟩⟩

/-! ### Buffer writes (R65) -/

theorem State.memWrite_a {s : State} (hb : s.busy = false) {addr : Nat} (h : addr < s.config.CAP) (v : Byte) :
    s.memWrite .a addr v = { s with a := s.a.write addr v } := by
  simp [State.memWrite, hb, h]

theorem State.memWrite_b {s : State} (hb : s.busy = false) {addr : Nat} (h : addr < s.config.CAP) (v : Byte) :
    s.memWrite .b addr v = { s with b := s.b.write addr v } := by
  simp [State.memWrite, hb, h]

@[simp] theorem State.memWrite_out (s : State) (addr : Nat) (v : Byte) : s.memWrite .out addr v = s := by
  simp [State.memWrite]

theorem State.memWrite_outOfRange {s : State} {addr : Nat} (h : s.config.CAP ≤ addr) (space : Space) (v : Byte) :
    s.memWrite space addr v = s := by
  simp [State.memWrite, h]

/-- Settles O12: the one field an accepted write names reads back by `Memory.read_write`, and the result is not read
from it. -/
theorem bufferWriteStoresOneByte : Obligations.BufferWriteStoresOneByte := by
  refine fun s addr v => ⟨fun hb hin => ⟨?_, ?_⟩, ?_⟩
  · rw [State.memWrite_a hb hin]
    exact ⟨rfl, fun other => Memory.read_write s.a addr other v, rfl⟩
  · rw [State.memWrite_b hb hin]
    exact ⟨rfl, fun other => Memory.read_write s.b addr other v, rfl⟩
  · rintro space (hb | hout | rfl)
    · exact State.memWrite_busy hb space addr v
    · exact State.memWrite_outOfRange hout space v
    · exact s.memWrite_out addr v

/-! ### Reads (R64, R41) -/

theorem State.memRead_out_shown {s : State} {addr : Nat} (hp : s.phase = .done) (hlen : addr < s.lenOut.toNat)
    (hin : addr < s.config.CAP) : s.memRead .out addr = s.w.read addr :=
  if_pos ⟨hp, hlen, hin⟩

theorem State.memRead_out_hidden {s : State} {addr : Nat}
    (h : s.phase ≠ .done ∨ s.lenOut.toNat ≤ addr ∨ s.config.CAP ≤ addr) : s.memRead .out addr = 0 := by
  refine if_neg ?_
  rintro ⟨hp, hlen, hin⟩
  rcases h with hp' | hlen' | hin'
  · exact hp' hp
  · omega
  · omega

/-- Settles O13: a read's answer is a function of the state, and the OUT window is gated. -/
theorem readsAnswerAndChangeNothing : Obligations.ReadsAnswerAndChangeNothing := fun s =>
  ⟨fun _ => ⟨rfl, rfl⟩, fun _ _ => rfl, fun _ => rfl, fun _ => rfl, fun _ => State.memRead_out_shown,
    fun _ => State.memRead_out_hidden, s.memWrite_out⟩

/-! ### Operands while busy (R70) -/

theorem EventStep.operands_eq {s t : State} (h : EventStep s t) (hc : decode s.cmd ≠ .ok .clear) :
    t.a = s.a ∧ t.b = s.b ∧ t.lenA = s.lenA ∧ t.lenB = s.lenB ∧ t.cmd = s.cmd := by
  cases h with
  | command _ hd hx =>
    obtain ⟨hoperands, hcmd, -⟩ := onlyClearWritesOperands _ _ _ hx
    obtain ⟨ha, hb, hlenA, hlenB⟩ := hoperands fun hi => hc (hi ▸ hd)
    exact ⟨ha, hb, hlenA, hlenB, hcmd⟩
  | illegal _ _ => exact ⟨rfl, rfl, rfl, rfl, rfl⟩
  | idle _ => exact ⟨rfl, rfl, rfl, rfl, rfl⟩

/-- Settles O30: the engine's step leaves the operands of every command but CLEAR, and a busy engine drops the host's
accesses. -/
theorem operandsStableWhileBusy : Obligations.OperandsStableWhileBusy := by
  intro s t hb hc hreset hs
  obtain ⟨-, ⟨-, hev⟩ | ⟨rest, -, hev⟩ | ⟨x, rest, he, rfl⟩⟩ := step_inv hs
  · exact hev.operands_eq hc
  · exact hev.operands_eq hc
  · have hx : x ≠ .reset := by
      rintro rfl
      exact hreset rest he
    rw [State.hostAccess_busy (s := { s with events := rest }) hb hx]
    exact ⟨rfl, rfl, rfl, rfl, rfl⟩

/-! ### The schedule does not matter (R74) -/

@[simp] theorem engineTurns_host (x : Access) (es : List Event) : engineTurns (.host x :: es) = engineTurns es := rfl

@[simp] theorem engineTurns_engine (es : List Event) : engineTurns (.engine :: es) = engineTurns es + 1 := by
  simp [engineTurns]

@[simp] theorem engineTurns_concat_engine (es : List Event) :
    engineTurns (es ++ [.engine]) = engineTurns es + 1 := by
  simp [engineTurns]

theorem EventStep.events_eq {s t : State} (h : EventStep s t) : t.events = s.events := by
  cases h with
  | command _ _ hx =>
    obtain ⟨-, -, hevents, -⟩ := exec_frame hx
    exact hevents
  | illegal _ _ => rfl
  | idle _ => rfl

/-- With no host move pending a step is the engine's turn, and none comes to be pending. -/
theorem engineTurn_of_step {s t : State} (he : s.events = []) (h : step s = .next t) :
    engineTurn s = .next t ∧ t.events = [] := by
  obtain ⟨hl, -⟩ := step_inv h
  have hturn : engineTurn s = .next t := step_noEvents hl he ▸ h
  exact ⟨hturn, (engineTurn_inv hturn).events_eq.trans he⟩

theorem runSteps_succ_inv {k : Nat} {s t : State} (h : runSteps (k + 1) s = .next t) :
    ∃ u, step s = .next u ∧ runSteps k u = .next t := by
  simp only [runSteps] at h
  cases hs : step s with
  | next u => exact ⟨u, rfl, by simpa [hs] using h⟩
  | fault f => simp [hs] at h
  | refused r => simp [hs] at h

/-- As long as the engine is busy at every event of the list, the host's accesses fall away and the engine's turns are
its steps alone. -/
theorem State.afterEvents_of_busy {s v : State} {es : List Event} (he : s.events = []) (hreset : .host .reset ∉ es)
    (hbusy : ∀ j, j ≤ engineTurns es → ∃ u, runSteps j s = .next u ∧ u.busy = true)
    (hrun : runSteps (engineTurns es) s = .next v) : s.afterEvents es = .next v ∧ v.events = [] := by
  induction es generalizing s with
  | nil =>
    cases hrun
    exact ⟨rfl, he⟩
  | cons e es ih =>
    have htail := List.not_mem_of_not_mem_cons hreset
    cases e with
    | host x =>
      have hb : s.busy = true := by
        obtain ⟨u, hu, hb⟩ := hbusy 0 (Nat.zero_le _)
        cases hu
        exact hb
      have hx : x ≠ .reset := by
        rintro rfl
        exact hreset List.mem_cons_self
      rw [State.afterEvents_host, State.hostAccess_busy hb hx]
      exact ih he htail hbusy hrun
    | engine =>
      rw [engineTurns_engine] at hbusy hrun
      obtain ⟨t, hs, hrest⟩ := runSteps_succ_inv hrun
      obtain ⟨hturn, het⟩ := engineTurn_of_step he hs
      rw [State.afterEvents_engine hturn]
      refine ih het htail (fun j hj => ?_) hrest
      rw [← runSteps_succ hs]
      exact hbusy (j + 1) (Nat.succ_le_succ hj)

/-- The last turn may leave the engine quiescent, since no host access comes after it. -/
theorem State.afterEvents_concat_engine_of_busy {s u : State} {es : List Event} (he : s.events = [])
    (hreset : .host .reset ∉ es) (hbusy : ∀ j, j ≤ engineTurns es → ∃ v, runSteps j s = .next v ∧ v.busy = true)
    (hrun : runSteps (engineTurns es + 1) s = .next u) : s.afterEvents (es ++ [.engine]) = .next u := by
  obtain ⟨v, hv, hlast⟩ := runSteps_split hrun
  obtain ⟨t, hs, ht⟩ := runSteps_succ_inv hlast
  cases ht
  obtain ⟨hes, hev⟩ := State.afterEvents_of_busy he hreset hbusy hv
  obtain ⟨hturn, -⟩ := engineTurn_of_step hev hs
  rw [State.afterEvents_append hes, State.afterEvents_engine hturn, State.afterEvents_nil]

/-- Settles O40: the events in order are the schedule's run, and they end with an engine turn. -/
theorem scheduleIndependence : Obligations.ScheduleIndependence := by
  intro s u es hl hreset hlast hbusy hrun
  obtain ⟨fs, rfl⟩ := List.getLast?_eq_some_iff.mp hlast
  rw [engineTurns_concat_engine] at hbusy hrun
  have hevents : ({ s with events := [] } : State).afterEvents (fs ++ [.engine]) = .next u :=
    State.afterEvents_concat_engine_of_busy rfl (fun h => hreset (List.mem_append_left _ h))
      (fun j hj => hbusy j (Nat.lt_succ_of_le hj)) hrun
  have hschedule := runSteps_schedule (s := { s with events := [] }) hl hevents []
  rw [List.append_nil] at hschedule
  exact ⟨_, hschedule, rfl⟩

end Sys2Proof.Machine
end

section
/-! PROOFS. The command word (30_encoding.md): what its fields are, the decoder as a statement about them (R93, R97,
R99), and the opcode map (R96, R98). -/

namespace Sys2Proof

/-! ### The fields of a word (R93) -/

theorem opField_toNat (w : Word) : (opField w).toNat = w.toNat % 256 := by
  simp [opField]

theorem blField_toNat (w : Word) : (blField w).toNat = w.toNat / 256 % 256 := by
  simp [blField, Nat.shiftRight_eq_div_pow]

theorem rsvField_toNat (w : Word) : (rsvField w).toNat = w.toNat / 65536 := by
  simp [rsvField, Nat.shiftRight_eq_div_pow]
  omega

theorem opField_eq_iff (w : Word) (op : BitVec 8) : opField w = op ↔ w.toNat % 256 = op.toNat := by
  rw [← BitVec.toNat_inj, opField_toNat]

theorem blField_eq_iff (w : Word) (bl : BitVec 8) : blField w = bl ↔ w.toNat / 256 % 256 = bl.toNat := by
  rw [← BitVec.toNat_inj, blField_toNat]

theorem rsvField_eq_iff (w : Word) (rsv : BitVec 16) : rsvField w = rsv ↔ w.toNat / 65536 = rsv.toNat := by
  rw [← BitVec.toNat_inj, rsvField_toNat]

/-- A word is its three fields. -/
theorem word_eq_iff {v w : Word} :
    v = w ↔ opField v = opField w ∧ blField v = blField w ∧ rsvField v = rsvField w := by
  refine ⟨fun h => h ▸ ⟨rfl, rfl, rfl⟩, fun ⟨hop, hbl, hrsv⟩ => BitVec.eq_of_toNat_eq ?_⟩
  rw [opField_eq_iff, opField_toNat] at hop
  rw [blField_eq_iff, blField_toNat] at hbl
  rw [rsvField_eq_iff, rsvField_toNat] at hrsv
  omega

/-- BL of a command: its operand in format B, 0 in format N (R91, R92). -/
def Instr.operand : Instr → BitVec 8
  | .pad bl => bl
  | .unpad bl => bl
  | .clear => 0
  | .xor => 0
  | .cbcEnc => 0
  | .cbcDec => 0

theorem encode_toNat (i : Instr) : (encode i).toNat = i.opcode.toNat + 256 * i.operand.toNat := by
  cases i with
  | pad bl | unpad bl =>
    have hbl := bl.isLt
    simp only [encode, Instr.opcode, Instr.operand, BitVec.toNat_add, BitVec.toNat_ofNat]
    omega
  | _ => rfl

@[simp] theorem opField_encode (i : Instr) : opField (encode i) = i.opcode := by
  rw [opField_eq_iff, encode_toNat]
  omega

@[simp] theorem blField_encode (i : Instr) : blField (encode i) = i.operand := by
  rw [blField_eq_iff, encode_toNat]
  omega

@[simp] theorem rsvField_encode (i : Instr) : rsvField (encode i) = 0 := by
  rw [rsvField_eq_iff, encode_toNat]
  exact Nat.div_eq_of_lt (by omega)

/-! ### The decoder (R91, R92, R97, R99) -/

theorem formatN_eq_ok_iff {bl : BitVec 8} {i j : Instr} : formatN bl i = .ok j ↔ bl = 0 ∧ i = j := by
  unfold formatN
  split <;> simp_all

theorem formatB_eq_ok_iff {bl : BitVec 8} {i j : Instr} : formatB bl i = .ok j ↔ bl ≠ 0 ∧ i = j := by
  unfold formatB
  split <;> simp_all

theorem formatN_eq_error_iff {bl : BitVec 8} {i : Instr} : (∃ e, formatN bl i = .error e) ↔ bl ≠ 0 := by
  unfold formatN
  split <;> simp_all

theorem formatB_eq_error_iff {bl : BitVec 8} {i : Instr} : (∃ e, formatB bl i = .error e) ↔ bl = 0 := by
  unfold formatB
  split <;> simp_all

/-- A decoded word has its command's fields. -/
theorem fields_of_decode {w : Word} {i : Instr} (h : decode w = .ok i) :
    i.wf = true ∧ opField w = i.opcode ∧ blField w = i.operand ∧ rsvField w = 0 := by
  have hop := opField_of_decode h
  unfold decode at h
  split_ifs at h with hrsv
  all_goals
    simp only [formatN_eq_ok_iff, formatB_eq_ok_iff] at h
    obtain ⟨hbl, rfl⟩ := h
    simp_all [Instr.wf, Instr.operand]

/-- The decoder answers the command with the word's fields (R99). -/
theorem decode_eq_ok_iff {w : Word} {i : Instr} : decode w = .ok i ↔
    i.wf = true ∧ opField w = i.opcode ∧ blField w = i.operand ∧ rsvField w = 0 := by
  refine ⟨fields_of_decode, fun ⟨hwf, hop, hbl, hrsv⟩ => ?_⟩
  cases i <;>
    simp_all [decode, Instr.opcode, Instr.operand, Instr.wf, formatN_eq_ok_iff, formatB_eq_ok_iff]

/-- Settles O2: the decoder reads the fields, the encoder writes them, and a word is its fields. -/
theorem decodeEncodeRoundTrip : Obligations.DecodeEncodeRoundTrip := by
  refine ⟨fun i hwf => decode_eq_ok_iff.mpr (by simp [hwf]), fun w i h => ?_⟩
  obtain ⟨hwf, hop, hbl, hrsv⟩ := decode_eq_ok_iff.mp h
  exact ⟨hwf, word_eq_iff.mpr (by simp [hop, hbl, hrsv])⟩

/-- The four conditions of R97. -/
theorem decode_error_iff (w : Word) : (∃ e, decode w = .error e) ↔
    (w.toNat / 65536 ≠ 0 ∨ 6 ≤ w.toNat % 256 ∨
      ((w.toNat % 256 = 0 ∨ w.toNat % 256 = 3 ∨ w.toNat % 256 = 4 ∨ w.toNat % 256 = 5) ∧
        w.toNat / 256 % 256 ≠ 0) ∨
      ((w.toNat % 256 = 1 ∨ w.toNat % 256 = 2) ∧ w.toNat / 256 % 256 = 0)) := by
  unfold decode
  split_ifs
  all_goals
    simp only [formatN_eq_error_iff, formatB_eq_error_iff, opField_eq_iff, blField_eq_iff, rsvField_eq_iff, ne_eq,
      BitVec.ofNat_eq_ofNat, BitVec.toNat_ofNat, Except.error.injEq, exists_eq', true_iff] at *
    omega

end Sys2Proof

namespace Sys2Proof.Machine

/-- Settles O3: the decoder's refusals are R97's conditions, and VALIDATE of a refused word raises before any check. -/
theorem illegalWordsExactly : Obligations.IllegalWordsExactly := by
  refine ⟨decode_error_iff, fun s w e hb _ => ?_, fun s e hp hd => ⟨?_, ?_⟩⟩
  · rw [State.regWrite_cmd hb]
    exact ⟨rfl, rfl⟩
  · rw [engineStep, hd, illegalStep, hp]
  · rw [enginePortCall, hd]

end Sys2Proof.Machine

namespace Sys2Proof

/-! ### The opcode map (R96, R98) -/

theorem opField_and (v w : Word) : opField (v &&& w) = opField v &&& opField w := BitVec.extractLsb'_and

theorem blField_and (v w : Word) : blField (v &&& w) = blField v &&& blField w := BitVec.extractLsb'_and

theorem rsvField_and (v w : Word) : rsvField (v &&& w) = rsvField v &&& rsvField w := BitVec.extractLsb'_and

/-- The mask of every row leaves OP and RSV, and BL where the format has no operand. -/
theorem OpcodeRow.mask_fields : ∀ r ∈ opcodeMap,
    opField r.maskBits = BitVec.allOnes 8 ∧ rsvField r.maskBits = BitVec.allOnes 16 ∧ rsvField r.matchBits = 0 ∧
    blField r.matchBits = 0 ∧ blField r.maskBits = if r.needsBlockLen then 0 else BitVec.allOnes 8 := by
  decide

/-- A row selects the words with its opcode, RSV zero and BL as its format asks. -/
theorem OpcodeRow.selects_iff_fields {r : OpcodeRow} (hr : r ∈ opcodeMap) (w : Word) :
    r.selects w = true ↔ opField w = opField r.matchBits ∧ rsvField w = 0 ∧
      if r.needsBlockLen then blField w ≠ 0 else blField w = 0 := by
  obtain ⟨hop, hrsv, hrsv0, hbl0, hbl⟩ := r.mask_fields hr
  simp only [OpcodeRow.selects, Bool.and_eq_true, beq_iff_eq, word_eq_iff, opField_and, blField_and, rsvField_and,
    hop, hrsv, hrsv0, hbl0, hbl, BitVec.and_allOnes]
  cases r.needsBlockLen with
  | true => simp [and_assoc]
  | false =>
    simp only [Bool.false_eq_true, if_false, BitVec.and_allOnes, Bool.not_false, Bool.true_or, and_true]
    tauto

/-- Every row is some command's. -/
theorem OpcodeRow.exists_command {r : OpcodeRow} (hr : r ∈ opcodeMap) {bl : BitVec 8}
    (hbl : if r.needsBlockLen then bl ≠ 0 else bl = 0) :
    ∃ i : Instr, i.mnemonic = r.mnemonic ∧ i.wf = true ∧ opField r.matchBits = i.opcode ∧ bl = i.operand := by
  simp only [opcodeMap, List.mem_cons, List.not_mem_nil, or_false] at hr
  rcases hr with rfl | rfl | rfl | rfl | rfl | rfl
  · exact ⟨.clear, rfl, rfl, rfl, hbl⟩
  · exact ⟨.pad bl, rfl, bne_iff_ne.mpr hbl, rfl, rfl⟩
  · exact ⟨.unpad bl, rfl, bne_iff_ne.mpr hbl, rfl, rfl⟩
  · exact ⟨.xor, rfl, rfl, rfl, hbl⟩
  · exact ⟨.cbcEnc, rfl, rfl, rfl, hbl⟩
  · exact ⟨.cbcDec, rfl, rfl, rfl, hbl⟩

/-- The row of a command's mnemonic has its opcode and its format. -/
theorem Instr.row_fields {i : Instr} (hwf : i.wf = true) : ∀ r ∈ opcodeMap, i.mnemonic = r.mnemonic →
    i.opcode = opField r.matchBits ∧ if r.needsBlockLen then i.operand ≠ 0 else i.operand = 0 := by
  cases i with
  | pad bl | unpad bl =>
    have hbl : bl ≠ 0 := bne_iff_ne.mp hwf
    simpa [opcodeMap, Instr.mnemonic, Instr.opcode, Instr.operand] using ⟨rfl, hbl⟩
  | clear | xor | cbcEnc | cbcDec => decide

/-- A row selects the words of its command. -/
theorem OpcodeRow.selects_iff_decode {r : OpcodeRow} (hr : r ∈ opcodeMap) (w : Word) :
    r.selects w = true ↔ ∃ i, decode w = .ok i ∧ i.mnemonic = r.mnemonic := by
  rw [OpcodeRow.selects_iff_fields hr]
  constructor
  · rintro ⟨hop, hrsv, hbl⟩
    obtain ⟨i, hm, hwf, hopcode, hoperand⟩ := OpcodeRow.exists_command hr hbl
    exact ⟨i, decode_eq_ok_iff.mpr ⟨hwf, hop.trans hopcode, hoperand, hrsv⟩, hm⟩
  · rintro ⟨i, hd, hm⟩
    obtain ⟨hwf, hop, hbl, hrsv⟩ := decode_eq_ok_iff.mp hd
    rw [hop, hbl]
    obtain ⟨hopcode, hoperand⟩ := i.row_fields hwf r hr hm
    exact ⟨hopcode, hrsv, hoperand⟩

/-- Settles O4: the rows that select a decoded word are those of its mnemonic, and each mnemonic has one row. -/
theorem opcodeMapIsTheDecoder : Obligations.OpcodeMapIsTheDecoder := by
  refine fun w => ⟨fun i hd => ?_, fun e hd => ?_⟩
  · have hrows : (opcodeMap.filter fun r => r.selects w) = opcodeMap.filter fun r => i.mnemonic == r.mnemonic :=
      List.filter_congr fun r hr => by
        rw [Bool.eq_iff_iff, OpcodeRow.selects_iff_decode hr, beq_iff_eq, hd]
        simp
    rw [hrows]
    cases i <;> rfl
  · refine List.filter_eq_nil_iff.mpr fun r hr => ?_
    rw [OpcodeRow.selects_iff_decode hr, hd]
    simp

end Sys2Proof
end

section
/-! PROOFS. A command runs to its end (44_control.md R195, R196), and so does the polling loop of RUN (30_encoding.md
R102), at every speed of the host. -/

namespace Sys2Proof.Machine

/-! ### A run of engine turns that ends -/

/-- `n` engine turns bring `s` to the quiescent state `t`, and the engine is busy before each of them. -/
inductive EndsIn : Nat → State → State → Prop where
  | quiescent {s : State} (hb : s.busy = false) : EndsIn 0 s s
  | turn {n : Nat} {s u t : State} (hb : s.busy = true) (hturn : engineTurn s = .next u) (hrest : EndsIn n u t) :
      EndsIn (n + 1) s t

theorem EndsIn.busy_iff {n : Nat} {s t : State} (h : EndsIn n s t) : s.busy = true ↔ 0 < n := by
  cases h with
  | quiescent hb => simp [hb]
  | turn hb _ _ => simp [hb]

theorem EndsIn.eq_of_quiescent {n : Nat} {s t : State} (h : EndsIn n s t) (hb : s.busy = false) : s = t := by
  cases h with
  | quiescent _ => rfl
  | turn hb' _ _ => simp [hb] at hb'

/-- Some turns on the way to the end, or past it (log entry 5). -/
theorem EndsIn.after_turns {n : Nat} {s t : State} (h : EndsIn n s t) (turns : Nat) :
    ∃ u, s.afterEvents (List.replicate turns .engine) = .next u ∧ EndsIn (n - turns) u t := by
  induction turns generalizing n s with
  | zero => exact ⟨s, rfl, h⟩
  | succ turns ih =>
    rw [List.replicate_succ]
    cases h with
    | quiescent hb =>
      obtain ⟨u, hu, hends⟩ := ih (.quiescent hb)
      exact ⟨u, (State.afterEvents_engine (engineTurn_quiescent hb) _).trans hu, by simpa using hends⟩
    | turn _ hturn hrest =>
      obtain ⟨u, hu, hends⟩ := ih hrest
      exact ⟨u, (State.afterEvents_engine hturn _).trans hu, by simpa using hends⟩

/-! ### The polling loop (R102) -/

theorem afterEvents_pollOnce {s u : State} {turns : Nat}
    (h : s.afterEvents (List.replicate turns .engine) = .next u) : s.afterEvents (pollOnce turns) = .next u :=
  State.afterEvents_append h _

/-- The loop ends when its reads leave the engine turns enough, and it leaves the engine where its command ends. -/
theorem EndsIn.pollLoop {n : Nat} {s t : State} {pace : List Nat} (h : EndsIn n s t) (hn : n ≤ pace.sum)
    (hpace : pace ≠ []) : ∃ es, pollLoop pace s = some es ∧ s.afterEvents es = .next t := by
  induction pace generalizing n s with
  | nil => exact absurd rfl hpace
  | cons turns pace ih =>
    obtain ⟨u, hu, hends⟩ := h.after_turns turns
    rw [pollLoop_cons hu]
    cases hb : u.busy with
    | false =>
      cases hends.eq_of_quiescent hb
      exact ⟨pollOnce turns, rfl, afterEvents_pollOnce hu⟩
    | true =>
      have hleft : 0 < n - turns := hends.busy_iff.mp hb
      rw [List.sum_cons] at hn
      obtain ⟨es, hes, ht⟩ := ih hends (by omega) (by rintro rfl; simp at hn; omega)
      refine ⟨pollOnce turns ++ es, by simp [hes], ?_⟩
      rw [State.afterEvents_append (afterEvents_pollOnce hu), ht]

theorem EndsIn.pollSchedule {n : Nat} {s t : State} (h : EndsIn n s t) (hn : n ≤ s.turnBound) (pace : List Nat) :
    ∃ es, pollSchedule pace s = some es ∧ s.afterEvents es = .next t := by
  refine h.pollLoop ?_ ?_
  · simp only [List.sum_append, List.sum_replicate, smul_eq_mul, mul_one]
    omega
  · simp [State.turnBound]

/-- RUNW runs to its end when the command does. -/
theorem EndsIn.scriptRunWord {n : Nat} {s t : State} {w : Word} (h : EndsIn n (s.regWrite 0x00 w) t)
    (hn : n ≤ (s.regWrite 0x00 w).turnBound) (pace : List Nat) :
    ∃ es, scriptRunWord w pace s = some es ∧ s.afterEvents es = .next t := by
  obtain ⟨es, hes, ht⟩ := h.pollSchedule hn pace
  exact ⟨.host (.regWrite 0x00 w) :: es, by simp [Machine.scriptRunWord, hes], ht⟩

/-- A read in one turn of the loop and what follows is that turn's own, or a later one. -/
theorem pollOnce_append_eq {turns : Nat} {fs pre rest : List Event}
    (h : pollOnce turns ++ fs = pre ++ .host (.regRead 0x04) :: rest) :
    (pre = List.replicate turns .engine ∧ rest = fs) ∨
    ∃ pre', pre = pollOnce turns ++ pre' ∧ fs = pre' ++ .host (.regRead 0x04) :: rest := by
  induction turns generalizing pre with
  | zero =>
    rcases List.cons_eq_append_iff.mp h with ⟨rfl, hfs⟩ | ⟨pre', rfl, hfs⟩
    · cases hfs
      exact .inl ⟨rfl, rfl⟩
    · exact .inr ⟨pre', rfl, hfs⟩
  | succ turns ih =>
    rcases List.cons_eq_append_iff.mp h with ⟨-, hfs⟩ | ⟨pre', rfl, hfs⟩
    · cases hfs
    · exact (ih hfs).imp (fun ⟨hpre, hrest⟩ => ⟨congrArg _ hpre, hrest⟩)
        (fun ⟨pre'', hpre, hfs⟩ => ⟨pre'', congrArg _ hpre, hfs⟩)

/-- Every read of the loop but the last shows BUSY = 1. -/
theorem pollLoop_busy {pace : List Nat} {s v : State} {es pre rest : List Event} (h : pollLoop pace s = some es)
    (hread : es = pre ++ .host (.regRead 0x04) :: rest) (hrest : rest ≠ []) (hv : s.afterEvents pre = .next v) :
    v.busy = true := by
  induction pace generalizing s es pre with
  | nil => cases h
  | cons turns pace ih =>
    cases ht : s.afterEvents (List.replicate turns .engine) with
    | fault f => simp [pollLoop, ht] at h
    | refused r => simp [pollLoop, ht] at h
    | next u =>
      rw [pollLoop_cons ht] at h
      cases hb : u.busy with
      | false =>
        simp only [hb, Bool.false_eq_true, if_false, Option.some.injEq] at h
        rw [hread, ← List.append_nil (pollOnce turns)] at h
        rcases pollOnce_append_eq h with ⟨-, hnil⟩ | ⟨pre', -, hfs⟩
        · exact absurd hnil hrest
        · simp at hfs
      | true =>
        simp only [hb, if_true, Option.map_eq_some_iff] at h
        obtain ⟨fs, hfs, hes⟩ := h
        rw [hread] at hes
        rcases pollOnce_append_eq hes with ⟨rfl, -⟩ | ⟨pre', rfl, hfs'⟩
        · cases ht.symm.trans hv
          exact hb
        · rw [State.afterEvents_append (afterEvents_pollOnce ht)] at hv
          exact ih hfs hfs' hv

/-! ### Every command ends (R195) -/

/-- A bound on the engine turns still to come in a state, by STATE, `LEN_A div L` and IDX; 0 in the quiescent ones. -/
def Phase.turnsLeft (blocks idx : Nat) : Phase → Nat
  | .idle => 0
  | .validate => blocks + 3
  | .pad => blocks + 2
  | .process => max 1 (blocks + 1 - idx)
  | .unpad => 1
  | .done => 0
  | .failed => 0

def State.turnsLeft (s : State) : Nat := s.phase.turnsLeft (s.lenA.toNat / s.config.L) s.idx.toNat

theorem Phase.turnsLeft_le (blocks idx : Nat) (p : Phase) : p.turnsLeft blocks idx ≤ blocks + 3 := by
  cases p <;> simp only [Phase.turnsLeft] <;> omega

theorem Phase.turnsLeft_pos_iff (blocks idx : Nat) (p : Phase) : 0 < p.turnsLeft blocks idx ↔ p.busy = true := by
  cases p <;> simp [Phase.turnsLeft, Phase.busy]

/-- VALIDATE is the first state of every command. -/
theorem Phase.turnsLeft_lt_validate (blocks idx : Nat) {p : Phase} (hp : p ≠ .validate) :
    p.turnsLeft blocks idx < blocks + 3 := by
  cases p with
  | validate => exact absurd rfl hp
  | idle | pad | process | unpad | done | failed =>
    simp only [Phase.turnsLeft]
    omega

theorem Phase.turnsLeft_process_lt_pad (blocks idx idx' : Nat) :
    Phase.process.turnsLeft blocks idx < Phase.pad.turnsLeft blocks idx' := by
  simp only [Phase.turnsLeft]
  omega

theorem State.turnsLeft_le_turnBound (s : State) : s.turnsLeft ≤ s.turnBound := Phase.turnsLeft_le _ _ _

/-- The blocks of CBC.ENC (R167). -/
theorem EngineInv.enc_nblk {s : State} (h : EngineInv s) (hp : s.phase = .process)
    (hd : decode s.cmd = .ok .cbcEnc) : s.nblk.toNat = s.lenA.toNat / s.config.L + 1 := by
  obtain ⟨hL, -, -, -⟩ := (legal_iff _).mp h.legal
  obtain ⟨-, hmul, -⟩ := h.cbc_process hp hd (.inl rfl)
  obtain ⟨-, hwlen⟩ := h.path.process_cbcEnc hp hd
  rw [hwlen, State.paddedLen, add_padCount hL] at hmul
  exact Nat.eq_of_mul_eq_mul_right hL hmul

/-- The blocks of CBC.DEC (R170). -/
theorem EngineInv.dec_nblk {s : State} (h : EngineInv s) (hp : s.phase = .process)
    (hd : decode s.cmd = .ok .cbcDec) : s.nblk.toNat = s.lenA.toNat / s.config.L := by
  obtain ⟨hL, -, -, -⟩ := (legal_iff _).mp h.legal
  obtain ⟨-, hmul, -⟩ := h.cbc_process hp hd (.inr rfl)
  obtain ⟨-, hwlen⟩ := h.path.process_cbcDec hp hd
  rw [← hwlen, ← hmul, Nat.mul_div_cancel _ hL]

theorem State.turnsLeft_pos_iff (s : State) : 0 < s.turnsLeft ↔ s.busy = true := Phase.turnsLeft_pos_iff _ _ _

theorem State.turnsLeft_lt_of_ends {s t : State} (hb : s.busy = true) (ht : t.busy = false) :
    t.turnsLeft < s.turnsLeft := by
  have ht0 : ¬ 0 < t.turnsLeft := by rw [t.turnsLeft_pos_iff, ht]; simp
  have hs0 := s.turnsLeft_pos_iff.mpr hb
  omega

theorem State.turnsLeft_lt_of_validate {s t : State} (hp : s.phase = .validate) (ht : t.phase ≠ .validate)
    (hconfig : t.config = s.config) (hlenA : t.lenA = s.lenA) : t.turnsLeft < s.turnsLeft := by
  rw [State.turnsLeft, State.turnsLeft, hp, hconfig, hlenA]
  exact Phase.turnsLeft_lt_validate _ _ ht

/-- One block done, and another to come. -/
theorem State.turnsLeft_lt_of_process {s t : State} (hp : s.phase = .process) (ht : t.phase = .process)
    (hconfig : t.config = s.config) (hlenA : t.lenA = s.lenA) (hidx : t.idx.toNat = s.idx.toNat + 1)
    (hmore : s.idx.toNat < s.lenA.toNat / s.config.L) : t.turnsLeft < s.turnsLeft := by
  rw [State.turnsLeft, State.turnsLeft, hp, ht, hconfig, hlenA, hidx, Phase.turnsLeft, Phase.turnsLeft]
  omega

theorem State.unpadStep_quiescent (s : State) (m : Nat) : (s.unpadStep m).busy = false := by
  rcases s.unpadStep_cases m with ⟨r, -, he⟩ | ⟨k, -, he⟩ <;> rw [he] <;> rfl

/-- Every engine step of a command brings its end nearer. -/
theorem EngineInv.turnsLeft_lt {i : Instr} {s t : State} (h : EngineInv s) (hb : s.busy = true)
    (hd : decode s.cmd = .ok i) (hx : exec i s = .next t) : t.turnsLeft < s.turnsLeft := by
  cases exec_inv hx with
  | raised hp | clear hp | padStep hp | xorStep hp => exact s.turnsLeft_lt_of_ends hb rfl
  | unpadStep hp | decUnpad hp => exact s.turnsLeft_lt_of_ends hb (s.unpadStep_quiescent _)
  | padOk hp _ | unpadOk hp _ | xorOk hp _ | encOk hp _ =>
    exact State.turnsLeft_lt_of_validate hp (by simp) rfl rfl
  | decOk hp _ =>
    exact State.turnsLeft_lt_of_validate hp (by rw [State.decValidated_phase]; split <;> simp) rfl rfl
  | encPadStep hp =>
    rw [State.turnsLeft, State.turnsLeft, hp]
    exact Phase.turnsLeft_process_lt_pad _ _ _
  | encStep hp =>
    obtain ⟨hlt, -⟩ := h.cbc_process hp hd (.inl rfl)
    obtain ⟨-, hidx, hlast⟩ := h.block_process hp hd (.inl rfl)
    have hnblk := h.enc_nblk hp hd
    cases hl : s.lastBlock with
    | true => exact s.turnsLeft_lt_of_ends hb (by simp [State.busy, hl, Phase.busy])
    | false =>
      have hmore : s.idx.toNat + 1 ≠ s.nblk.toNat := fun he => by simp [hlast.mpr he] at hl
      exact State.turnsLeft_lt_of_process hp (by simp [hl]) rfl rfl hidx (by omega)
  | decStep hp =>
    obtain ⟨hlt, -⟩ := h.cbc_process hp hd (.inr rfl)
    obtain ⟨-, hidx, hlast⟩ := h.block_process hp hd (.inr rfl)
    have hnblk := h.dec_nblk hp hd
    cases hl : s.lastBlock with
    | true =>
      have hdone := hlast.mp hl
      rw [State.turnsLeft, State.turnsLeft, hp, State.decStep_phase, if_pos hl, Phase.turnsLeft, Phase.turnsLeft]
      omega
    | false => exact State.turnsLeft_lt_of_process hp (by simp [hl]) rfl rfl hidx (by omega)

/-! ### No busy state is stuck (R194) -/

/-- In VALIDATE an illegal word has a step too. -/
theorem engineStep_validate {s : State} (hp : s.phase = .validate) : ∃ t, engineStep s = .next t := by
  unfold engineStep
  cases hd : decode s.cmd with
  | ok i =>
    obtain ⟨checks, passed, he, -⟩ := exec_validate hd hp
    exact ⟨_, he⟩
  | error e => exact ⟨_, by rw [illegalStep, hp]⟩

theorem EngineInv.exists_engineStep {s : State} (h : EngineInv s) (hb : s.busy = true) :
    ∃ t, engineStep s = .next t := by
  have hpath := h.path
  have hstep {i : Instr} {t : State} (hd : decode s.cmd = .ok i) (hx : exec i s = .next t) :
      ∃ t, engineStep s = .next t := ⟨t, by simpa only [engineStep, hd] using hx⟩
  cases hp : s.phase with
  | idle | done | failed => simp [State.busy, hp, Phase.busy] at hb
  | validate => exact engineStep_validate hp
  | pad =>
    simp only [pathLaw, hp] at hpath
    obtain ⟨-, -, -, ⟨bl, hd, -⟩ | ⟨hd, -⟩⟩ := hpath
    · exact hstep hd (execPad_pad bl hp)
    · exact hstep hd (execCbcEnc_pad hp)
  | process =>
    simp only [pathLaw, hp] at hpath
    rcases hpath with ⟨hd, -⟩ | ⟨hd, -⟩ | ⟨hd, -⟩
    · exact hstep hd (execXor_process hp)
    · exact hstep hd (execCbcEnc_process hp)
    · exact hstep hd (execCbcDec_process hp)
  | unpad =>
    simp only [pathLaw, hp] at hpath
    rcases hpath with ⟨bl, hd, -⟩ | ⟨hd, -⟩
    · exact hstep hd (execUnpad_unpad bl hp)
    · exact hstep hd (execCbcDec_unpad hp)

/-- The turn of a busy engine keeps the invariant and brings the command's end nearer. -/
theorem EngineInv.exists_engineTurn {s : State} (h : EngineInv s) (hb : s.busy = true) :
    ∃ t, engineTurn s = .next t ∧ EngineInv t ∧ t.turnsLeft < s.turnsLeft := by
  obtain ⟨t, ht⟩ := h.exists_engineStep hb
  have hturn : engineTurn s = .next t := by rw [engineTurn, if_pos hb, ht]
  have hev := engineTurn_inv hturn
  refine ⟨t, hturn, h.of_eventStep hev, ?_⟩
  cases hev with
  | command _ hd hx => exact h.turnsLeft_lt hb hd hx
  | illegal _ _ => exact State.turnsLeft_lt_of_ends hb rfl
  | idle hidle => simp [hb] at hidle

/-- Under the invariant every command ends. -/
theorem EngineInv.exists_endsIn {s : State} (h : EngineInv s) : ∃ n t, n ≤ s.turnsLeft ∧ EndsIn n s t := by
  induction hk : s.turnsLeft using Nat.strong_induction_on generalizing s with
  | _ k ih =>
    cases hb : s.busy with
    | false => exact ⟨0, s, Nat.zero_le _, .quiescent hb⟩
    | true =>
      obtain ⟨u, hturn, hu, hlt⟩ := h.exists_engineTurn hb
      obtain ⟨n, t, hn, hends⟩ := ih _ (hk ▸ hlt) hu rfl
      exact ⟨n + 1, t, by omega, .turn hb hturn hends⟩

/-- RUNW of any word comes to its end, with the read that shows BUSY = 0 and with no other. -/
theorem EngineInv.scriptRunWord {s : State} (h : EngineInv s) (w : Word) (pace : List Nat) :
    ∃ pre u, scriptRunWord w pace s = some (pre ++ [.host (.regRead 0x04)]) ∧
      s.afterEvents pre = .next u ∧ (u.regRead 0x04).getLsbD 3 = false ∧
      ∀ pre' rest v, pre = pre' ++ .host (.regRead 0x04) :: rest → s.afterEvents pre' = .next v →
        (v.regRead 0x04).getLsbD 3 = true := by
  obtain ⟨n, t, hn, hends⟩ := (h.of_regWrite 0x00 w).exists_endsIn
  obtain ⟨es, hes, -⟩ := hends.pollSchedule (hn.trans (State.turnsLeft_le_turnBound _)) pace
  obtain ⟨pre, u, hpre, hu, hub⟩ := pollLoop_some hes
  refine ⟨.host (.regWrite 0x00 w) :: pre, u, by simp [Machine.scriptRunWord, hes, hpre], hu, ?_, ?_⟩
  · rw [State.regRead_status, State.statusWord_busy, hub]
  · intro pre' rest v hread hv
    rcases List.cons_eq_append_iff.mp hread with ⟨-, hfs⟩ | ⟨pre'', rfl, hfs⟩
    · cases hfs
    · rw [State.regRead_status, State.statusWord_busy]
      exact pollLoop_busy hes (rest := rest ++ [.host (.regRead 0x04)]) (by simp [hpre, hfs]) (by simp) hv

end Sys2Proof.Machine
end

section
/-! PROOFS. The host's writes of operands (30_encoding.md R102), the run of CBC.ENC (43_cbc_engine.md R166 to R168), and
the call cbc_encrypt as a host script (R103). -/

namespace Sys2Proof.Machine

/-! ### SETA and SETB (R102) -/

/-- Byte writes of one space, in order, are a range write of its buffer: `put` says which buffer that is. -/
theorem afterEvents_storeBytes {space : Space} {put : Memory → State} {cap : Nat}
    (hput : ∀ m addr v, addr < cap → (put m).memWrite space addr v = put (m.write addr v)) (m : Memory) (addr : Nat)
    (h : Bytes) (hfit : addr + h.length ≤ cap) :
    (put m).afterEvents (storeBytes space addr h) = .next (put (m.writeBytes addr h)) := by
  induction h generalizing m addr with
  | nil => rfl
  | cons v vs ih =>
    rw [List.length_cons] at hfit
    rw [storeBytes, State.afterEvents_host, State.hostAccess, hput m addr v (by omega)]
    exact ih (m.write addr v) (addr + 1) (by omega)

/-- What SETA leaves of a quiescent engine. -/
def State.setA (s : State) (h : Bytes) : State :=
  { s with a := s.a.writeBytes 0 h, lenA := lengthWord h }

/-- What SETB leaves of a quiescent engine. -/
def State.setB (s : State) (h : Bytes) : State :=
  { s with b := s.b.writeBytes 0 h, lenB := lengthWord h }

theorem State.regWrite_lenA {s : State} (hb : s.busy = false) (v : Word) :
    s.regWrite 0x0C v = { s with lenA := v } := by
  simp [State.regWrite, hb]

theorem State.regWrite_lenB {s : State} (hb : s.busy = false) (v : Word) :
    s.regWrite 0x10 v = { s with lenB := v } := by
  simp [State.regWrite, hb]

theorem State.afterEvents_scriptSetA {s : State} (hb : s.busy = false) {h : Bytes} (hfit : h.length ≤ s.config.CAP) :
    s.afterEvents (scriptSetA h) = .next (s.setA h) := by
  have hstore := afterEvents_storeBytes (space := .a) (put := fun m => { s with a := m }) (cap := s.config.CAP)
    (fun m addr v hin => State.memWrite_a (s := { s with a := m }) hb hin v) s.a 0 h (by omega)
  rw [scriptSetA, State.afterEvents_append hstore]
  exact congrArg Host.Outcome.next (State.regWrite_lenA (s := { s with a := s.a.writeBytes 0 h }) hb _)

theorem State.afterEvents_scriptSetB {s : State} (hb : s.busy = false) {h : Bytes} (hfit : h.length ≤ s.config.CAP) :
    s.afterEvents (scriptSetB h) = .next (s.setB h) := by
  have hstore := afterEvents_storeBytes (space := .b) (put := fun m => { s with b := m }) (cap := s.config.CAP)
    (fun m addr v hin => State.memWrite_b (s := { s with b := m }) hb hin v) s.b 0 h (by omega)
  rw [scriptSetB, State.afterEvents_append hstore]
  exact congrArg Host.Outcome.next (State.regWrite_lenB (s := { s with b := s.b.writeBytes 0 h }) hb _)

theorem State.setA_operandA (s : State) {h : Bytes} (hh : h.length < 2 ^ 32) : (s.setA h).operandA = h := by
  have hlen : (s.setA h).lenA.toNat = h.length := lengthWord_toNat hh
  rw [State.operandA, hlen]
  exact Memory.readBytes_writeBytes s.a 0 h

theorem State.setB_operandB (s : State) {h : Bytes} (hh : h.length < 2 ^ 32) : (s.setB h).operandB = h := by
  have hlen : (s.setB h).lenB.toNat = h.length := lengthWord_toNat hh
  rw [State.operandB, hlen]
  exact Memory.readBytes_writeBytes s.b 0 h

/-! ### The blocks of CBC.ENC (R167, R168) -/

/-- CBC.ENC with the plaintext blocks `ps` still to do: they stand in W from block IDX on. With none to do it is in
DONE. -/
structure EncRest (s : State) (ps : List Bytes) : Prop where
  legal : s.config.legal = true
  command : decode s.cmd = .ok .cbcEnc
  phase : s.phase = if ps.isEmpty then .done else .process
  shown : ps = [] → s.lenOut = s.wlen
  count : s.idx.toNat + ps.length = s.nblk.toNat
  filled : s.wlen.toNat = s.nblk.toNat * s.config.L
  fits : s.wlen.toNat ≤ s.config.CAP
  blocks : ∀ p ∈ ps, p.length = s.config.L
  plain : s.w.readBytes (s.idx.toNat * s.config.L) (ps.length * s.config.L) = ps.flatten

/-- The padded plaintext has one block more than the plaintext has whole ones (R132). -/
theorem blocksOf_padBytes_length {m : Nat} (hm : 1 ≤ m) (data : Bytes) :
    (blocksOf m (padBytes data m)).length = data.length / m + 1 := by
  rw [blocksOf_length, padBytes_length, add_padCount hm, Nat.mul_div_cancel _ hm]

@[simp] theorem Memory.block_length (m : Memory) (len i : Nat) : (m.block len i).length = len :=
  Memory.readBytes_length _ _ _

/-- The PAD step leaves every block of the padded plaintext to do. -/
theorem EncRest.of_encPadStep {s : State} (hl : s.config.legal = true) (hd : decode s.cmd = .ok .cbcEnc)
    (hidx : s.idx = 0) (hfit : s.paddedLen s.config.L ≤ s.config.CAP) :
    EncRest s.encPadStep (blocksOf s.config.L (padBytes s.operandA s.config.L)) := by
  obtain ⟨hL, -, -, -⟩ := (legal_iff _).mp hl
  have hmul : s.paddedLen s.config.L = (s.lenA.toNat / s.config.L + 1) * s.config.L := add_padCount hL _
  have hlength : (padBytes s.operandA s.config.L).length = (s.lenA.toNat / s.config.L + 1) * s.config.L :=
    (s.padBytes_operandA_length _).trans hmul
  have hcount : (blocksOf s.config.L (padBytes s.operandA s.config.L)).length = s.lenA.toNat / s.config.L + 1 := by
    rw [blocksOf_padBytes_length hL, s.operandA_length]
  have hnblk : s.encPadStep.nblk.toNat = s.lenA.toNat / s.config.L + 1 := by
    rw [State.encPadStep_nblk, hmul, Nat.mul_div_cancel _ hL]
    exact toNat_ofNat_of_mul_le_cap hl (hmul ▸ hfit)
  have hwlen : s.encPadStep.wlen.toNat = s.paddedLen s.config.L := toNat_ofNat_of_le_cap hl hfit
  have hidx' : s.encPadStep.idx.toNat = 0 := congrArg BitVec.toNat hidx
  have hne : blocksOf s.config.L (padBytes s.operandA s.config.L) ≠ [] :=
    List.ne_nil_of_length_pos (by rw [hcount]; exact Nat.succ_pos _)
  exact
    { legal := hl
      command := hd
      phase := by simp [hne]
      shown := fun h => absurd h hne
      count := by rw [hcount, hnblk, hidx']; exact Nat.zero_add _
      filled := by rw [hwlen, hnblk, hmul, State.encPadStep_config]
      fits := hwlen ▸ hfit
      blocks := fun _ hp => blocksOf_mem_length hp
      plain := by
        rw [hcount, State.encPadStep_config, hidx', Nat.zero_mul, ← hlength, State.encPadStep_w, State.paddedWork_eq,
          Memory.readBytes_writeBytes, blocksOf_flatten (by rw [hlength, Nat.mul_mod_left])] }

/-- The PROCESS step does the first of the blocks. -/
theorem EncRest.engineTurn {s : State} {p : Bytes} {ps : List Bytes} (h : EncRest s (p :: ps)) :
    engineTurn s = .next s.encStep := by
  have hp : s.phase = .process := h.phase
  rw [Machine.engineTurn, if_pos (by rw [State.busy, hp]; rfl), engineStep, h.command]
  exact execCbcEnc_process hp

/-- The block at IDX is the first to do, and the others follow it. -/
theorem EncRest.plain_cons {s : State} {p : Bytes} {ps : List Bytes} (h : EncRest s (p :: ps)) :
    s.w.block s.config.L s.blockIndex = p ∧
    s.w.readBytes ((s.idx.toNat + 1) * s.config.L) (ps.length * s.config.L) = ps.flatten := by
  have hplain := h.plain
  rw [List.length_cons, Nat.succ_mul, Nat.add_comm (ps.length * _), Memory.readBytes_add, List.flatten_cons] at hplain
  rw [Nat.succ_mul]
  exact List.append_inj hplain (by rw [Memory.block_length, h.blocks p List.mem_cons_self])

theorem EncRest.encInput {s : State} {p : Bytes} {ps : List Bytes} (h : EncRest s (p :: ps)) :
    s.encInput = xorBytes s.chain p := by
  rw [State.encInput, h.plain_cons.1]

theorem EncRest.encStep_idx {s : State} {p : Bytes} {ps : List Bytes} (h : EncRest s (p :: ps)) :
    s.encStep.idx.toNat = s.idx.toNat + 1 := by
  have hcount := h.count
  rw [List.length_cons] at hcount
  have hmul : (s.blockIndex + 1) * s.config.L ≤ s.config.CAP := calc
    _ ≤ s.nblk.toNat * s.config.L := Nat.mul_le_mul_right _ (by unfold State.blockIndex; omega)
    _ ≤ s.config.CAP := h.filled ▸ h.fits
  exact toNat_ofNat_of_mul_le_cap h.legal hmul

theorem EncRest.lastBlock {s : State} {p : Bytes} {ps : List Bytes} (h : EncRest s (p :: ps)) :
    s.lastBlock = ps.isEmpty := by
  have hcount := h.count
  rw [List.length_cons] at hcount
  rw [Bool.eq_iff_iff, State.lastBlock, beq_iff_eq, State.blockIndex, List.isEmpty_iff, ← List.length_eq_zero_iff]
  omega

theorem EncRest.encStep {s : State} {p : Bytes} {ps : List Bytes} (h : EncRest s (p :: ps)) :
    EncRest s.encStep ps where
  legal := h.legal
  command := h.command
  phase := by rw [State.encStep_phase, h.lastBlock]
  shown := fun hnil => by simp [h.lastBlock, hnil]
  count := by
    rw [h.encStep_idx, State.encStep_nblk, ← h.count, List.length_cons]
    omega
  filled := h.filled
  fits := h.fits
  blocks := fun q hq => h.blocks q (List.mem_cons_of_mem _ hq)
  plain := by
    rw [h.encStep_idx, State.encStep_config, ← h.plain_cons.2, State.encStep_w]
    refine Memory.readBytes_congr fun j _ => Memory.read_writeBytes_outside _ (.inr ?_)
    rw [State.encryptBlock_length, Nat.succ_mul, State.blockIndex]
    omega

/-- W up to the end of the block that a PROCESS step has done (R168). -/
theorem EncRest.encStep_work {s : State} {p : Bytes} {ps : List Bytes} (h : EncRest s (p :: ps)) :
    s.encStep.w.readBytes 0 (s.encStep.idx.toNat * s.config.L) =
      s.w.readBytes 0 (s.idx.toNat * s.config.L) ++ s.encryptBlock (xorBytes s.chain p) := by
  have hdone : s.encStep.w.readBytes 0 (s.idx.toNat * s.config.L) = s.w.readBytes 0 (s.idx.toNat * s.config.L) := by
    refine Memory.readBytes_congr fun j hj => Memory.read_writeBytes_outside _ (.inl ?_)
    rw [State.blockIndex]
    omega
  have hblock := Memory.readBytes_writeBytes s.w (s.idx.toNat * s.config.L) (s.encryptBlock s.encInput)
  rw [State.encryptBlock_length] at hblock
  rw [h.encStep_idx, Nat.succ_mul, Memory.readBytes_add, hdone, Nat.zero_add, ← h.encInput]
  exact congrArg _ hblock

/-- The blocks are done in order, each chained to the one before, and then the engine is in DONE. -/
theorem EncRest.endsIn {s : State} {ps : List Bytes} (h : EncRest s ps) :
    ∃ t, EndsIn ps.length s t ∧ EncRest t [] ∧
      t.w.readBytes 0 s.wlen.toNat =
        s.w.readBytes 0 (s.idx.toNat * s.config.L) ++ (encBlocks s.encryptBlock s.chain ps).flatten ∧
      t = { s with w := t.w, chain := t.chain, idx := t.idx, lenOut := t.lenOut, phase := t.phase } := by
  induction ps generalizing s with
  | nil =>
    have hcount : s.idx.toNat = s.nblk.toNat := h.count
    refine ⟨s, .quiescent (by rw [State.busy, h.phase]; rfl), h, ?_, rfl⟩
    simp [h.filled, hcount, encBlocks]
  | cons p ps ih =>
    obtain ⟨t, hends, hdone, hwork, hframe⟩ := ih h.encStep
    refine ⟨t, .turn (by rw [State.busy, h.phase]; rfl) h.engineTurn hends, hdone, ?_, hframe⟩
    rw [State.encStep_wlen, State.encStep_config, h.encStep_work] at hwork
    rw [hwork, List.append_assoc, State.encStep_chain, h.encInput]
    rfl

/-! ### The command CBC.ENC (R173) -/

/-- In DONE the host reads `W[0..LEN_OUT)` (R41). -/
theorem State.getOut_done {s : State} (hp : s.phase = .done) (hfit : s.lenOut.toNat ≤ s.config.CAP) :
    s.getOut = s.w.readBytes 0 s.lenOut.toNat := by
  refine List.map_congr_left fun j hj => ?_
  have hj : j < s.lenOut.toNat := List.mem_range.mp hj
  rw [State.memRead_out_shown hp hj (by omega), Nat.zero_add]

/-- The VALIDATE step of CBC.ENC is the engine's turn. -/
theorem engineTurn_cbcEnc_validate {s : State} (hp : s.phase = .validate) (hd : decode s.cmd = .ok .cbcEnc) :
    engineTurn s = .next (s.validateStep s.encChecks s.encValidated) := by
  rw [engineTurn, if_pos (by rw [State.busy, hp]; rfl), engineStep, hd]
  exact execCbcEnc_validate hp

theorem engineTurn_cbcEnc_pad {s : State} (hp : s.phase = .pad) (hd : decode s.cmd = .ok .cbcEnc) :
    engineTurn s = .next s.encPadStep := by
  rw [engineTurn, if_pos (by rw [State.busy, hp]; rfl), engineStep, hd]
  exact execCbcEnc_pad hp

/-- The value of a call that ends in DONE. -/
theorem State.callValue_done {s : State} (hp : s.phase = .done) : s.callValue = some (.ok s.getOut) := by
  rw [State.callValue, hp]

theorem cbcEncrypt_ok (E : Bytes → Bytes) {L : Nat} (p : Bytes) {iv : Bytes} (hiv : iv.length = L) :
    cbcEncrypt E L p iv = .ok (encBlocks E iv (blocksOf L (padBytes p L))).flatten :=
  if_neg (not_not.mpr hiv)

theorem cbcEncrypt_error (E : Bytes → Bytes) {L : Nat} (p : Bytes) {iv : Bytes} (hiv : iv.length ≠ L) :
    cbcEncrypt E L p iv = .error .invalidLength :=
  if_pos hiv

@[simp] theorem State.operandB_length (s : State) : s.operandB.length = s.lenB.toNat :=
  Memory.readBytes_length _ _ _

/-- When the lengths fit, the checks of CBC.ENC come down to the IV's. -/
theorem State.firstError_encChecks {s : State} (hB : s.lenB.toNat ≤ s.config.CAP)
    (hfit : s.paddedLen s.config.L ≤ s.config.CAP) :
    firstError s.encChecks = if s.lenB.toNat = s.config.L then none else some .invalidLength := by
  have hA : s.lenA.toNat ≤ s.config.CAP := le_trans (Nat.le_add_right _ _) hfit
  have hpad : s.lenA.toNat + padCount s.lenA.toNat s.config.L ≤ s.config.CAP := hfit
  simp only [State.encChecks, firstError_cons, firstError, State.checkLenA, State.checkLenB, State.checkIvLen,
    State.checkPadded, decide_eq_true_eq, bne_iff_ne, Nat.not_lt.mpr hA, Nat.not_lt.mpr hB, Nat.not_lt.mpr hpad,
    if_false, ite_not]

/-- After the PAD step the result of CBC.ENC is that of `cbc_encrypt`, one block a turn. -/
theorem EncRest.callValue {s : State} {ps : List Bytes} (h : EncRest s ps) (hidx : s.idx = 0) :
    ∃ t, EndsIn ps.length s t ∧ t.callValue = some (.ok (encBlocks s.encryptBlock s.chain ps).flatten) := by
  obtain ⟨t, hends, hdone, hwork, hframe⟩ := h.endsIn
  have hout : t.lenOut = s.wlen := by rw [hdone.shown rfl, hframe]
  have hidx' : s.idx.toNat * s.config.L = 0 := by rw [hidx]; exact Nat.zero_mul _
  refine ⟨t, hends, ?_⟩
  rw [State.callValue_done hdone.phase,
    State.getOut_done hdone.phase (by rw [hdone.shown rfl]; exact hdone.fits), hout, hwork, hidx']
  rfl

/-- From VALIDATE on CBC.ENC is `cbc_encrypt`: entry to FAILED, or VALIDATE, PAD and one turn a block. -/
theorem cbcEnc_endsIn {s : State} (hl : s.config.legal = true) (hp : s.phase = .validate)
    (hd : decode s.cmd = .ok .cbcEnc) (hidx : s.idx = 0) (hB : s.lenB.toNat ≤ s.config.CAP)
    (hfit : s.paddedLen s.config.L ≤ s.config.CAP) :
    ∃ n t, n ≤ s.turnBound ∧ EndsIn n s t ∧
      t.callValue = some (cbcEncrypt s.encryptBlock s.config.L s.operandA s.operandB) := by
  have hb : s.busy = true := by rw [State.busy, hp]; rfl
  have hturn := engineTurn_cbcEnc_validate hp hd
  have hcheck := State.firstError_encChecks hB hfit
  by_cases hiv : s.lenB.toNat = s.config.L
  · rw [if_pos hiv] at hcheck
    rw [State.validateStep_none hcheck] at hturn
    have hrest := EncRest.of_encPadStep (s := s.encValidated) hl hd hidx hfit
    obtain ⟨t, hends, ht⟩ := hrest.callValue hidx
    refine ⟨_, t, ?_, .turn hb hturn (.turn rfl (engineTurn_cbcEnc_pad rfl hd) hends), ?_⟩
    · obtain ⟨hL, -, -, -⟩ := (legal_iff _).mp hl
      have hblocks := blocksOf_padBytes_length hL s.operandA
      rw [s.operandA_length] at hblocks
      exact (congrArg (· + 2) hblocks).le
    · have hivEq : s.operandB = s.iv := by rw [State.operandB, State.iv, hiv]
      rw [ht, cbcEncrypt_ok _ _ (s.operandB_length.trans hiv), hivEq]
      rfl
  · rw [if_neg hiv] at hcheck
    rw [State.validateStep_some hcheck] at hturn
    refine ⟨1, s.raise .invalidLength, by simp [State.turnBound], .turn hb hturn (.quiescent rfl), ?_⟩
    rw [cbcEncrypt_error _ _ (by rwa [State.operandB_length])]
    rfl

/-! ### The call cbc_encrypt (R103) -/

/-- RUN CBC.ENC on the operands that stand in A and B. -/
theorem exists_run_cbcEnc {s : State} (hl : s.config.legal = true) (hb : s.busy = false)
    (hB : s.lenB.toNat ≤ s.config.CAP) (hfit : s.paddedLen s.config.L ≤ s.config.CAP) (pace : List Nat) :
    ∃ es t, (Pseudo.run .cbcEnc).schedule pace s = some es ∧ s.afterEvents es = .next t ∧
      t.callValue = some (cbcEncrypt s.encryptBlock s.config.L s.operandA s.operandB) := by
  have hd : decode (encode .cbcEnc) = .ok .cbcEnc := decodeEncodeRoundTrip.1 _ rfl
  obtain ⟨n, t, hn, hends, hvalue⟩ :=
    cbcEnc_endsIn (s := s.commandStart (encode .cbcEnc)) hl rfl hd rfl hB hfit
  rw [← State.regWrite_cmd hb] at hends hn
  obtain ⟨es, hes, ht⟩ := hends.scriptRunWord hn pace
  exact ⟨es, t, hes, ht, hvalue⟩

/-- The events of the call, and the value they leave. -/
theorem exists_callCbcEncrypt {s : State} (hs : s.Ready) {p iv : Bytes} (hiv : iv.length ≤ s.config.CAP)
    (hfit : p.length + padCount p.length s.config.L ≤ s.config.CAP) (paces : List (List Nat)) :
    ∃ es t, scriptSchedule paces (callCbcEncrypt p iv) s = some es ∧ s.afterEvents es = .next t ∧
      t.callValue = some (cbcEncrypt s.encryptBlock s.config.L p iv) ∧ t.busy = false ∧
      es.getLast? = some (.host (.regRead 0x04)) := by
  obtain ⟨-, -, -, hcap⟩ := (legal_iff _).mp hs.legal
  have hA := State.afterEvents_scriptSetA hs.quiescent (h := p) (by omega)
  have hB := State.afterEvents_scriptSetB (s := s.setA p) hs.quiescent hiv
  have hlenA : (lengthWord p).toNat = p.length := lengthWord_toNat (by omega)
  have hlenB : (lengthWord iv).toNat = iv.length := lengthWord_toNat (by omega)
  obtain ⟨es, t, hes, ht, hvalue⟩ := exists_run_cbcEnc (s := (s.setA p).setB iv) hs.legal hs.quiescent
    (hlenB.trans_le hiv) (by rw [State.paddedLen]; exact hlenA ▸ hfit) (paces.tail.tail.headD [])
  rw [show ((s.setA p).setB iv).operandA = p from s.setA_operandA (by omega),
    (s.setA p).setB_operandB (by omega)] at hvalue
  obtain ⟨t', ht', hb, hlast⟩ := scriptRunWord_some hes
  cases ht.symm.trans ht'
  refine ⟨scriptSetA p ++ (scriptSetB iv ++ es), t, ?_, ?_, hvalue, hb, ?_⟩
  · rw [callCbcEncrypt, scriptSchedule_cons rfl hA, scriptSchedule_cons rfl hB, scriptSchedule_cons hes ht]
    simp [scriptSchedule]
  · rw [State.afterEvents_append hA, State.afterEvents_append hB, ht]
  · rw [List.getLast?_append, List.getLast?_append, hlast]
    rfl

/-- Settles O60: the measure `State.turnsLeft` ends the loop of RUN, and the call is SETA, SETB and a run of CBC.ENC that
ends within `turnBound`. -/
theorem encryptCallScript : Obligations.EncryptCallScript := by
  refine ⟨fun s w pace h => h.scriptRunWord w pace, fun s p iv paces hs hiv hfit => ?_⟩
  obtain ⟨es, t, hes, ht, hvalue, hb, hlast⟩ := exists_callCbcEncrypt hs hiv hfit paces
  have hrun := runSteps_schedule hs.legal ht []
  rw [List.append_nil] at hrun
  exact ⟨es, _, hes, hrun, hvalue, hb, rfl, hlast⟩

end Sys2Proof.Machine
end

section
/-! PROOFS. The uses of the port (40_blockcipher_port.md): which step makes one and with what block (R123), and the
uses of CBC.ENC and CBC.DEC in number and order (R126). -/

namespace Sys2Proof.Machine

/-! ### One step (R120, R123) -/

/-- Only a PROCESS step of a CBC command uses the port. -/
theorem enginePortCall_eq_some_iff {s : State} {c : PortCall} : enginePortCall s = some c ↔
    s.phase = .process ∧ (decode s.cmd = .ok .cbcEnc ∧ c = .encrypt s.encInput ∨
      decode s.cmd = .ok .cbcDec ∧ c = .decrypt s.decInput) := by
  unfold enginePortCall
  cases hd : decode s.cmd with
  | error e => simp
  | ok i =>
    cases hp : s.phase with
    | process => cases i <;> simp [portCall, hp, eq_comm]
    | idle | validate | pad | unpad | done | failed => simp [portCall, hp]

theorem enginePortCall_of_ne_process {s : State} (h : s.phase ≠ .process) : enginePortCall s = none :=
  Option.eq_none_iff_forall_ne_some.mpr fun _ hc => h (enginePortCall_eq_some_iff.mp hc).1

theorem enginePortCall_of_cipherless {s : State} (he : decode s.cmd ≠ .ok .cbcEnc) (hd : decode s.cmd ≠ .ok .cbcDec) :
    enginePortCall s = none := by
  refine Option.eq_none_iff_forall_ne_some.mpr fun _ hc => ?_
  obtain ⟨-, ⟨hi, -⟩ | ⟨hi, -⟩⟩ := enginePortCall_eq_some_iff.mp hc
  · exact he hi
  · exact hd hi

theorem State.encInput_length {s : State} (h : s.chain.length = s.config.L) : s.encInput.length = s.config.L := by
  simp [State.encInput, h]

/-- Settles O34: the block is `encInput` or `decInput`, and each has L bytes. -/
theorem portBlocksHaveLengthL : Obligations.PortBlocksHaveLengthL := by
  rintro s x hchain (hx | hx)
  · obtain ⟨-, ⟨-, hc⟩ | ⟨-, hc⟩⟩ := enginePortCall_eq_some_iff.mp hx
    · cases hc
      exact State.encInput_length hchain
    · cases hc
  · obtain ⟨-, ⟨-, hc⟩ | ⟨-, hc⟩⟩ := enginePortCall_eq_some_iff.mp hx
    · cases hc
    · cases hc
      exact s.decInput_length

/-! ### The uses along a run -/

theorem portCalls_succ {s t : State} (h : step s = .next t) (k : Nat) :
    portCalls (k + 1) s = (enginePortCall s).toList ++ portCalls k t := by
  simp [portCalls, h]

/-- A step outside PROCESS adds no use. -/
theorem portCalls_succ_of_ne_process {s t : State} (h : step s = .next t) (hp : s.phase ≠ .process) (k : Nat) :
    portCalls (k + 1) s = portCalls k t := by
  simp [portCalls_succ h, enginePortCall_of_ne_process hp]

/-- Whatever the step answers, one step makes no more than its own use. -/
theorem portCalls_one (s : State) : portCalls 1 s = (enginePortCall s).toList := by
  cases hs : step s <;> simp [portCalls, hs]

/-! ### CBC.ENC (R126, first row) -/

theorem EncRest.enginePortCall {s : State} {p : Bytes} {ps : List Bytes} (h : EncRest s (p :: ps)) :
    enginePortCall s = some (.encrypt (xorBytes s.chain p)) :=
  enginePortCall_eq_some_iff.mpr ⟨h.phase, .inl ⟨h.command, by rw [h.encInput]⟩⟩

/-- One encryption a block, each of the chaining value XOR the block; the answer is the next chaining value. -/
theorem EncRest.portCalls {s : State} {ps : List Bytes} (h : EncRest s ps) (he : s.events = []) :
    portCalls ps.length s =
      (List.zipWith xorBytes (s.chain :: encBlocks s.encryptBlock s.chain ps) ps).map PortCall.encrypt := by
  induction ps generalizing s with
  | nil => rfl
  | cons p ps ih =>
    have hstep : step s = .next s.encStep := (step_noEvents h.legal he).trans h.engineTurn
    rw [List.length_cons, portCalls_succ hstep, h.enginePortCall, ih h.encStep he, State.encStep_chain, h.encInput]
    rfl

/-- From VALIDATE on: no use in VALIDATE and PAD, then the blocks of the padded plaintext, chained from the IV. -/
theorem portCalls_cbcEnc {s : State} (hl : s.config.legal = true) (he : s.events = []) (hp : s.phase = .validate)
    (hd : decode s.cmd = .ok .cbcEnc) (hidx : s.idx = 0) (hiv : s.lenB.toNat = s.config.L)
    (hfit : s.paddedLen s.config.L ≤ s.config.CAP) :
    portCalls (s.lenA.toNat / s.config.L + 3) s =
      (List.zipWith xorBytes
        (s.operandB :: encBlocks s.encryptBlock s.operandB (blocksOf s.config.L (padBytes s.operandA s.config.L)))
        (blocksOf s.config.L (padBytes s.operandA s.config.L))).map PortCall.encrypt := by
  obtain ⟨hL, -, hcap, -⟩ := (legal_iff _).mp hl
  have hcheck : firstError s.encChecks = none := by
    rw [State.firstError_encChecks (by omega) hfit, if_pos hiv]
  have hvalidate : step s = .next s.encValidated := by
    rw [step_noEvents hl he, engineTurn_cbcEnc_validate hp hd, State.validateStep_none hcheck]
  have hpad : step s.encValidated = .next s.encValidated.encPadStep :=
    (step_noEvents (s := s.encValidated) hl he).trans (engineTurn_cbcEnc_pad rfl hd)
  have hrest := (EncRest.of_encPadStep (s := s.encValidated) hl hd hidx hfit).portCalls he
  have hblocks : (blocksOf s.config.L (padBytes s.operandA s.config.L)).length = s.lenA.toNat / s.config.L + 1 := by
    rw [blocksOf_padBytes_length hL, s.operandA_length]
  have hivEq : s.operandB = s.iv := by rw [State.operandB, State.iv, hiv]
  rw [portCalls_succ_of_ne_process hvalidate (by simp [hp]), portCalls_succ_of_ne_process hpad (by simp), ← hblocks,
    hivEq]
  exact hrest

/-! ### CBC.DEC (R126, second row) -/

/-- CBC.DEC with `n` ciphertext blocks still to do, from block IDX on. With none to do it is in UNPAD. -/
structure DecRest (s : State) (n : Nat) : Prop where
  legal : s.config.legal = true
  command : decode s.cmd = .ok .cbcDec
  phase : s.phase = if n = 0 then .unpad else .process
  count : s.idx.toNat + n = s.nblk.toNat

/-- When the lengths are right, CBC.DEC passes VALIDATE. -/
theorem State.firstError_decChecks {s : State} (hl : s.config.legal = true) (hA : s.lenA.toNat ≤ s.config.CAP)
    (hiv : s.lenB.toNat = s.config.L) (hmod : s.lenA.toNat % s.config.L = 0) : firstError s.decChecks = none := by
  obtain ⟨-, -, hcap, -⟩ := (legal_iff _).mp hl
  have hB : s.config.L ≤ s.config.CAP := by omega
  simp [State.decChecks, firstError, State.checkLenA, State.checkLenB, State.checkIvLen, State.checkMultiple,
    Nat.not_lt.mpr hA, Nat.not_lt.mpr hB, hiv, hmod]

/-- The VALIDATE step leaves every block of the ciphertext to do; of an empty one there is none (R172). -/
theorem DecRest.of_decValidated {s : State} (hl : s.config.legal = true) (hd : decode s.cmd = .ok .cbcDec)
    (hidx : s.idx = 0) (hmod : s.lenA.toNat % s.config.L = 0) :
    DecRest s.decValidated (s.lenA.toNat / s.config.L) where
  legal := hl
  command := hd
  phase := by
    have hmul := Nat.div_mul_cancel (Nat.dvd_of_mod_eq_zero hmod)
    have hempty : s.lenA.toNat / s.config.L = 0 ↔ ¬ 0 < s.lenA.toNat :=
      ⟨fun h => by rw [← hmul, h]; simp, fun h => by rw [Nat.eq_zero_of_not_pos h, Nat.zero_div]⟩
    simp only [State.decValidated_phase, hempty, ite_not]
  count := by
    have hnblk : s.lenA.toNat / s.config.L < 2 ^ 32 := lt_of_le_of_lt (Nat.div_le_self _ _) s.lenA.isLt
    rw [State.decValidated_idx, hidx, State.decValidated_nblk, BitVec.toNat_ofNat, Nat.mod_eq_of_lt hnblk]
    exact Nat.zero_add _

theorem DecRest.enginePortCall {s : State} {n : Nat} (h : DecRest s (n + 1)) :
    enginePortCall s = some (.decrypt (s.a.block s.config.L s.idx.toNat)) :=
  enginePortCall_eq_some_iff.mpr ⟨h.phase, .inr ⟨h.command, rfl⟩⟩

theorem DecRest.step {s : State} {n : Nat} (h : DecRest s (n + 1)) (he : s.events = []) :
    step s = .next s.decStep := by
  have hp : s.phase = .process := h.phase
  exact (step_exec h.legal he (by rw [State.busy, hp]; rfl) h.command).trans (execCbcDec_process hp)

theorem DecRest.decStep_idx {s : State} {n : Nat} (h : DecRest s (n + 1)) :
    s.decStep.idx.toNat = s.idx.toNat + 1 := by
  have hcount := h.count
  have hnblk := s.nblk.isLt
  rw [State.decStep_idx, State.blockIndex, BitVec.toNat_ofNat, Nat.mod_eq_of_lt (by omega)]

theorem DecRest.decStep {s : State} {n : Nat} (h : DecRest s (n + 1)) : DecRest s.decStep n where
  legal := h.legal
  command := h.command
  phase := by
    have hcount := h.count
    have hlast : s.lastBlock = true ↔ n = 0 := by
      rw [State.lastBlock, beq_iff_eq, State.blockIndex]
      omega
    simp only [State.decStep_phase, hlast]
  count := by
    rw [h.decStep_idx, State.decStep_nblk, ← h.count]
    omega

/-- One decryption a block, from block IDX on, and none in the UNPAD step after them. -/
theorem DecRest.portCalls {s : State} {n : Nat} (h : DecRest s n) (he : s.events = []) :
    portCalls (n + 1) s = ((List.range' s.idx.toNat n).map (s.a.block s.config.L)).map PortCall.decrypt := by
  induction n generalizing s with
  | zero =>
    rw [portCalls_one, enginePortCall_of_ne_process (by simp [h.phase])]
    rfl
  | succ n ih =>
    rw [portCalls_succ (h.step he), h.enginePortCall, ih h.decStep he, h.decStep_idx, List.range'_succ]
    rfl

/-- Blocks of a whole number of them at the start of a buffer are the buffer's blocks (20_memory.md R78). -/
theorem blocksOf_readBytes (m : Memory) {L n : Nat} (hL : 1 ≤ L) :
    blocksOf L (m.readBytes 0 (n * L)) = (List.range n).map (m.block L) := by
  rw [blocksOf, Memory.readBytes_length, Nat.mul_div_cancel _ hL]
  refine List.map_congr_left fun i hi => ?_
  have hend : (i + 1) * L ≤ n * L := Nat.mul_le_mul_right L (List.mem_range.mp hi)
  obtain ⟨k, hk⟩ := Nat.exists_eq_add_of_le hend
  rw [hk, Nat.succ_mul, Nat.add_assoc, Memory.readBytes_add, Memory.readBytes_add, Nat.zero_add,
    List.drop_left' (Memory.readBytes_length _ _ _), List.take_left' (Memory.readBytes_length _ _ _)]
  rfl

/-- From VALIDATE on: no use in VALIDATE, then the blocks of the ciphertext, and no use in UNPAD. -/
theorem portCalls_cbcDec {s : State} (hl : s.config.legal = true) (he : s.events = []) (hp : s.phase = .validate)
    (hd : decode s.cmd = .ok .cbcDec) (hidx : s.idx = 0) (hA : s.lenA.toNat ≤ s.config.CAP)
    (hiv : s.lenB.toNat = s.config.L) (hmod : s.lenA.toNat % s.config.L = 0) :
    portCalls (s.lenA.toNat / s.config.L + 2) s = (blocksOf s.config.L s.operandA).map PortCall.decrypt := by
  obtain ⟨hL, -, -, -⟩ := (legal_iff _).mp hl
  have hexec : step s = .next (s.validateStep s.decChecks s.decValidated) :=
    (step_exec hl he (by rw [State.busy, hp]; rfl) hd).trans (execCbcDec_validate hp)
  have hvalidate : step s = .next s.decValidated := by
    rw [hexec, State.validateStep_none (State.firstError_decChecks hl hA hiv hmod)]
  have hrest := (DecRest.of_decValidated hl hd hidx hmod).portCalls he
  have hblocks : blocksOf s.config.L s.operandA =
      (List.range' 0 (s.lenA.toNat / s.config.L)).map (s.a.block s.config.L) := by
    rw [← List.range_eq_range', ← blocksOf_readBytes _ hL, Nat.div_mul_cancel (Nat.dvd_of_mod_eq_zero hmod),
      State.operandA]
  rw [portCalls_succ_of_ne_process hvalidate (by simp [hp]), hrest, hblocks, State.decValidated_idx, hidx]
  rfl

/-- Settles O59: a use takes a PROCESS step of a CBC command, and along the run of each CBC command the blocks still to
do (`EncRest`, `DecRest`) are asked for one a step. -/
theorem portCallsInOrder : Obligations.PortCallsInOrder := by
  refine ⟨?_, fun s hs hA hiv => ⟨fun hfit => ⟨_, _, rfl, rfl, ?_⟩, fun hmod => ?_⟩⟩
  · rintro s (⟨he, hd⟩ | hp)
    · exact enginePortCall_of_cipherless he hd
    · exact enginePortCall_of_ne_process (by simp [hp])
  · have hd : decode 0x00000004#32 = .ok .cbcEnc := decodeEncodeRoundTrip.1 .cbcEnc rfl
    rw [State.regWrite_cmd hs.quiescent]
    exact portCalls_cbcEnc (s := s.commandStart _) hs.legal hs.alone rfl hd rfl hiv hfit
  · have hd : decode 0x00000005#32 = .ok .cbcDec := decodeEncodeRoundTrip.1 .cbcDec rfl
    rw [State.regWrite_cmd hs.quiescent]
    exact portCalls_cbcDec (s := s.commandStart _) hs.legal hs.alone rfl hd rfl hA hiv hmod

end Sys2Proof.Machine
end

section
/-! PROOFS. The Padder (41_padder.md): the laws of `pad` and `unpad` (R132 to R134), the steps of PAD and UNPAD (R136 to
R140), and the two commands as the two functions (R141). -/

namespace Sys2Proof.Machine

/-! ### The function pad (R132) -/

/-- Whole blocks get a full extra block. -/
theorem padCount_of_mod_eq_zero {len m : Nat} (h : len % m = 0) : padCount len m = m := by
  rw [padCount, h, Nat.sub_zero]

theorem padBytes_nil (m : Nat) : padBytes [] m = List.replicate m (BitVec.ofNat 8 m) := by
  rw [padBytes, List.length_nil, padCount_of_mod_eq_zero (Nat.zero_mod m), List.nil_append]

/-- Settles O43: the padding count is 1 to m and makes the length a multiple of m. -/
theorem padLaws : Obligations.PadLaws := by
  intro data m hm _
  have hpos := padCount_pos hm data.length
  have hle := padCount_le data.length m
  have hlen := padBytes_length data m
  refine ⟨padBytes data m, rfl, hlen.trans (add_padCount hm _), by omega, by omega, List.prefix_append _ _,
    fun hmod => ?_, fun hnil => ?_⟩
  · rw [hlen, padCount_of_mod_eq_zero hmod]
  · rw [hnil, padBytes_nil]

/-! ### The function unpad (R133, R134) -/

/-- `unpad` succeeds exactly on whole blocks that end in `n` bytes of value `n`, `1 ≤ n ≤ m`. -/
theorem unpad_eq_ok_iff {data r : Bytes} {m : Nat} (h255 : m ≤ 255) : unpad data m = .ok r ↔
    1 ≤ data.length ∧ data.length % m = 0 ∧
      ∃ n, 1 ≤ n ∧ n ≤ m ∧ data = r ++ List.replicate n (BitVec.ofNat 8 n) := by
  constructor
  · intro h
    obtain ⟨n, -, hpos, hmod, hn, hnm, hall, rfl⟩ := unpad_ok h
    have hm : m ≤ data.length := Nat.le_of_dvd hpos (Nat.dvd_of_mod_eq_zero hmod)
    have hdrop : data.drop (data.length - n) = List.replicate n (BitVec.ofNat 8 n) :=
      List.eq_replicate_iff.mpr ⟨by rw [List.length_drop]; omega, hall⟩
    exact ⟨hpos, hmod, n, hn, hnm, by rw [← hdrop, List.take_append_drop]⟩
  · rintro ⟨-, hmod, n, hn, hnm, rfl⟩
    exact unpad_append_replicate hn hnm h255 (by simpa using hmod)

/-- The length check comes first. -/
theorem unpad_eq_invalidLength_iff {data : Bytes} {m : Nat} :
    unpad data m = .error .invalidLength ↔ data.length < 1 ∨ data.length % m ≠ 0 := by
  constructor
  · intro h
    rcases unpad_error h with ⟨-, hlen⟩ | ⟨hk, -⟩
    · exact hlen
    · cases hk
  · exact fun hlen => if_pos hlen

/-- Settles O44. -/
theorem unpadSucceedsExactly : Obligations.UnpadSucceedsExactly := by
  refine fun data m _ h255 => ⟨fun r => unpad_eq_ok_iff h255, unpad_eq_invalidLength_iff, fun k h => ?_⟩
  rcases unpad_error h with ⟨hk, -⟩ | ⟨hk, -⟩
  · exact .inl hk
  · exact .inr hk

theorem unpad_padBytes {m : Nat} (hm : 1 ≤ m) (h255 : m ≤ 255) (data : Bytes) :
    unpad (padBytes data m) m = .ok data :=
  unpad_append_replicate (padCount_pos hm _) (padCount_le _ _) h255 (by rw [add_padCount hm, Nat.mul_mod_left])

/-- Settles O45: `pad` appends a padding that `unpad` takes off, and a padding has 1 to m bytes. -/
theorem unpadInvertsPad : Obligations.UnpadInvertsPad := by
  refine fun data m hm h255 => ⟨fun r h => ?_, fun r h => ?_⟩
  · cases h
    exact unpad_padBytes hm h255 data
  · obtain ⟨-, -, n, hn, hnm, rfl⟩ := (unpad_eq_ok_iff h255).mp h
    rw [List.length_append, List.length_replicate]
    omega

/-- `unpad` answers the first bytes of its data. -/
theorem unpad_eq_take {data r : Bytes} {m : Nat} (h : unpad data m = .ok r) : r = data.take r.length := by
  obtain ⟨n, -, -, -, -, -, -, hr⟩ := unpad_ok h
  exact List.prefix_iff_eq_take.mp (hr ▸ List.take_prefix _ _)

/-! ### VALIDATE of PAD and UNPAD (R136, R139) -/

/-- With a legal block length and LEN_A within CAP, the checks of PAD come down to the padded length's. -/
theorem State.firstError_padChecks {s : State} {bl : BitVec 8} (hbl : bl ≠ 0) (hA : s.lenA.toNat ≤ s.config.CAP) :
    firstError (s.padChecks bl) =
      if s.config.CAP < s.paddedLen (blockLen bl) then some .capacity else none := by
  simp only [State.padChecks, firstError_cons, firstError, checkBlockLen, State.checkLenA, State.checkPadded,
    State.paddedLen, beq_iff_eq, decide_eq_true_eq, hbl, Nat.not_lt.mpr hA, if_false]
  rfl

theorem State.firstError_unpadChecks {s : State} {bl : BitVec 8} (hbl : bl ≠ 0)
    (hA : s.lenA.toNat ≤ s.config.CAP) : firstError (s.unpadChecks bl) = none := by
  simp only [State.unpadChecks, firstError_cons, firstError, checkBlockLen, State.checkLenA, beq_iff_eq,
    decide_eq_true_eq, hbl, Nat.not_lt.mpr hA, if_false]

theorem exec_pad_validated {s : State} {bl : BitVec 8} (hp : s.phase = .validate) (hbl : bl ≠ 0)
    (hfit : s.paddedLen (blockLen bl) ≤ s.config.CAP) : exec (.pad bl) s = .next s.padValidated := by
  have hA : s.lenA.toNat ≤ s.config.CAP := le_trans (Nat.le_add_right _ _) hfit
  have hcheck : firstError (s.padChecks bl) = none := by
    rw [State.firstError_padChecks hbl hA, if_neg (Nat.not_lt.mpr hfit)]
  exact (execPad_validate bl hp).trans (by rw [State.validateStep_none hcheck])

theorem exec_pad_overflow {s : State} {bl : BitVec 8} (hp : s.phase = .validate) (hbl : bl ≠ 0)
    (hA : s.lenA.toNat ≤ s.config.CAP) (hover : s.config.CAP < s.paddedLen (blockLen bl)) :
    exec (.pad bl) s = .next (s.raise .capacity) := by
  have hcheck : firstError (s.padChecks bl) = some .capacity := by
    rw [State.firstError_padChecks hbl hA, if_pos hover]
  exact (execPad_validate bl hp).trans (by rw [State.validateStep_some hcheck])

theorem exec_unpad_validated {s : State} {bl : BitVec 8} (hp : s.phase = .validate) (hbl : bl ≠ 0)
    (hA : s.lenA.toNat ≤ s.config.CAP) : exec (.unpad bl) s = .next s.unpadValidated :=
  (execUnpad_validate bl hp).trans (by rw [State.validateStep_none (State.firstError_unpadChecks hbl hA)])

/-- `W[0..LEN_A) <- A[0..LEN_A)`, byte by byte. -/
theorem State.unpadValidated_read (s : State) (addr : Nat) :
    s.unpadValidated.w.read addr = if addr < s.lenA.toNat then s.a.read addr else s.w.read addr := by
  rw [State.unpadValidated_w]
  split
  · next h =>
    rw [Memory.read_writeBytes_inside _ (Nat.zero_le _) (by simpa using h), State.operandA,
      Memory.readBytes_getD _ _ _ (by omega), Nat.sub_zero, Nat.zero_add]
  · next h => exact Memory.read_writeBytes_outside _ (.inr (by simpa using h))

/-- Settles O19: with a legal block length and LEN_A within CAP every check passes but PAD's of the padded length. -/
theorem padderValidateCompletes : Obligations.PadderValidateCompletes := fun s _ hp hbl hA =>
  ⟨fun hfit => exec_pad_validated hp hbl hfit,
    s.unpadValidated, exec_unpad_validated hp hbl hA, s.unpadValidated_read, rfl, rfl, rfl⟩

/-! ### The PAD step of PAD (R137) -/

theorem State.padStep_lengths {s : State} (hl : s.config.legal = true) {bl : BitVec 8}
    (hfit : s.paddedLen (blockLen bl) ≤ s.config.CAP) :
    (s.padStep bl).wlen.toNat = s.paddedLen (blockLen bl) ∧
      (s.padStep bl).lenOut.toNat = s.paddedLen (blockLen bl) :=
  ⟨toNat_ofNat_of_le_cap hl hfit, toNat_ofNat_of_le_cap hl hfit⟩

/-- Settles O20: W takes the bytes of `State.paddedWork`, and the padded length fits the registers. -/
theorem padStepCompletes : Obligations.PadStepCompletes := by
  rintro s bl n hl hp - rfl hfit
  obtain ⟨hwlen, hlenOut⟩ := State.padStep_lengths hl hfit
  have hbl : blockLen bl ≤ 255 := Nat.le_of_lt_succ bl.isLt
  exact ⟨s.padStep bl, execPad_pad bl hp, fun _ h => s.paddedWork_read_data _ h,
    fun _ h h' => s.paddedWork_read_padding _ hbl h h', fun _ h => s.paddedWork_read_rest _ h,
    hwlen, hlenOut, rfl, rfl⟩

/-! ### The UNPAD step (R140) -/

theorem State.unpadStep_of_ok {s : State} {m : Nat} {r : Bytes} (h : unpad s.work m = .ok r) :
    s.unpadStep m = { s with lenOut := BitVec.ofNat 32 r.length, phase := .done } := by
  rw [State.unpadStep, h]

theorem State.unpadStep_of_error {s : State} {m : Nat} {k : ErrorKind} (h : unpad s.work m = .error k) :
    s.unpadStep m = s.raise k := by
  rw [State.unpadStep, h]

/-- A result of `unpad` is no longer than WLEN, so its length fits LEN_OUT. -/
theorem State.unpadStep_lenOut {s : State} {m : Nat} {r : Bytes} (h : unpad s.work m = .ok r) :
    (s.unpadStep m).lenOut.toNat = r.length := by
  have hle := unpad_length_le h
  have hwlen := s.wlen.isLt
  rw [State.work_length] at hle
  rw [State.unpadStep_of_ok h]
  exact Nat.mod_eq_of_lt (by omega)

/-- Settles O21: the step of either command in UNPAD is `State.unpadStep`. -/
theorem unpadStepCompletes : Obligations.UnpadStepCompletes := by
  intro s i m hp hi
  have hexec : exec i s = .next (s.unpadStep m) := by
    rcases hi with ⟨rfl, rfl⟩ | ⟨bl, rfl, rfl⟩
    · exact execCbcDec_unpad hp
    · exact execUnpad_unpad bl hp
  refine ⟨fun r h => ⟨s.unpadStep m, hexec, State.unpadStep_lenOut h, ?_, ?_⟩, fun k h => ?_⟩
  · rw [State.unpadStep_of_ok h]
  · rw [State.unpadStep_of_ok h]
  · rw [hexec, State.unpadStep_of_error h]

/-! ### The commands PAD and UNPAD (R141) -/

/-- The host reads the bytes of `pad`'s result. -/
theorem State.getOut_padStep {s : State} (hl : s.config.legal = true) {bl : BitVec 8}
    (hfit : s.paddedLen (blockLen bl) ≤ s.config.CAP) :
    (s.padStep bl).getOut = padBytes s.operandA (blockLen bl) := by
  obtain ⟨-, hlenOut⟩ := State.padStep_lengths hl hfit
  rw [State.getOut_done rfl (hlenOut.trans_le hfit), hlenOut, ← State.padBytes_operandA_length, State.padStep_w,
    State.paddedWork_eq, Memory.readBytes_writeBytes]

/-- After VALIDATE of UNPAD the operand stands in `W[0..WLEN)`. -/
theorem State.unpadValidated_work (s : State) : s.unpadValidated.work = s.operandA := by
  have h := Memory.readBytes_writeBytes s.w 0 s.operandA
  rwa [State.operandA_length] at h

theorem Memory.readBytes_take (m : Memory) (addr : Nat) {k n : Nat} (h : k ≤ n) :
    (m.readBytes addr n).take k = m.readBytes addr k := by
  rw [Memory.readBytes, ← List.map_take, List.take_range, Nat.min_eq_left h, Memory.readBytes]

/-- The host reads `unpad`'s result, which stands in W already. -/
theorem State.getOut_unpadStep {s : State} {m : Nat} {r : Bytes} (hcap : s.wlen.toNat ≤ s.config.CAP)
    (h : unpad s.work m = .ok r) : (s.unpadStep m).getOut = r := by
  have hle : r.length ≤ s.wlen.toNat := (unpad_length_le h).trans_eq s.work_length
  have hlen := State.unpadStep_lenOut h
  have hstep := State.unpadStep_of_ok h
  have hw : (s.unpadStep m).w = s.w := by rw [hstep]
  have hfit : (s.unpadStep m).lenOut.toNat ≤ (s.unpadStep m).config.CAP := by
    rw [hlen, hstep]
    exact hle.trans hcap
  rw [State.getOut_done (by rw [hstep]) hfit, hlen, hw, ← Memory.readBytes_take s.w 0 hle]
  exact (unpad_eq_take h).symm

theorem State.raise_regRead_err (s : State) (k : ErrorKind) :
    (s.raise k).regRead 0x08 = k.code.setWidth 32 :=
  State.errWord_some rfl

theorem State.raise_memRead_out (s : State) (k : ErrorKind) (addr : Nat) : (s.raise k).memRead .out addr = 0 :=
  State.memRead_out_hidden (.inl (by simp))

/-- What the host finds after an UNPAD step is what `unpad` answers: the result, or the error and nothing else. -/
theorem State.unpadStep_agrees {s : State} (m : Nat) (herr : s.err = none) (hcap : s.wlen.toNat ≤ s.config.CAP) :
    (∀ r, unpad s.work m = .ok r →
      (s.unpadStep m).phase = .done ∧ (s.unpadStep m).regRead 0x08 = 0 ∧ (s.unpadStep m).getOut = r) ∧
    (∀ k, unpad s.work m = .error k →
      (s.unpadStep m).phase = .failed ∧ ((s.unpadStep m).regRead 0x08).toNat = k.code.toNat ∧
        (s.unpadStep m).lenOut = 0 ∧ ∀ addr, (s.unpadStep m).memRead .out addr = 0) := by
  refine ⟨fun r h => ?_, fun k h => ?_⟩
  · rw [State.getOut_unpadStep hcap h, State.unpadStep_of_ok h]
    exact ⟨rfl, State.errWord_none herr, rfl⟩
  · rw [State.unpadStep_of_error h]
    exact ⟨rfl, State.errWord_toNat _, rfl, s.raise_memRead_out k⟩

/-- The first step of a legal word, as soon as the host has written it to CMD. -/
theorem State.Ready.runSteps_one {s u : State} {i : Instr} (hs : s.Ready) (hwf : i.wf = true)
    (hu : exec i (s.commandStart (encode i)) = .next u) : runSteps 1 (s.regWrite 0x00 (encode i)) = .next u := by
  rw [State.regWrite_cmd hs.quiescent]
  have hd : decode (encode i) = .ok i := decodeEncodeRoundTrip.1 i hwf
  exact runSteps_succ ((step_exec (s := s.commandStart (encode i)) hs.legal hs.alone rfl hd).trans hu)

/-- Its second step, when the first left the engine busy. -/
theorem State.Ready.runSteps_two {s u t : State} {i : Instr} (hs : s.Ready) (hwf : i.wf = true)
    (hu : exec i (s.commandStart (encode i)) = .next u) (hb : u.busy = true) (ht : exec i u = .next t) :
    runSteps 2 (s.regWrite 0x00 (encode i)) = .next t := by
  obtain ⟨hcmd, hconfig, hevents, -⟩ := exec_frame hu
  have hd : decode u.cmd = .ok i := by rw [hcmd]; exact decodeEncodeRoundTrip.1 i hwf
  have hstep : step u = .next t :=
    (step_exec (by rw [hconfig]; exact hs.legal) (by rw [hevents]; exact hs.alone) hb hd).trans ht
  exact (runSteps_add (k := 1) (hs.runSteps_one hwf hu)).trans (runSteps_succ hstep)

/-- Settles O54: each command is its VALIDATE step and then, no check failing, the step that computes the function. -/
theorem padderCommandsAgree : Obligations.PadderCommandsAgree := by
  intro s bl hs hbl hA
  have hpad : (Instr.pad bl).wf = true := by simpa [Instr.wf] using hbl
  have hunpad : (Instr.unpad bl).wf = true := by simpa [Instr.wf] using hbl
  refine ⟨fun hfit => ?_, fun hover => ?_, ?_⟩
  · have hvalidate := exec_pad_validated (s := s.commandStart (encode (.pad bl))) rfl hbl hfit
    have hstep := execPad_pad (s := (s.commandStart (encode (.pad bl))).padValidated) bl rfl
    have hout := State.getOut_padStep (s := (s.commandStart (encode (.pad bl))).padValidated) hs.legal hfit
    exact ⟨_, _, hs.runSteps_one hpad hvalidate, rfl, hs.runSteps_two hpad hvalidate rfl hstep, rfl,
      State.errWord_none rfl, congrArg Except.ok hout.symm, rfl, rfl⟩
  · have hvalidate := exec_pad_overflow (s := s.commandStart (encode (.pad bl))) rfl hbl hA hover
    exact ⟨_, hs.runSteps_one hpad hvalidate, rfl, State.raise_regRead_err _ _, rfl, rfl⟩
  · have hvalidate := exec_unpad_validated (s := s.commandStart (encode (.unpad bl))) rfl hbl hA
    have hstep := execUnpad_unpad (s := (s.commandStart (encode (.unpad bl))).unpadValidated) bl rfl
    have hagrees :=
      State.unpadStep_agrees (s := (s.commandStart (encode (.unpad bl))).unpadValidated) (blockLen bl) rfl hA
    rw [State.unpadValidated_work] at hagrees
    obtain ⟨ha, hb, -⟩ := (s.commandStart (encode (.unpad bl))).unpadValidated.unpadStep_frame (blockLen bl)
    exact ⟨_, _, hs.runSteps_one hunpad hvalidate, rfl, hs.runSteps_two hunpad hvalidate rfl hstep, ha, hb, hagrees⟩

end Sys2Proof.Machine
end

section
/-! PROOFS. BlockXor (42_blockxor.md): the laws of `xor` (R150, R151), the steps of XOR (R153, R154), and the command
as the function (R155). -/

namespace Sys2Proof.Machine

/-! ### The function xor (R150, R151) -/

theorem xor_of_length_eq {x y : Bytes} (h : x.length = y.length) : xor x y = .ok (xorBytes x y) :=
  if_neg (not_not.mpr h)

theorem xor_of_length_ne {x y : Bytes} (h : x.length ≠ y.length) : xor x y = .error .lengthMismatch :=
  if_pos h

/-- `xor` succeeds exactly on operands of one length (R150). -/
theorem xor_eq_ok_iff {x y r : Bytes} : xor x y = .ok r ↔ x.length = y.length ∧ xorBytes x y = r := by
  by_cases h : x.length = y.length
  · simp [xor_of_length_eq h, h]
  · simp [xor_of_length_ne h, h]

theorem xor_eq_lengthMismatch_iff {x y : Bytes} : xor x y = .error .lengthMismatch ↔ x.length ≠ y.length := by
  by_cases h : x.length = y.length
  · simp [xor_of_length_eq h, h]
  · simp [xor_of_length_ne h, h]

theorem xorBytes_length_of_eq {x y : Bytes} (h : x.length = y.length) : (xorBytes x y).length = x.length := by
  rw [xorBytes_length, h, Nat.min_self]

/-- Zeros are `x XOR x`, so they change nothing (R151 item 4). -/
theorem xorBytes_zeros (x : Bytes) : xorBytes x (List.replicate x.length 0) = x := by
  rw [← xorBytes_self, ← xorBytes_assoc, xorBytes_cancel le_rfl]

/-- Settles O46: each law is that of `xorBytes`, once the lengths agree. -/
theorem xorLaws : Obligations.XorLaws := by
  refine fun x y => ⟨xor_of_length_ne, fun h => ?_, ?_, ?_⟩
  · have hlen := xorBytes_length_of_eq h
    refine ⟨xorBytes x y, xor_of_length_eq h, hlen, fun j hj => xorBytes_getD hj (h ▸ hj), ?_, ?_, ?_⟩
    · rw [xor_of_length_eq h.symm, xorBytes_comm]
    · rw [xor_of_length_eq (hlen.trans h), xorBytes_cancel h.le]
    · intro z hz yz hyz
      obtain ⟨-, rfl⟩ := xor_eq_ok_iff.mp hyz
      rw [xor_of_length_eq (hlen.trans (h.trans hz)), xor_of_length_eq (h.trans (xorBytes_length_of_eq hz).symm),
        xorBytes_assoc]
  · rw [xor_of_length_eq rfl, xorBytes_self]
  · rw [xor_of_length_eq List.length_replicate.symm, xorBytes_zeros]

/-! ### VALIDATE of XOR (R153) -/

/-- With both lengths within CAP, the checks of XOR come down to the comparison of the lengths. -/
theorem State.firstError_xorChecks {s : State} (hA : s.lenA.toNat ≤ s.config.CAP)
    (hB : s.lenB.toNat ≤ s.config.CAP) :
    firstError s.xorChecks = if s.lenA = s.lenB then none else some .lengthMismatch := by
  simp only [State.xorChecks, firstError_cons, firstError, State.checkLenA, State.checkLenB, State.checkSameLen,
    decide_eq_true_eq, bne_iff_ne, Nat.not_lt.mpr hA, Nat.not_lt.mpr hB, if_false, ite_not]

theorem exec_xor_validated {s : State} (hp : s.phase = .validate) (hA : s.lenA.toNat ≤ s.config.CAP)
    (hlen : s.lenA = s.lenB) : exec .xor s = .next s.xorValidated := by
  have hcheck : firstError s.xorChecks = none := by
    rw [State.firstError_xorChecks hA (hlen ▸ hA), if_pos hlen]
  exact (execXor_validate hp).trans (by rw [State.validateStep_none hcheck])

theorem exec_xor_mismatch {s : State} (hp : s.phase = .validate) (hA : s.lenA.toNat ≤ s.config.CAP)
    (hB : s.lenB.toNat ≤ s.config.CAP) (hlen : s.lenA ≠ s.lenB) :
    exec .xor s = .next (s.raise .lengthMismatch) := by
  have hcheck : firstError s.xorChecks = some .lengthMismatch := by
    rw [State.firstError_xorChecks hA hB, if_neg hlen]
  exact (execXor_validate hp).trans (by rw [State.validateStep_some hcheck])

/-! ### The PROCESS step of XOR (R154) -/

/-- `W[i] <- A[i] XOR B[i]` below LEN_A, and no other byte (whatever LEN_B is: VALIDATE has compared the lengths). -/
theorem State.xorStep_read (s : State) (addr : Nat) :
    s.xorStep.w.read addr =
      if addr < s.lenA.toNat then s.a.read addr ^^^ s.b.read addr else s.w.read addr := by
  have hlen : (xorBytes s.operandA (s.b.readBytes 0 s.lenA.toNat)).length = s.lenA.toNat := by simp
  rw [State.xorStep_w]
  split
  · next h =>
    rw [Memory.read_writeBytes_inside _ (Nat.zero_le _) (by omega), Nat.sub_zero,
      xorBytes_getD (by simpa using h) (by simpa using h), State.operandA, Memory.readBytes_getD _ _ _ h,
      Memory.readBytes_getD _ _ _ h, Nat.zero_add]
  · next h => exact Memory.read_writeBytes_outside _ (.inr (by omega))

/-- Settles O22: with both lengths within CAP the checks compare them; PROCESS writes the operand's bytes alone. -/
theorem xorCompletes : Obligations.XorCompletes := fun s =>
  ⟨fun hp hA hlen => exec_xor_validated hp hA hlen.symm,
    fun hp hA hB hlen => exec_xor_mismatch hp hA hB hlen.symm,
    fun hp => ⟨s.xorStep, execXor_process hp, s.xorStep_read, rfl, rfl, rfl, rfl⟩⟩

/-! ### The command XOR (R155) -/

theorem State.operand_lengths_eq_iff (s : State) : s.operandA.length = s.operandB.length ↔ s.lenA = s.lenB := by
  rw [State.operandA_length, State.operandB_length, BitVec.toNat_inj]

/-- The host reads the bytes of `xor`'s result. -/
theorem State.getOut_xorStep {s : State} (hA : s.lenA.toNat ≤ s.config.CAP) (hlen : s.lenA = s.lenB) :
    s.xorStep.getOut = xorBytes s.operandA s.operandB := by
  have hout : s.xorStep.w = s.w.writeBytes 0 (xorBytes s.operandA s.operandB) := by
    rw [State.xorStep_w, hlen, State.operandB]
  have hlength : (xorBytes s.operandA s.operandB).length = s.lenA.toNat := by
    rw [xorBytes_length_of_eq (s.operand_lengths_eq_iff.mpr hlen), State.operandA_length]
  rw [State.getOut_done rfl hA, hout, State.xorStep_lenOut, ← hlength, Memory.readBytes_writeBytes]

/-- Settles O55: the command is its VALIDATE step and, when the lengths agree, the step that computes the function. -/
theorem xorCommandAgrees : Obligations.XorCommandAgrees := by
  intro s hs hA hB
  refine ⟨fun r h => ?_, fun h => ?_⟩
  · obtain ⟨hlength, rfl⟩ := xor_eq_ok_iff.mp h
    have hlen := s.operand_lengths_eq_iff.mp hlength
    have hvalidate := exec_xor_validated (s := s.commandStart (encode .xor)) rfl hA hlen
    have hstep := execXor_process (s := (s.commandStart (encode .xor)).xorValidated) rfl
    exact ⟨_, _, hs.runSteps_one (i := .xor) rfl hvalidate, rfl,
      hs.runSteps_two (i := .xor) rfl hvalidate rfl hstep, rfl,
      State.errWord_none rfl, State.getOut_xorStep (s := (s.commandStart (encode .xor)).xorValidated) hA hlen⟩
  · have hlen := mt s.operand_lengths_eq_iff.mpr (xor_eq_lengthMismatch_iff.mp h)
    have hvalidate := exec_xor_mismatch (s := s.commandStart (encode .xor)) rfl hA hB hlen
    exact ⟨_, hs.runSteps_one (i := .xor) rfl hvalidate, rfl, State.raise_regRead_err _ _, rfl⟩

end Sys2Proof.Machine
end


section
/-! PROOFS. The functions cbc_encrypt and cbc_decrypt (43_cbc_engine.md sections 1, 2 and 5): what a block of each chain
depends on (R162), the lengths (R164), the round trip (R176), a changed block and a corrupted padding (R177). -/

namespace Sys2Proof.Machine

/-! ### The two chains (R160 to R162) -/

/-- What comes later in the plaintext does not reach the blocks before it. -/
theorem encBlocks_append_take (E : Bytes → Bytes) (v : Bytes) (ps qs : List Bytes) :
    (encBlocks E v (ps ++ qs)).take ps.length = encBlocks E v ps := by
  induction ps generalizing v with
  | nil => rfl
  | cons p ps ih => exact congrArg (E (xorBytes v p) :: ·) (ih _)

/-- Decryption lays the ciphertext blocks beside the same blocks one place later, with the IV in front. -/
theorem decBlocks_eq_zipWith (D : Bytes → Bytes) (v : Bytes) (cs : List Bytes) :
    decBlocks D v cs = List.zipWith (fun c prev => xorBytes (D c) prev) cs (v :: cs) := by
  induction cs generalizing v with
  | nil => rfl
  | cons c cs ih => exact congrArg (xorBytes (D c) v :: ·) (ih c)

theorem decBlocks_getElem? (D : Bytes → Bytes) (v : Bytes) {cs : List Bytes} {i : Nat} (h : i < cs.length) :
    (decBlocks D v cs)[i]? = some (xorBytes (D (cs.getD i [])) ((v :: cs).getD i [])) := by
  have hv : i < (v :: cs).length := Nat.lt_succ_of_lt h
  simp only [decBlocks_eq_zipWith, List.getElem?_zipWith, List.getD, List.getElem?_eq_getElem h,
    List.getElem?_eq_getElem hv, Option.getD_some]

theorem decBlocks_getD (D : Bytes → Bytes) (v : Bytes) {cs : List Bytes} {i : Nat} (h : i < cs.length) :
    (decBlocks D v cs).getD i [] = xorBytes (D (cs.getD i [])) ((v :: cs).getD i []) := by
  rw [List.getD, decBlocks_getElem? D v h, Option.getD_some]

/-- A deciphered block stays when its ciphertext block and the one before it do. -/
theorem decBlocks_getElem?_congr (D : Bytes → Bytes) {v v' : Bytes} {cs cs' : List Bytes} {i : Nat}
    (hc : cs'[i]? = cs[i]?) (hprev : (v' :: cs')[i]? = (v :: cs)[i]?) :
    (decBlocks D v' cs')[i]? = (decBlocks D v cs)[i]? := by
  rw [decBlocks_eq_zipWith, decBlocks_eq_zipWith, List.getElem?_zipWith, List.getElem?_zipWith, hc, hprev]

/-- The block before block `i` is the IV, or block `i - 1`. -/
theorem getD_cons_eq_ite (v : Bytes) (cs : List Bytes) (i : Nat) :
    (v :: cs).getD i [] = if i = 0 then v else cs.getD (i - 1) [] := by
  cases i with
  | zero => rfl
  | succ i => rfl

/-- Settles O48: the encryption chain by its recursion, the decryption chain as a `zipWith`. -/
theorem chainStructure : Obligations.ChainStructure := by
  refine ⟨encBlocks_append_take, fun D iv cs i h => ?_⟩
  rw [decBlocks_getElem? D iv h, getD_cons_eq_ite]

/-! ### Lengths (R164) -/

theorem cbcEncrypt_eq_ok_iff {E : Bytes → Bytes} {L : Nat} {p iv r : Bytes} : cbcEncrypt E L p iv = .ok r ↔
    iv.length = L ∧ (encBlocks E iv (blocksOf L (padBytes p L))).flatten = r := by
  by_cases h : iv.length = L
  · simp [cbcEncrypt_ok E p h, h]
  · simp [cbcEncrypt_error E p h, h]

theorem cbcDecrypt_of_lengths (D : Bytes → Bytes) {L : Nat} {c iv : Bytes} (hiv : iv.length = L)
    (hmod : c.length % L = 0) :
    cbcDecrypt D L c iv = unpad (decBlocks D iv (blocksOf L c)).flatten L := by
  rw [cbcDecrypt, if_neg (not_not.mpr hiv), if_neg (not_not.mpr hmod)]

theorem cbcDecrypt_of_wrong_length (D : Bytes → Bytes) {L : Nat} {c iv : Bytes}
    (h : iv.length ≠ L ∨ c.length % L ≠ 0) : cbcDecrypt D L c iv = .error .invalidLength := by
  unfold cbcDecrypt
  split
  · rfl
  · next hiv => exact if_pos (h.resolve_left hiv)

theorem cbcDecrypt_lengths {D : Bytes → Bytes} {L : Nat} {c iv r : Bytes} (h : cbcDecrypt D L c iv = .ok r) :
    iv.length = L ∧ c.length % L = 0 := by
  by_contra hne
  rw [cbcDecrypt_of_wrong_length D (by tauto)] at h
  cases h

theorem encBlocks_flatten_length {E : Bytes → Bytes} {L : Nat} (hL : 1 ≤ L)
    (hE : ∀ x, x.length = L → (E x).length = L) {iv : Bytes} (hiv : iv.length = L) (p : Bytes) :
    (encBlocks E iv (blocksOf L (padBytes p L))).flatten.length = (p.length / L + 1) * L := by
  rw [flatten_length_of_forall (encBlocks_mem_length hE hiv fun _ => blocksOf_mem_length), encBlocks_length,
    blocksOf_padBytes_length hL]

theorem decBlocks_flatten_length {D : Bytes → Bytes} {L : Nat} (hD : ∀ x, x.length = L → (D x).length = L)
    {iv : Bytes} (hiv : iv.length = L) {c : Bytes} (hmod : c.length % L = 0) :
    (decBlocks D iv (blocksOf L c)).flatten.length = c.length := by
  rw [flatten_length_of_forall (decBlocks_mem_length hD hiv fun _ => blocksOf_mem_length), decBlocks_length,
    blocksOf_length, Nat.div_mul_cancel (Nat.dvd_of_mod_eq_zero hmod)]

/-- Settles O47: the chains keep the number and the length of the blocks; `pad` and `unpad` do the rest. -/
theorem cbcLengthLaws : Obligations.CbcLengthLaws := by
  refine fun E D L p c iv r hL h255 hE hD => ⟨fun h => ?_, fun h => ?_⟩
  · obtain ⟨hiv, rfl⟩ := cbcEncrypt_eq_ok_iff.mp h
    exact encBlocks_flatten_length hL hE hiv p
  · obtain ⟨hiv, hmod⟩ := cbcDecrypt_lengths h
    rw [cbcDecrypt_of_lengths D hiv hmod] at h
    rw [← decBlocks_flatten_length hD hiv hmod]
    exact (unpadInvertsPad _ L hL h255).2 r h

/-! ### The round trip (R176) -/

/-- Under CIPHER_INV each block is deciphered to chaining value XOR plaintext block, and the chaining values agree. -/
theorem decBlocks_encBlocks {E D : Bytes → Bytes} {L : Nat} (hE : ∀ x, x.length = L → (E x).length = L)
    (hinv : CipherInv E D L) {v : Bytes} (hv : v.length = L) {ps : List Bytes} (hp : ∀ p ∈ ps, p.length = L) :
    decBlocks D v (encBlocks E v ps) = ps := by
  induction ps generalizing v with
  | nil => rfl
  | cons p ps ih =>
    have hpL : p.length = L := hp p List.mem_cons_self
    have hx : (xorBytes v p).length = L := by rw [xorBytes_length, hv, hpL, Nat.min_self]
    rw [encBlocks, decBlocks, hinv _ hx, xorBytes_comm v p, xorBytes_cancel (hpL.trans hv.symm).le,
      xorBytes_comm p v, ih (hE _ hx) fun q hq => hp q (List.mem_cons_of_mem _ hq)]

/-- Settles O49: joining and splitting, the chain, and padding are each undone. -/
theorem cbcRoundTrip : Obligations.CbcRoundTrip := by
  intro E D L p iv c hL h255 hE hinv hiv h
  obtain ⟨-, rfl⟩ := cbcEncrypt_eq_ok_iff.mp h
  have hlen := encBlocks_flatten_length hL hE hiv p
  have hpad : (padBytes p L).length % L = 0 := by rw [padBytes_length, add_padCount hL, Nat.mul_mod_left]
  have hblocks : ∀ q ∈ blocksOf L (padBytes p L), q.length = L := fun _ => blocksOf_mem_length
  refine ⟨?_, fun hp => ?_⟩
  · rw [cbcDecrypt_of_lengths D hiv (by rw [hlen, Nat.mul_mod_left]),
      blocksOf_flatten_of_forall hL (encBlocks_mem_length hE hiv hblocks), decBlocks_encBlocks hE hinv hiv hblocks,
      blocksOf_flatten hpad, unpad_padBytes hL h255]
  · have hdiv := Nat.div_mul_le_self p.length L
    rw [hlen, Nat.succ_mul]
    omega

/-! ### A changed ciphertext block (R177, first part) -/

/-- Settles O50: a changed block or IV takes part in the two places of the `zipWith` that hold it. -/
theorem changedBlockEffect : Obligations.ChangedBlockEffect := by
  intro D L iv δ cs j _ _ _ _ hj
  refine ⟨fun i hi hi' => ?_, fun hj' => ?_, ?_, ?_, fun i hi => ?_⟩
  · exact decBlocks_getElem?_congr D (List.getElem?_set_ne hi.symm)
      (List.getElem?_set_ne (l := iv :: cs) (i := j + 1) hi'.symm)
  · rw [decBlocks_getD D iv (by simpa using hj'), decBlocks_getD D iv hj', xorBytes_assoc]
    simp [List.getD, hj]
  · rw [decBlocks_getD D iv (by simpa using hj), ← getD_cons_eq_ite]
    have hprev : (iv :: cs.set j (xorBytes (cs.getD j []) δ)).getD j [] = (iv :: cs).getD j [] :=
      congrArg (·.getD []) (List.getElem?_set_ne (l := iv :: cs) (i := j + 1) (by omega))
    rw [hprev]
    simp [List.getD, hj]
  · have h0 : 0 < cs.length := by omega
    rw [decBlocks_getD D _ h0, decBlocks_getD D _ h0, xorBytes_assoc]
    rfl
  · obtain ⟨i, rfl⟩ := Nat.exists_eq_succ_of_ne_zero hi
    exact decBlocks_getElem?_congr D rfl rfl

/-! ### Corrupted padding (R177, second part) -/

/-- `unpad` on bytes given by address: `n` bytes of value `n` at the end come off. -/
theorem unpad_of_getD_tail {data : Bytes} {m n : Nat} (h255 : m ≤ 255) (hmod : data.length % m = 0)
    (hn : 1 ≤ n) (hnm : n ≤ m) (hlen : n ≤ data.length)
    (htail : ∀ j, data.length - n ≤ j → j < data.length → data.getD j 0 = BitVec.ofNat 8 n) :
    unpad data m = .ok (data.take (data.length - n)) := by
  have hdrop : data.drop (data.length - n) = List.replicate n (BitVec.ofNat 8 n) := by
    refine List.ext_getElem (by simp; omega) fun i h1 h2 => ?_
    have hi : data.length - n + i < data.length := by rw [List.length_drop] at h1; omega
    have hbyte := htail _ (Nat.le_add_right _ i) hi
    rw [List.getD, List.getElem?_eq_getElem hi, Option.getD_some] at hbyte
    rw [List.getElem_drop, List.getElem_replicate, hbyte]
  exact (unpad_eq_ok_iff h255).mpr
    ⟨by omega, hmod, n, hn, hnm, by rw [← hdrop, List.take_append_drop]⟩

/-- What a successful `unpad` has read: the last byte is the count `n`, and so is each of the last `n` bytes. -/
theorem getD_tail_of_unpad {data r : Bytes} {m : Nat} (h : unpad data m = .ok r) :
    ∃ n, n = (data.getD (data.length - 1) 0).toNat ∧ 1 ≤ n ∧ n ≤ m ∧
      ∀ j, data.length - n ≤ j → j < data.length → (data.getD j 0).toNat = n := by
  obtain ⟨n, hlast, -, -, hn, hnm, htail, -⟩ := unpad_ok h
  refine ⟨n, hlast, hn, hnm, fun j hj hlt => ?_⟩
  have hmem : data.getD j 0 ∈ data.drop (data.length - n) := by
    rw [List.getD, List.getElem?_eq_getElem hlt, Option.getD_some, List.mem_drop_iff_getElem]
    exact ⟨j - (data.length - n), by omega, by congr 1; omega⟩
  have hn8 : n < 2 ^ 8 := hlast ▸ (data.getD (data.length - 1) 0).isLt
  rw [htail _ hmem, BitVec.toNat_ofNat, Nat.mod_eq_of_lt hn8]

/-- On whole blocks the one failure of `unpad` is PaddingError. -/
theorem unpad_eq_padding {data : Bytes} {m : Nat} (hpos : 1 ≤ data.length) (hmod : data.length % m = 0)
    (h : ∀ r, unpad data m ≠ .ok r) : unpad data m = .error .padding := by
  cases hu : unpad data m with
  | ok r => exact absurd hu (h r)
  | error k =>
    rcases unpad_error hu with ⟨-, hlen⟩ | ⟨rfl, -⟩
    · omega
    · rfl

theorem getD_set_eq_ite (q : Bytes) {pos : Nat} (h : pos < q.length) (v : Byte) (j : Nat) :
    (q.set pos v).getD j 0 = if j = pos then v else q.getD j 0 := by
  split
  · next hj => simp [hj, List.getD, h]
  · next hj => rw [List.getD, List.getElem?_set_ne (Ne.symm hj), List.getD]

/-- The bytes of a padding of `k` bytes. -/
theorem getD_append_replicate (pre : Bytes) {k : Nat} (hk : k ≤ 255) {j : Nat} (hj : pre.length ≤ j)
    (hlt : j < pre.length + k) :
    ((pre ++ List.replicate k (BitVec.ofNat 8 k)).getD j 0).toNat = k := by
  rw [List.getD_append_right _ _ _ _ hj, List.getD, List.getElem?_replicate, if_pos (by omega), Option.getD_some,
    BitVec.toNat_ofNat, Nat.mod_eq_of_lt (by omega)]

/-- A last byte `v` that makes the last `v` bytes all `v` is a valid padding again. -/
theorem unpad_set_last {q : Bytes} {m pos : Nat} {v : Byte} (h255 : m ≤ 255) (hmod : q.length % m = 0)
    (hlast : pos + 1 = q.length) (hv : 1 ≤ v.toNat) (hvm : v.toNat ≤ m)
    (htail : ∀ j, q.length - v.toNat ≤ j → j + 1 < q.length → q.getD j 0 = v) :
    unpad (q.set pos v) m = .ok (q.take (q.length - v.toNat)) := by
  have hlen : (q.set pos v).length = q.length := List.length_set
  have hm : m ≤ q.length := Nat.le_of_dvd (by omega) (Nat.dvd_of_mod_eq_zero hmod)
  have hunpad : unpad (q.set pos v) m = .ok ((q.set pos v).take ((q.set pos v).length - v.toNat)) := by
    refine unpad_of_getD_tail h255 (hlen ▸ hmod) hv hvm (by omega) fun j hj hlt => ?_
    rw [BitVec.ofNat_toNat, BitVec.setWidth_eq, getD_set_eq_ite q (by omega)]
    split
    · rfl
    · next hne => exact htail j (by omega) (by omega)
  rw [hunpad, hlen, List.take_set_of_le (by omega)]

/-- When `unpad` accepts a padding of `k` bytes of which one has changed, the last byte has: to 1, or, when it was the
whole padding, to a count that the bytes before it happen to bear out. -/
theorem cases_of_unpad_set {q pre r : Bytes} {m k pos : Nat} {v : Byte} (hk : 1 ≤ k) (hk8 : k ≤ 255)
    (hq : q = pre ++ List.replicate k (BitVec.ofNat 8 k)) (hpre : pre.length ≤ pos) (hpos : pos < q.length)
    (hv : v.toNat ≠ k) (h : unpad (q.set pos v) m = .ok r) :
    (pos + 1 = q.length ∧ 2 ≤ k ∧ v.toNat = 1) ∨
    (k = 1 ∧ 2 ≤ v.toNat ∧ v.toNat ≤ m ∧ ∀ j, q.length - v.toNat ≤ j → j + 1 < q.length → q.getD j 0 = v) := by
  have hlen : q.length = pre.length + k := by rw [hq, List.length_append, List.length_replicate]
  have hold : ∀ j, pre.length ≤ j → j < q.length → (q.getD j 0).toNat = k := fun j hj hlt => by
    rw [hq]
    exact getD_append_replicate pre hk8 hj (by omega)
  obtain ⟨n, hn, hn1, hnm, htail⟩ := getD_tail_of_unpad h
  simp only [List.length_set, getD_set_eq_ite q hpos] at hn htail
  by_cases hlast : pos + 1 = q.length
  · rw [if_pos (by omega)] at hn
    have hbefore : ∀ j, q.length - n ≤ j → j + 1 < q.length → (q.getD j 0).toNat = n := fun j hj hlt => by
      rw [← htail j hj (by omega), if_neg (by omega)]
    by_cases hk2 : 2 ≤ k
    · refine .inl ⟨hlast, hk2, ?_⟩
      by_contra hne
      have hthis := hold (q.length - 2) (by omega) (by omega)
      have hthat := hbefore (q.length - 2) (by omega) (by omega)
      omega
    · exact .inr ⟨by omega, by omega, by omega, fun j hj hlt => BitVec.eq_of_toNat_eq
        ((hbefore j (by omega) hlt).trans hn)⟩
  · rw [if_neg (by omega), hold _ (by omega) (by omega)] at hn
    have hchanged := htail pos (by omega) hpos
    rw [if_pos rfl] at hchanged
    omega

/-- Settles O51: the two cases are those in which the last byte is the count of a valid padding. -/
theorem corruptedPadding : Obligations.CorruptedPadding := by
  intro q pre m k pos v hm h255 hmod hk hkm hq hpre hpos hv
  have hlen : q.length = pre.length + k := by rw [hq, List.length_append, List.length_replicate]
  refine ⟨fun hlast _ hv1 => ?_, fun hk1 hv2 hvm htail => ?_, fun ha hb => ?_⟩
  · have htake := unpad_set_last h255 hmod hlast hv1.ge (by omega) fun j _ _ => by omega
    rwa [hv1] at htake
  · exact unpad_set_last h255 hmod (by omega) (by omega) hvm htail
  · refine unpad_eq_padding (by rw [List.length_set]; omega) (by rw [List.length_set]; exact hmod) fun r hr => ?_
    exact (cases_of_unpad_set hk (by omega) hq hpre hpos hv hr).elim ha hb

end Sys2Proof.Machine
end

section
/-! PROOFS. The steps of CBC.ENC and CBC.DEC (43_cbc_engine.md R166 to R168, R170, R171): what each completes
with, and its frame. -/

namespace Sys2Proof.Machine

/-! ### VALIDATE (R166, R170) -/

theorem State.iv_getD (s : State) {j : Nat} (h : j < s.config.L) : s.iv.getD j 0 = s.b.read j := by
  rw [State.iv, Memory.readBytes_getD _ _ _ h, Nat.zero_add]

/-- Once `LEN_B = L` is checked, operand B is the IV. -/
theorem State.operandB_eq_iv {s : State} (h : s.lenB.toNat = s.config.L) : s.operandB = s.iv := by
  rw [State.operandB, State.iv, h]

theorem exec_cbcEnc_validated {s : State} (hp : s.phase = .validate) (hB : s.lenB.toNat ≤ s.config.CAP)
    (hiv : s.lenB.toNat = s.config.L) (hfit : s.paddedLen s.config.L ≤ s.config.CAP) :
    exec .cbcEnc s = .next s.encValidated := by
  have hcheck : firstError s.encChecks = none := by rw [State.firstError_encChecks hB hfit, if_pos hiv]
  exact (execCbcEnc_validate hp).trans (by rw [State.validateStep_none hcheck])

theorem exec_cbcEnc_wrong_iv {s : State} (hp : s.phase = .validate) (hB : s.lenB.toNat ≤ s.config.CAP)
    (hiv : s.lenB.toNat ≠ s.config.L) (hfit : s.paddedLen s.config.L ≤ s.config.CAP) :
    exec .cbcEnc s = .next (s.raise .invalidLength) := by
  have hcheck : firstError s.encChecks = some .invalidLength := by
    rw [State.firstError_encChecks hB hfit, if_neg hiv]
  exact (execCbcEnc_validate hp).trans (by rw [State.validateStep_some hcheck])

/-- With both lengths within CAP, the checks of CBC.DEC come down to those of the IV and of whole blocks. -/
theorem State.firstError_decChecks_eq {s : State} (hA : s.lenA.toNat ≤ s.config.CAP)
    (hB : s.lenB.toNat ≤ s.config.CAP) :
    firstError s.decChecks =
      if s.lenB.toNat ≠ s.config.L ∨ s.lenA.toNat % s.config.L ≠ 0 then some .invalidLength else none := by
  simp only [State.decChecks, firstError_cons, firstError, State.checkLenA, State.checkLenB, State.checkIvLen,
    State.checkMultiple, decide_eq_true_eq, bne_iff_ne, Nat.not_lt.mpr hA, Nat.not_lt.mpr hB, if_false]
  by_cases hiv : s.lenB.toNat = s.config.L
  · simp [hiv]
  · simp [hiv]

theorem exec_cbcDec_validated {s : State} (hp : s.phase = .validate) (hA : s.lenA.toNat ≤ s.config.CAP)
    (hB : s.lenB.toNat ≤ s.config.CAP) (hiv : s.lenB.toNat = s.config.L)
    (hmod : s.lenA.toNat % s.config.L = 0) : exec .cbcDec s = .next s.decValidated := by
  have hcheck : firstError s.decChecks = none := by
    rw [State.firstError_decChecks_eq hA hB, if_neg (by simp [hiv, hmod])]
  exact (execCbcDec_validate hp).trans (by rw [State.validateStep_none hcheck])

theorem exec_cbcDec_wrong_length {s : State} (hp : s.phase = .validate) (hA : s.lenA.toNat ≤ s.config.CAP)
    (hB : s.lenB.toNat ≤ s.config.CAP) (hbad : s.lenB.toNat ≠ s.config.L ∨ s.lenA.toNat % s.config.L ≠ 0) :
    exec .cbcDec s = .next (s.raise .invalidLength) := by
  have hcheck : firstError s.decChecks = some .invalidLength := by
    rw [State.firstError_decChecks_eq hA hB, if_pos hbad]
  exact (execCbcDec_validate hp).trans (by rw [State.validateStep_some hcheck])

/-- Settles O23: CHAIN takes the IV, whose bytes are those of B. -/
theorem encValidateCompletes : Obligations.EncValidateCompletes := fun s hp hB hiv hfit =>
  ⟨s.encValidated, exec_cbcEnc_validated hp hB hiv hfit, s.iv_length, fun _ => s.iv_getD, rfl, rfl⟩

/-- A count of blocks of operand A fits NBLK, whatever L is. -/
theorem State.decValidated_nblk_toNat (s : State) :
    s.decValidated.nblk.toNat = s.lenA.toNat / s.config.L :=
  Nat.mod_eq_of_lt (lt_of_le_of_lt (Nat.div_le_self _ _) s.lenA.isLt)

/-- Settles O26: CHAIN takes the IV, NBLK the number of blocks, and no block goes straight to UNPAD. -/
theorem decValidateCompletes : Obligations.DecValidateCompletes := fun s hp hA hB hiv hmod =>
  ⟨s.decValidated, exec_cbcDec_validated hp hA hB hiv hmod, s.iv_length, fun _ => s.iv_getD,
    s.decValidated_nblk_toNat, rfl, fun hpos => if_pos hpos, fun hnil => if_neg hnil.not_gt, rfl⟩

/-! ### The PAD step of CBC.ENC (R167) -/

theorem State.encPadStep_lengths {s : State} (hl : s.config.legal = true)
    (hfit : s.paddedLen s.config.L ≤ s.config.CAP) :
    s.encPadStep.wlen.toNat = s.paddedLen s.config.L ∧
      s.encPadStep.nblk.toNat = s.paddedLen s.config.L / s.config.L :=
  ⟨toNat_ofNat_of_le_cap hl hfit, toNat_ofNat_of_le_cap hl ((Nat.div_le_self _ _).trans hfit)⟩

/-- Settles O24: W takes the bytes of `State.paddedWork`, whose length is a whole number of blocks. -/
theorem encPadStepCompletes : Obligations.EncPadStepCompletes := by
  rintro s n hl hp rfl hfit
  obtain ⟨hL, h255, -, -⟩ := (legal_iff _).mp hl
  obtain ⟨hwlen, hnblk⟩ := State.encPadStep_lengths hl hfit
  have hcount : s.paddedLen s.config.L / s.config.L = s.lenA.toNat / s.config.L + 1 := by
    rw [State.paddedLen, add_padCount hL, Nat.mul_div_cancel _ hL]
  exact ⟨s.encPadStep, execCbcEnc_pad hp, fun _ h => s.paddedWork_read_data _ h,
    fun _ h h' => s.paddedWork_read_padding _ h255 h h', fun _ h => s.paddedWork_read_rest _ h,
    hwlen, hnblk, hnblk.trans hcount, rfl, rfl⟩

/-! ### The PROCESS steps (R168, R171) -/

/-- Byte sequences are equal when they have one length and the same bytes. -/
theorem bytes_ext_getD {x y : Bytes} (hlen : x.length = y.length)
    (h : ∀ j, j < x.length → x.getD j 0 = y.getD j 0) : x = y := by
  refine List.ext_getElem hlen fun j hx hy => ?_
  simpa [List.getD, hx, hy] using h j hx

theorem Memory.block_getD (m : Memory) {len i j : Nat} (h : j < len) :
    (m.block len i).getD j 0 = m.read (i * len + j) :=
  Memory.readBytes_getD m _ _ h

theorem Memory.read_writeBlock_inside (m : Memory) {len i j : Nat} {vs : Bytes} (hvs : vs.length = len) (h : j < len) :
    (m.writeBytes (i * len) vs).read (i * len + j) = vs.getD j 0 := by
  rw [Memory.read_writeBytes_inside m (Nat.le_add_right _ _) (by omega), Nat.add_sub_cancel_left]

theorem Memory.read_writeBlock_outside (m : Memory) {len i addr : Nat} {vs : Bytes} (hvs : vs.length = len)
    (h : addr < i * len ∨ (i + 1) * len ≤ addr) : (m.writeBytes (i * len) vs).read addr = m.read addr := by
  rw [Nat.succ_mul] at h
  exact Memory.read_writeBytes_outside m (hvs ▸ h)

/-- IDX never wraps on a block below NBLK. -/
theorem State.blockIndex_succ_toNat {s : State} (h : s.idx.toNat < s.nblk.toNat) :
    (BitVec.ofNat 32 (s.blockIndex + 1)).toNat = s.idx.toNat + 1 :=
  Nat.mod_eq_of_lt (lt_of_le_of_lt h s.nblk.isLt)

theorem State.lastBlock_iff (s : State) : s.lastBlock = true ↔ s.idx.toNat + 1 = s.nblk.toNat := by
  rw [State.lastBlock, beq_iff_eq, State.blockIndex]

theorem State.encInput_getD {s : State} (hchain : s.chain.length = s.config.L) {j : Nat} (h : j < s.config.L) :
    s.encInput.getD j 0 = s.chain.getD j 0 ^^^ s.w.read (s.idx.toNat * s.config.L + j) := by
  rw [State.encInput, xorBytes_getD (hchain ▸ h) (by rwa [Memory.block_length]), Memory.block_getD _ h]
  rfl

/-- Settles O25: the block given to the port is CHAIN XOR block IDX, and the step writes the answer over that block. -/
theorem encProcessStepCompletes : Obligations.EncProcessStepCompletes := by
  rintro s i x hp hchain rfl hlt hx hbytes
  have hinput : s.encInput = x := bytes_ext_getD ((State.encInput_length hchain).trans hx.symm) fun j hj => by
    rw [State.encInput_length hchain] at hj
    rw [State.encInput_getD hchain hj, hbytes j hj]
  rw [← hinput]
  have hlen := s.encryptBlock_length s.encInput
  exact ⟨s.encStep, execCbcEnc_process hp, rfl, hlen, fun _ hj => Memory.read_writeBlock_inside _ hlen hj,
    fun _ hout => Memory.read_writeBlock_outside _ hlen hout, State.blockIndex_succ_toNat hlt,
    fun hlast => ⟨if_pos (s.lastBlock_iff.mpr hlast), if_pos (s.lastBlock_iff.mpr hlast)⟩,
    fun hmore => ⟨if_neg (mt s.lastBlock_iff.mp hmore), if_neg (mt s.lastBlock_iff.mp hmore)⟩, rfl⟩

/-- What the PROCESS step of CBC.DEC writes has L bytes. -/
theorem State.decOutput_length {s : State} (hchain : s.chain.length = s.config.L) :
    (xorBytes (s.decryptBlock s.decInput) s.chain).length = s.config.L := by
  rw [xorBytes_length, State.decryptBlock_length, hchain, Nat.min_self]

/-- Settles O27: the block given to the port is block IDX of A, and it is the next CHAIN. -/
theorem decProcessStepCompletes : Obligations.DecProcessStepCompletes := by
  rintro s i cb hp hchain rfl hlt hcb hbytes
  have hinput : s.decInput = cb := bytes_ext_getD (s.decInput_length.trans hcb.symm) fun j hj => by
    rw [State.decInput_length] at hj
    rw [hbytes j hj]
    exact Memory.block_getD s.a hj
  rw [← hinput]
  have hlen := State.decOutput_length hchain
  refine ⟨s.decStep, execCbcDec_process hp, rfl, fun j hj => ?_,
    fun _ hout => Memory.read_writeBlock_outside _ hlen hout, State.blockIndex_succ_toNat hlt,
    fun hlast => if_pos (s.lastBlock_iff.mpr hlast), fun hmore => if_neg (mt s.lastBlock_iff.mp hmore), rfl⟩
  rw [← xorBytes_getD (by rwa [State.decryptBlock_length]) (hchain ▸ hj)]
  exact Memory.read_writeBlock_inside _ hlen hj

end Sys2Proof.Machine
end

section
/-! PROOFS. The commands CBC.ENC and CBC.DEC as the functions cbc_encrypt and cbc_decrypt (43_cbc_engine.md R172 to
R174): the run of each, and what the host finds after it. -/

namespace Sys2Proof.Machine

/-! ### The command CBC.ENC (R173) -/

/-- Engine turns of an engine that the host leaves alone are its steps. -/
theorem EndsIn.runSteps {n : Nat} {s t : State} (h : EndsIn n s t) (hl : s.config.legal = true)
    (he : s.events = []) : runSteps n s = .next t := by
  induction h with
  | quiescent _ => rfl
  | turn _ hturn _ ih =>
    have hstep := (step_noEvents hl he).trans hturn
    obtain ⟨-, heu⟩ := engineTurn_of_step he hstep
    rw [runSteps_succ hstep]
    exact ih (by rw [step_config hstep]; exact hl) heu

/-- The run of the blocks of CBC.ENC, from the PAD step on, and what it leaves. -/
theorem EncRest.runSteps {s : State} {ps : List Bytes} (h : EncRest s ps) (he : s.events = []) (hidx : s.idx = 0) :
    ∃ t, runSteps ps.length s = .next t ∧ t.phase = .done ∧ t.err = s.err ∧
      t.getOut = (encBlocks s.encryptBlock s.chain ps).flatten ∧ t.idx = t.nblk ∧ t.nblk.toNat = ps.length := by
  obtain ⟨t, hends, hdone, hwork, hframe⟩ := h.endsIn
  have hout : t.lenOut = s.wlen := by rw [hdone.shown rfl, hframe]
  have hcount := h.count
  have hidx' : s.idx.toNat = 0 := congrArg BitVec.toNat hidx
  rw [hidx', Nat.zero_add] at hcount
  rw [hidx', Nat.zero_mul] at hwork
  refine ⟨t, hends.runSteps h.legal he, hdone.phase, by rw [hframe], ?_, BitVec.eq_of_toNat_eq hdone.count, ?_⟩
  · rw [State.getOut_done hdone.phase (by rw [hdone.shown rfl]; exact hdone.fits), hout, hwork]
    rfl
  · rw [hframe, ← hcount]

/-- From the CMD write on: VALIDATE, PAD and one step a block. -/
theorem State.Ready.runSteps_cbcEnc {s : State} (hs : s.Ready) (hB : s.lenB.toNat ≤ s.config.CAP)
    (hiv : s.lenB.toNat = s.config.L) (hfit : s.paddedLen s.config.L ≤ s.config.CAP) :
    ∃ t, runSteps (s.lenA.toNat / s.config.L + 3) (s.regWrite 0x00 (encode .cbcEnc)) = .next t ∧
      t.phase = .done ∧ t.err = none ∧
      t.getOut = (encBlocks s.encryptBlock s.operandB (blocksOf s.config.L (padBytes s.operandA s.config.L))).flatten ∧
      t.idx = t.nblk ∧ t.nblk.toNat = s.lenA.toNat / s.config.L + 1 := by
  obtain ⟨hL, -, -, -⟩ := (legal_iff _).mp hs.legal
  have hd : decode (encode .cbcEnc) = .ok .cbcEnc := decodeEncodeRoundTrip.1 .cbcEnc rfl
  have hvalidate := exec_cbcEnc_validated (s := s.commandStart (encode .cbcEnc)) rfl hB hiv hfit
  have hstep := execCbcEnc_pad (s := (s.commandStart (encode .cbcEnc)).encValidated) rfl
  have hpad := hs.runSteps_two (i := .cbcEnc) rfl hvalidate rfl hstep
  have hrest := EncRest.of_encPadStep (s := (s.commandStart (encode .cbcEnc)).encValidated) hs.legal hd rfl hfit
  obtain ⟨t, hrun, hphase, herr, hout, hidx, hnblk⟩ := hrest.runSteps hs.alone rfl
  have hblocks : (blocksOf s.config.L (padBytes s.operandA s.config.L)).length = s.lenA.toNat / s.config.L + 1 := by
    rw [blocksOf_padBytes_length hL, s.operandA_length]
  refine ⟨t, ?_, hphase, herr, ?_, hidx, hnblk.trans hblocks⟩
  · rw [show s.lenA.toNat / s.config.L + 3 = 2 + (s.lenA.toNat / s.config.L + 1) by omega, ← hblocks]
    exact (runSteps_add hpad).trans hrun
  · rw [State.operandB_eq_iv hiv]
    exact hout

/-- Settles O56: a wrong IV length fails in VALIDATE, and with the right one the run does the blocks of the function. -/
theorem encryptCommandAgrees : Obligations.EncryptCommandAgrees := by
  intro s hs hA hB hfit
  obtain ⟨hL, -, -, -⟩ := (legal_iff _).mp hs.legal
  refine ⟨fun c h => ?_, fun h => ?_⟩
  · obtain ⟨hiv, rfl⟩ := cbcEncrypt_eq_ok_iff.mp h
    have hlen := encBlocks_flatten_length hL (fun x _ => s.encryptBlock_length x) hiv s.operandA
    rw [s.operandB_length] at hiv
    rw [hlen, Nat.mul_div_cancel _ hL, s.operandA_length]
    obtain ⟨t, hrun, hphase, herr, hout, hidx, hnblk⟩ := hs.runSteps_cbcEnc hB hiv hfit
    exact ⟨t, hrun, hphase, State.errWord_none herr, hout, hidx, hnblk⟩
  · have hiv : s.lenB.toNat ≠ s.config.L := fun hiv => by
      rw [cbcEncrypt_ok _ _ (s.operandB_length.trans hiv)] at h
      cases h
    have hvalidate := exec_cbcEnc_wrong_iv (s := s.commandStart (encode .cbcEnc)) rfl hB hiv hfit
    refine ⟨_, hs.runSteps_one (i := .cbcEnc) rfl hvalidate, rfl, State.raise_regRead_err _ _, rfl, ?_⟩
    rw [portCalls_one, State.regWrite_cmd hs.quiescent, enginePortCall_of_ne_process (by simp)]
    rfl

/-! ### The command CBC.DEC (R172, R174) -/

/-- W up to the end of a block just written. -/
theorem Memory.readBytes_writeBlock (m : Memory) {len : Nat} (i : Nat) {vs : Bytes} (hvs : vs.length = len) :
    (m.writeBytes (i * len) vs).readBytes 0 ((i + 1) * len) = m.readBytes 0 (i * len) ++ vs := by
  have hbefore : (m.writeBytes (i * len) vs).readBytes 0 (i * len) = m.readBytes 0 (i * len) :=
    Memory.readBytes_congr fun j hj => Memory.read_writeBytes_outside m (.inl (by omega))
  have hblock := Memory.readBytes_writeBytes m (i * len) vs
  rw [hvs] at hblock
  rw [Nat.succ_mul, Memory.readBytes_add, hbefore, Nat.zero_add, hblock]

/-- The ciphertext blocks are done in order, each chained to the one before, and then the engine is in UNPAD. -/
theorem DecRest.runSteps {s : State} {n : Nat} (h : DecRest s n) (he : s.events = [])
    (hchain : s.chain.length = s.config.L) :
    ∃ t, runSteps n s = .next t ∧ DecRest t 0 ∧
      t.w.readBytes 0 (s.nblk.toNat * s.config.L) = s.w.readBytes 0 (s.idx.toNat * s.config.L) ++
        (decBlocks s.decryptBlock s.chain ((List.range' s.idx.toNat n).map (s.a.block s.config.L))).flatten ∧
      t = { s with w := t.w, chain := t.chain, idx := t.idx, phase := t.phase } := by
  induction n generalizing s with
  | zero =>
    have hcount : s.idx.toNat = s.nblk.toNat := h.count
    exact ⟨s, rfl, h, by simp [hcount, decBlocks], rfl⟩
  | succ n ih =>
    obtain ⟨t, hrun, hunpad, hwork, hframe⟩ := ih h.decStep he s.decInput_length
    refine ⟨t, (runSteps_succ (h.step he)).trans hrun, hunpad, ?_, hframe⟩
    have hblock := Memory.readBytes_writeBlock s.w s.blockIndex (State.decOutput_length hchain)
    rw [h.decStep_idx] at hwork
    rw [List.range'_succ, List.map_cons, decBlocks, List.flatten_cons, ← List.append_assoc]
    exact hwork.trans (congrArg (· ++ _) hblock)

/-- From the CMD write on: VALIDATE and one step a block; then the deciphered blocks stand in `W[0..WLEN)`. -/
theorem State.Ready.runSteps_cbcDec {s : State} (hs : s.Ready) (hA : s.lenA.toNat ≤ s.config.CAP)
    (hB : s.lenB.toNat ≤ s.config.CAP) (hiv : s.lenB.toNat = s.config.L) (hmod : s.lenA.toNat % s.config.L = 0) :
    ∃ u, runSteps (s.lenA.toNat / s.config.L + 1) (s.regWrite 0x00 (encode .cbcDec)) = .next u ∧
      DecRest u 0 ∧ u.work = (decBlocks s.decryptBlock s.operandB (blocksOf s.config.L s.operandA)).flatten ∧
      u = { (s.commandStart (encode .cbcDec)).decValidated with
        w := u.w, chain := u.chain, idx := u.idx, phase := u.phase } := by
  obtain ⟨hL, -, -, -⟩ := (legal_iff _).mp hs.legal
  have hd : decode (encode .cbcDec) = .ok .cbcDec := decodeEncodeRoundTrip.1 .cbcDec rfl
  have hvalidate := exec_cbcDec_validated (s := s.commandStart (encode .cbcDec)) rfl hA hB hiv hmod
  have hrest := DecRest.of_decValidated (s := s.commandStart (encode .cbcDec)) hs.legal hd rfl hmod
  obtain ⟨u, hrun, hunpad, hwork, hframe⟩ := hrest.runSteps hs.alone (State.iv_length _)
  have hmul : s.lenA.toNat / s.config.L * s.config.L = s.lenA.toNat :=
    Nat.div_mul_cancel (Nat.dvd_of_mod_eq_zero hmod)
  have hwlen : u.wlen = s.lenA := by rw [hframe]; rfl
  refine ⟨u, ?_, hunpad, ?_, hframe⟩
  · rw [Nat.add_comm]
    exact (runSteps_add (hs.runSteps_one (i := .cbcDec) rfl hvalidate)).trans hrun
  · have hblocks := blocksOf_readBytes s.a (n := s.lenA.toNat / s.config.L) hL
    rw [hmul, List.range_eq_range'] at hblocks
    have hstart : (s.commandStart (encode .cbcDec)).decValidated.idx.toNat = 0 := rfl
    have hend : (s.commandStart (encode .cbcDec)).decValidated.nblk.toNat * s.config.L = s.lenA.toNat :=
      (congrArg (· * s.config.L) (State.decValidated_nblk_toNat _)).trans hmul
    simp only [State.decValidated_config, State.commandStart_config, hstart, hend, Nat.zero_mul] at hwork
    rw [State.work, hwlen, hwork, State.operandB_eq_iv hiv, State.operandA, hblocks]
    rfl

/-- The UNPAD step comes last. -/
theorem DecRest.step_unpad {s : State} (h : DecRest s 0) (he : s.events = []) :
    Machine.step s = .next (s.unpadStep s.config.L) := by
  have hp : s.phase = .unpad := h.phase
  exact (step_exec h.legal he (by rw [State.busy, hp]; rfl) h.command).trans (execCbcDec_unpad hp)

/-- CBC.DEC on right lengths: `unpad` of the deciphered blocks decides (R174). -/
theorem State.Ready.decrypt_of_lengths {s : State} (hs : s.Ready) (hA : s.lenA.toNat ≤ s.config.CAP)
    (hB : s.lenB.toNat ≤ s.config.CAP) (hiv : s.lenB.toNat = s.config.L) (hmod : s.lenA.toNat % s.config.L = 0) :
    ∃ t, runSteps (s.lenA.toNat / s.config.L + 2) (s.regWrite 0x00 (encode .cbcDec)) = .next t ∧
      t.nblk.toNat = s.lenA.toNat / s.config.L ∧
      (∀ p, cbcDecrypt s.decryptBlock s.config.L s.operandA s.operandB = .ok p →
        t.phase = .done ∧ t.regRead 0x08 = 0 ∧ t.getOut = p) ∧
      (∀ k, cbcDecrypt s.decryptBlock s.config.L s.operandA s.operandB = .error k →
        t.phase = .failed ∧ (t.regRead 0x08).toNat = k.code.toNat ∧ t.lenOut = 0 ∧
          ∀ addr, t.memRead .out addr = 0) := by
  obtain ⟨u, hrun, hunpad, hwork, hframe⟩ := hs.runSteps_cbcDec hA hB hiv hmod
  have hconfig : u.config = s.config := by rw [hframe]; rfl
  have hwlen : u.wlen = s.lenA := by rw [hframe]; rfl
  have hnblk : u.nblk.toNat = s.lenA.toNat / s.config.L := by rw [hframe]; exact State.decValidated_nblk_toNat _
  have hlast := hunpad.step_unpad (by rw [hframe]; exact hs.alone)
  have hagrees := State.unpadStep_agrees (s := u) s.config.L (by rw [hframe]; rfl) (by rw [hwlen, hconfig]; exact hA)
  obtain ⟨-, -, -, -, -, hkeep⟩ := u.unpadStep_frame s.config.L
  rw [hconfig] at hlast
  rw [hwork, ← cbcDecrypt_of_lengths _ (s.operandB_length.trans hiv) (by rwa [State.operandA_length])] at hagrees
  exact ⟨_, (runSteps_add hrun).trans (runSteps_succ (k := 0) hlast), hkeep ▸ hnblk, hagrees⟩

/-- Settles O57: a wrong length fails in VALIDATE, and on right lengths the run comes to `unpad`, as the function does. -/
theorem decryptCommandAgrees : Obligations.DecryptCommandAgrees := by
  intro s hs hA hB
  by_cases hbad : s.lenB.toNat ≠ s.config.L ∨ s.lenA.toNat % s.config.L ≠ 0
  · have hvalidate := exec_cbcDec_wrong_length (s := s.commandStart (encode .cbcDec)) rfl hA hB hbad
    rw [cbcDecrypt_of_wrong_length _ (by rwa [State.operandB_length, State.operandA_length]), if_pos hbad]
    refine ⟨nofun, fun k h => ?_⟩
    cases h
    exact ⟨_, hs.runSteps_one (i := .cbcDec) rfl hvalidate, rfl, State.errWord_toNat _, rfl,
      State.raise_memRead_out _ _⟩
  · obtain ⟨hiv, hmod⟩ : s.lenB.toNat = s.config.L ∧ s.lenA.toNat % s.config.L = 0 := by simpa using hbad
    obtain ⟨t, hrun, -, hok, herror⟩ := hs.decrypt_of_lengths hA hB hiv hmod
    rw [if_neg hbad]
    exact ⟨fun p h => ⟨t, hrun, hok p h⟩, fun k h => ⟨t, hrun, herror k h⟩⟩

theorem cbcDecrypt_nil (D : Bytes → Bytes) {L : Nat} {iv : Bytes} (hiv : iv.length = L) :
    cbcDecrypt D L [] iv = .error .invalidLength := by
  rw [cbcDecrypt_of_lengths D hiv (c := []) (Nat.zero_mod L)]
  exact unpad_eq_invalidLength_iff.mpr (.inl (by simp [blocksOf, decBlocks]))

/-- Settles O52: an empty ciphertext has right lengths and no block, so `unpad` of no byte decides. -/
theorem emptyCiphertextFails : Obligations.EmptyCiphertextFails := by
  refine ⟨fun D L iv hiv _ => cbcDecrypt_nil D hiv, fun s hs hempty hiv => ?_⟩
  obtain ⟨-, -, hcap, -⟩ := (legal_iff _).mp hs.legal
  have hlen : s.lenA.toNat = 0 := congrArg BitVec.toNat hempty
  have hA : s.lenA.toNat ≤ s.config.CAP := by omega
  have hB : s.lenB.toNat ≤ s.config.CAP := by omega
  have hmod : s.lenA.toNat % s.config.L = 0 := by rw [hlen, Nat.zero_mod]
  have hcount : s.lenA.toNat / s.config.L = 0 := by rw [hlen, Nat.zero_div]
  have hoperand : s.operandA = [] := List.length_eq_zero_iff.mp (s.operandA_length.trans hlen)
  obtain ⟨u, hu, hunpad, -⟩ := hs.runSteps_cbcDec hA hB hiv hmod
  obtain ⟨t, ht, hnblk, -, herror⟩ := hs.decrypt_of_lengths hA hB hiv hmod
  obtain ⟨hphase, hcode, -⟩ := herror .invalidLength
    (by rw [hoperand]; exact cbcDecrypt_nil _ (s.operandB_length.trans hiv))
  have hport := (portCallsInOrder.2 s hs hA hiv).2 hmod
  rw [hcount] at hu ht hnblk hport
  refine ⟨u, t, hu, hunpad.phase, ht, hphase, BitVec.eq_of_toNat_eq hcode, BitVec.eq_of_toNat_eq hnblk, ?_⟩
  rw [hport, hoperand]
  simp [blocksOf]

end Sys2Proof.Machine
end

section
/-! PROOFS. What can be read of an unfinished or failed command (43_cbc_engine.md R175, 10_state.md R41): zeros, and
nothing that depends on a byte of the operands. -/

namespace Sys2Proof.Machine

/-! ### No partial output (R175, R41) -/

/-- Settles O33: the step keeps the invariant, which says LEN_OUT is 0 outside DONE and FAILED is clear; OUT is gated. -/
theorem noPartialOutput : Obligations.NoPartialOutput := by
  intro s t h hs hp
  have hlaws := (stepKeepsInvariant s t h hs).laws
  refine ⟨hlaws.lenOutOutsideDone hp, fun _ => State.memRead_out_hidden (.inl hp), fun hf => ?_⟩
  obtain ⟨-, hw, hchain⟩ := hlaws.failedIsClear hf
  exact ⟨hw, hchain⟩

/-! ### Two runs on different data (R175) -/

/-- Two states that differ in the contents of A, B, W and CHAIN at most. -/
def State.sameButData (s s' : State) : Prop :=
  ∃ a b w chain, s' = { s with a := a, b := b, w := w, chain := chain }

theorem State.sameButData.config_eq {s s' : State} (h : s.sameButData s') : s'.config = s.config := by
  obtain ⟨a, b, w, chain, rfl⟩ := h
  rfl

theorem State.sameButData.cmd_eq {s s' : State} (h : s.sameButData s') : s'.cmd = s.cmd := by
  obtain ⟨a, b, w, chain, rfl⟩ := h
  rfl

theorem State.sameButData.phase_eq {s s' : State} (h : s.sameButData s') : s'.phase = s.phase := by
  obtain ⟨a, b, w, chain, rfl⟩ := h
  rfl

theorem State.sameButData.wlen_eq {s s' : State} (h : s.sameButData s') : s'.wlen = s.wlen := by
  obtain ⟨a, b, w, chain, rfl⟩ := h
  rfl

theorem State.sameButData.events_eq {s s' : State} (h : s.sameButData s') : s'.events = s.events := by
  obtain ⟨a, b, w, chain, rfl⟩ := h
  rfl

/-- The registers hold no data. -/
theorem State.sameButData.regRead {s s' : State} (h : s.sameButData s') (off : Nat) :
    s'.regRead off = s.regRead off := by
  obtain ⟨a, b, w, chain, rfl⟩ := h
  rfl

/-- Entry to FAILED reads no data. -/
theorem State.sameButData.raise {s s' : State} (h : s.sameButData s') (k : ErrorKind) :
    (s.raise k).sameButData (s'.raise k) := by
  obtain ⟨a, b, w, chain, rfl⟩ := h
  exact ⟨a, b, _, _, rfl⟩

/-- The kind of `unpad`'s failure depends on the length of its data only. -/
theorem unpad_error_congr {x y : Bytes} {m : Nat} {k l : ErrorKind} (hlen : y.length = x.length)
    (hx : unpad x m = .error k) (hy : unpad y m = .error l) : l = k := by
  rcases unpad_error hx with ⟨rfl, hbad⟩ | ⟨rfl, hpos, hmod⟩
  · rw [← hlen] at hbad
    cases hy.symm.trans (unpad_eq_invalidLength_iff.mpr hbad)
    rfl
  · rw [← hlen] at hpos hmod
    rcases unpad_error hy with ⟨-, hbad⟩ | ⟨hl, -⟩
    · omega
    · exact hl

theorem State.sameButData.validateStep {s s' passed passed' : State} (h : s.sameButData s')
    (hpassed : passed.sameButData passed') (checks : List Check) :
    (s.validateStep checks passed).sameButData (s'.validateStep checks passed') := by
  unfold State.validateStep
  cases firstError checks with
  | none => exact hpassed
  | some k => exact h.raise k

/-- An UNPAD step that does not succeed fails alike on all data. -/
theorem State.sameButData.unpadStep {s s' : State} (h : s.sameButData s') (m : Nat)
    (hp : (s.unpadStep m).phase ≠ .done) (hp' : (s'.unpadStep m).phase ≠ .done) :
    (s.unpadStep m).sameButData (s'.unpadStep m) := by
  rcases s.unpadStep_cases m with ⟨r, -, he⟩ | ⟨k, hk, he⟩
  · exact absurd (by rw [he]) hp
  rcases s'.unpadStep_cases m with ⟨r, -, he'⟩ | ⟨l, hl, he'⟩
  · exact absurd (by rw [he']) hp'
  have hlen : s'.work.length = s.work.length := by rw [State.work_length, State.work_length, h.wlen_eq]
  rw [he, he', unpad_error_congr hlen hk hl]
  exact h.raise k

/-- The checks of VALIDATE read lengths only (R193). -/
theorem State.sameButData.exec_validate {s s' : State} (h : s.sameButData s') (i : Instr) (hp : s.phase = .validate) :
    ∃ checks passed passed', exec i s = .next (s.validateStep checks passed) ∧
      exec i s' = .next (s'.validateStep checks passed') ∧ passed.sameButData passed' := by
  obtain ⟨a, b, w, chain, rfl⟩ := h
  cases i with
  | clear => exact ⟨[], _, _, execClear_validate hp, execClear_validate hp, _, _, _, _, rfl⟩
  | pad bl => exact ⟨_, _, _, execPad_validate bl hp, execPad_validate bl hp, _, _, _, _, rfl⟩
  | unpad bl => exact ⟨_, _, _, execUnpad_validate bl hp, execUnpad_validate bl hp, _, _, _, _, rfl⟩
  | xor => exact ⟨_, _, _, execXor_validate hp, execXor_validate hp, _, _, _, _, rfl⟩
  | cbcEnc => exact ⟨_, _, _, execCbcEnc_validate hp, execCbcEnc_validate hp, _, _, _, _, rfl⟩
  | cbcDec => exact ⟨_, _, _, execCbcDec_validate hp, execCbcDec_validate hp, _, _, _, _, rfl⟩

theorem State.sameButData.encPadStep {s s' : State} (h : s.sameButData s') :
    s.encPadStep.sameButData s'.encPadStep := by
  obtain ⟨a, b, w, chain, rfl⟩ := h
  exact ⟨_, _, _, _, rfl⟩

theorem State.sameButData.encStep {s s' : State} (h : s.sameButData s') : s.encStep.sameButData s'.encStep := by
  obtain ⟨a, b, w, chain, rfl⟩ := h
  exact ⟨_, _, _, _, rfl⟩

theorem State.sameButData.decStep {s s' : State} (h : s.sameButData s') : s.decStep.sameButData s'.decStep := by
  obtain ⟨a, b, w, chain, rfl⟩ := h
  exact ⟨_, _, _, _, rfl⟩

/-- An engine step that does not end in DONE keeps two states alike. -/
theorem State.sameButData.exec {s s' t t' : State} {i : Instr} (h : s.sameButData s') (hx : exec i s = .next t)
    (hx' : exec i s' = .next t') (hp : t.phase ≠ .done) (hp' : t'.phase ≠ .done) : t.sameButData t' := by
  by_cases hv : s.phase = .validate
  · obtain ⟨checks, passed, passed', he, he', hpassed⟩ := h.exec_validate i hv
    cases he.symm.trans hx
    cases he'.symm.trans hx'
    exact h.validateStep hpassed checks
  cases exec_inv hx with
  | raised hq | clear hq => exact absurd hq hv
  | padOk hq _ | unpadOk hq _ | xorOk hq _ | encOk hq _ | decOk hq _ => exact absurd hq hv
  | padStep _ | xorStep _ => exact absurd rfl hp
  | unpadStep hq =>
    cases (execUnpad_unpad _ (h.phase_eq.trans hq)).symm.trans hx'
    exact h.unpadStep _ hp hp'
  | decUnpad hq =>
    cases (execCbcDec_unpad (h.phase_eq.trans hq)).symm.trans hx'
    rw [h.config_eq] at hp' ⊢
    exact h.unpadStep _ hp hp'
  | encPadStep hq =>
    cases (execCbcEnc_pad (h.phase_eq.trans hq)).symm.trans hx'
    exact h.encPadStep
  | encStep hq =>
    cases (execCbcEnc_process (h.phase_eq.trans hq)).symm.trans hx'
    exact h.encStep
  | decStep hq =>
    cases (execCbcDec_process (h.phase_eq.trans hq)).symm.trans hx'
    exact h.decStep

theorem engineTurn_eq_exec {s : State} {i : Instr} (hb : s.busy = true) (hd : decode s.cmd = .ok i) :
    engineTurn s = Machine.exec i s := by
  rw [engineTurn, if_pos hb, engineStep, hd]

theorem engineTurn_illegal {s : State} {e : DecodeError} (hp : s.phase = .validate) (hd : decode s.cmd = .error e) :
    engineTurn s = .next (s.raise .illegalCommand) := by
  rw [engineTurn, if_pos (by rw [State.busy, hp]; rfl), engineStep, hd]
  simp only [illegalStep, hp]

theorem State.sameButData.engineTurn {s s' t t' : State} (h : s.sameButData s') (ht : engineTurn s = .next t)
    (ht' : engineTurn s' = .next t') (hp : t.phase ≠ .done) (hp' : t'.phase ≠ .done) : t.sameButData t' := by
  cases engineTurn_inv ht with
  | command hb hd hx =>
    rw [engineTurn_eq_exec ((congrArg Phase.busy h.phase_eq).trans hb) (h.cmd_eq ▸ hd)] at ht'
    exact h.exec hx ht' hp hp'
  | illegal hq hd =>
    cases (engineTurn_illegal (h.phase_eq.trans hq) (h.cmd_eq ▸ hd)).symm.trans ht'
    exact h.raise .illegalCommand
  | idle hb =>
    cases (engineTurn_quiescent ((congrArg Phase.busy h.phase_eq).trans hb)).symm.trans ht'
    exact h

/-- DONE is not left without the host (R194). -/
theorem phase_ne_done_of_runSteps {k : Nat} {s t : State} (he : s.events = []) (h : runSteps k s = .next t)
    (hp : t.phase ≠ .done) : s.phase ≠ .done := by
  induction k generalizing s with
  | zero =>
    cases h
    exact hp
  | succ k ih =>
    obtain ⟨u, hstep, hrun⟩ := runSteps_succ_inv h
    obtain ⟨hturn, heu⟩ := engineTurn_of_step he hstep
    intro hs
    cases (engineTurn_quiescent (s := s) (by rw [State.busy, hs]; rfl)).symm.trans hturn
    exact ih heu hrun hs

theorem State.sameButData.runSteps {k : Nat} {s s' t t' : State} (h : s.sameButData s') (he : s.events = [])
    (hrun : runSteps k s = .next t) (hrun' : runSteps k s' = .next t') (hp : t.phase ≠ .done)
    (hp' : t'.phase ≠ .done) : t.sameButData t' := by
  induction k generalizing s s' with
  | zero =>
    cases hrun
    cases hrun'
    exact h
  | succ k ih =>
    obtain ⟨u, hstep, hrest⟩ := runSteps_succ_inv hrun
    obtain ⟨u', hstep', hrest'⟩ := runSteps_succ_inv hrun'
    obtain ⟨hturn, heu⟩ := engineTurn_of_step he hstep
    obtain ⟨hturn', heu'⟩ := engineTurn_of_step (h.events_eq.trans he) hstep'
    have hu := h.engineTurn hturn hturn' (phase_ne_done_of_runSteps heu hrest hp)
      (phase_ne_done_of_runSteps heu' hrest' hp')
    exact ih hu heu hrest hrest'

/-- Settles O42: the two runs stay alike but for data, and outside DONE the host reads registers and zeros only. -/
theorem unfinishedOrFailedRevealsNoData : Obligations.UnfinishedOrFailedRevealsNoData := by
  intro s a' b' w k t t' hs hrun hrun' hp hp'
  rw [State.regWrite_cmd hs.quiescent] at hrun
  rw [State.regWrite_cmd (s := { s with a := a', b := b' }) hs.quiescent] at hrun'
  have hstart : (s.commandStart w).sameButData (({ s with a := a', b := b' } : State).commandStart w) :=
    ⟨_, _, _, _, rfl⟩
  refine ⟨(hstart.runSteps hs.alone hrun hrun' hp hp').regRead, fun addr => ?_⟩
  rw [State.memRead_out_hidden (.inl hp), State.memRead_out_hidden (.inl hp')]

end Sys2Proof.Machine
end

section
/-! PROOFS. The VALIDATE step by the table of 44_control.md R193, the command CLEAR (R198), no stuck state (R194, R196),
and the length of every run (R195). -/

namespace Sys2Proof.Machine

/-! ### VALIDATE (R193) -/

/-- The success rule of the VALIDATE step, command by command. -/
def State.validated (s : State) : Instr → State
  | .clear => s.clearValidated
  | .pad _ => s.padValidated
  | .unpad _ => s.unpadValidated
  | .xor => s.xorValidated
  | .cbcEnc => s.encValidated
  | .cbcDec => s.decValidated

theorem State.validated_phase (s : State) (i : Instr) : (s.validated i).phase = phaseAfterValidate i s := by
  cases i <;> rfl

theorem State.validated_err (s : State) (i : Instr) : (s.validated i).err = s.err := by
  cases i <;> rfl

/-- No command that passes its checks fails in VALIDATE, and none is done there (R24). -/
theorem phaseAfterValidate_ne (i : Instr) (s : State) :
    phaseAfterValidate i s ≠ .failed ∧ phaseAfterValidate i s ≠ .done := by
  cases i with
  | cbcDec =>
    rw [phaseAfterValidate]
    split <;> simp
  | _ => exact ⟨nofun, nofun⟩

/-- In VALIDATE a step that does not fail is the command's success rule. -/
theorem ExecStep.eq_validated {i : Instr} {s t : State} (h : ExecStep i s t) (hp : s.phase = .validate)
    (ht : t.phase ≠ .failed) : t = s.validated i := by
  cases h with
  | raised _ => exact absurd rfl ht
  | clear _ | padOk _ _ | unpadOk _ _ | xorOk _ _ | encOk _ _ | decOk _ _ => rfl
  | padStep hq | unpadStep hq | xorStep hq | encPadStep hq | encStep hq | decStep hq | decUnpad hq =>
    simp [hp] at hq

theorem exec_validate_raised {i : Instr} {s : State} {k : ErrorKind} (hd : decode s.cmd = .ok i)
    (hp : s.phase = .validate) (hv : validateError i s = some k) : exec i s = .next (s.raise k) := by
  obtain ⟨checks, passed, hx, herr, -⟩ := exec_validate hd hp
  rw [hx, State.validateStep_some (herr.symm.trans hv)]

theorem exec_validate_passed {i : Instr} {s : State} (hd : decode s.cmd = .ok i) (hp : s.phase = .validate)
    (hv : validateError i s = none) : exec i s = .next (s.validated i) := by
  obtain ⟨checks, passed, hx, herr, hphase⟩ := exec_validate hd hp
  rw [State.validateStep_none (herr.symm.trans hv)] at hx
  have hpassed := (exec_inv hx).eq_validated hp (hphase ▸ (phaseAfterValidate_ne i s).1)
  rw [hx, hpassed]

theorem engineStep_eq_exec {i : Instr} {s : State} (hd : decode s.cmd = .ok i) : engineStep s = exec i s := by
  rw [engineStep, hd]

/-- Settles O16: a command's own checks raise what the table does, and its success rule raises nothing. -/
theorem validateRaisesFirstFailingCheck : Obligations.ValidateRaisesFirstFailingCheck := by
  refine fun s hp => ⟨enginePortCall_of_ne_process (by simp [hp]), fun e hd => ?_, fun i k hd hv => ?_,
    fun i hd hv => ⟨s.validated i, ?_, ?_, ?_, s.validated_err i⟩⟩
  · obtain ⟨-, -, hillegal⟩ := illegalWordsExactly
    exact (hillegal s e hp hd).1
  · exact (engineStep_eq_exec hd).trans (exec_validate_raised hd hp hv)
  · exact (engineStep_eq_exec hd).trans (exec_validate_passed hd hp hv)
  · exact s.validated_phase i ▸ (phaseAfterValidate_ne i s).1
  · exact s.validated_phase i ▸ (phaseAfterValidate_ne i s).2

/-! ### CLEAR (R198) -/

/-- Settles O18. -/
theorem clearCompletes : Obligations.ClearCompletes := fun s hp =>
  ⟨s.clearValidated, execClear_validate hp, Memory.read_zeros, Memory.read_zeros, rfl, rfl, rfl, rfl⟩

/-- Settles O53: command start zeroes what CLEAR leaves alone (R191), and the two together are the reset state. -/
theorem clearCommandLeavesResetState : Obligations.ClearCommandLeavesResetState := fun s hs =>
  have hx := execClear_validate (s := s.commandStart (encode .clear)) rfl
  ⟨_, hs.runSteps_one (i := .clear) rfl hx, fun _ => ite_self 0, fun _ => ite_self 0, rfl⟩

/-! ### No stuck state (R194, R196) -/

/-- The engine's turn, busy or not, answers a next state. -/
theorem EngineInv.exists_next_engineTurn {s : State} (h : EngineInv s) : ∃ t, engineTurn s = .next t := by
  cases hb : s.busy with
  | false => exact ⟨s, engineTurn_quiescent hb⟩
  | true =>
    obtain ⟨t, ht, -⟩ := h.exists_engineTurn hb
    exact ⟨t, ht⟩

/-- Settles O38: the invariant does not read the schedule, and whatever comes first on it answers a next state. -/
theorem stepNeverStops : Obligations.StepNeverStops := by
  intro s h
  cases he : s.events with
  | nil => exact step_noEvents h.legal he ▸ h.exists_next_engineTurn
  | cons e rest =>
    cases e with
    | engine => exact step_engineEvent h.legal he ▸ (h.withEvents rest).exists_next_engineTurn
    | host x => exact ⟨_, step_hostEvent h.legal he⟩

/-! ### Runs that end (R195) -/

theorem EndsIn.end_quiescent {n : Nat} {s t : State} (h : EndsIn n s t) : t.busy = false := by
  induction h with
  | quiescent hb => exact hb
  | turn _ _ _ ih => exact ih

/-- Settles O39: the turns still to come are at most `State.turnBound`. -/
theorem everyCommandEnds : Obligations.EveryCommandEnds := by
  intro s h he
  obtain ⟨n, t, hn, hends⟩ := h.exists_endsIn
  exact ⟨n, t, hn.trans s.turnsLeft_le_turnBound, hends.runSteps h.legal he, hends.end_quiescent⟩

/-- The engine is busy before every step of a run that ends. -/
theorem EndsIn.busy_before {n : Nat} {s t : State} (h : EndsIn n s t) (hl : s.config.legal = true)
    (he : s.events = []) : ∀ j, j < n → ∃ u, Machine.runSteps j s = .next u ∧ u.busy = true := by
  induction h with
  | quiescent _ => exact fun j hj => absurd hj (Nat.not_lt_zero j)
  | turn hb hturn _ ih =>
    have hstep := (step_noEvents hl he).trans hturn
    obtain ⟨-, heu⟩ := engineTurn_of_step he hstep
    intro j hj
    cases j with
    | zero => exact ⟨_, rfl, hb⟩
    | succ j =>
      rw [runSteps_succ hstep]
      exact ih (by rw [step_config hstep]; exact hl) heu j (Nat.lt_of_succ_lt_succ hj)

/-- An engine step of the command in CMD, and then the rest of its run. -/
theorem EndsIn.of_exec {n : Nat} {i : Instr} {s u t : State} (hb : s.busy = true) (hd : decode s.cmd = .ok i)
    (hx : exec i s = .next u) (h : EndsIn n u t) : EndsIn (n + 1) s t :=
  .turn hb ((engineTurn_eq_exec hb hd).trans hx) h

/-- The ciphertext blocks still to do, and the UNPAD step after them. -/
theorem DecRest.endsIn {s : State} {n : Nat} (h : DecRest s n) : ∃ t, EndsIn (n + 1) s t := by
  have hb : s.busy = true := by
    rw [State.busy, h.phase]
    split <;> rfl
  induction n generalizing s with
  | zero =>
    exact ⟨_, .of_exec hb h.command (execCbcDec_unpad h.phase) (.quiescent (s.unpadStep_quiescent _))⟩
  | succ n ih =>
    obtain ⟨t, hends⟩ := ih h.decStep (by rw [State.busy, h.decStep.phase]; split <;> rfl)
    exact ⟨t, .of_exec hb h.command (execCbcDec_process h.phase) hends⟩

/-- The table of R195 for a command that passes its checks. -/
def State.runLength (s : State) : Instr → Nat
  | .clear => 1
  | .pad _ => 2
  | .unpad _ => 2
  | .xor => 2
  | .cbcEnc => s.lenA.toNat / s.config.L + 3
  | .cbcDec => s.lenA.toNat / s.config.L + 2

/-- From VALIDATE, all checks passed, a command ends in as many turns as R195 says. -/
theorem endsIn_runLength {s : State} {i : Instr} (hl : s.config.legal = true) (hp : s.phase = .validate)
    (hidx : s.idx = 0) (hd : decode s.cmd = .ok i) (hv : validateError i s = none) :
    ∃ t, EndsIn (s.runLength i) s t := by
  obtain ⟨hL, -, -, -⟩ := (legal_iff _).mp hl
  have hb : s.busy = true := by rw [State.busy, hp]; rfl
  suffices hrest : ∃ n t, s.runLength i = n + 1 ∧ EndsIn n (s.validated i) t by
    obtain ⟨n, t, hn, hends⟩ := hrest
    exact ⟨t, hn ▸ .of_exec hb hd (exec_validate_passed hd hp hv) hends⟩
  cases i with
  | clear => exact ⟨0, _, rfl, .quiescent rfl⟩
  | pad bl => exact ⟨1, _, rfl, .of_exec rfl hd (execPad_pad (s := s.padValidated) bl rfl) (.quiescent rfl)⟩
  | unpad bl =>
    exact ⟨1, _, rfl, .of_exec rfl hd (execUnpad_unpad (s := s.unpadValidated) bl rfl)
      (.quiescent (State.unpadStep_quiescent _ _))⟩
  | xor => exact ⟨1, _, rfl, .of_exec rfl hd (execXor_process (s := s.xorValidated) rfl) (.quiescent rfl)⟩
  | cbcEnc =>
    rw [validateError_cbcEnc] at hv
    have hfit := State.paddedLen_le_of_checked (s := s) (m := s.config.L) hv (by simp [State.encChecks])
    obtain ⟨t, hends, -⟩ := (EncRest.of_encPadStep (s := s.encValidated) hl hd hidx hfit).endsIn
    refine ⟨_, t, ?_, .of_exec rfl hd (execCbcEnc_pad (s := s.encValidated) rfl) hends⟩
    rw [State.encValidated_config, blocksOf_padBytes_length hL, State.operandA_length]
    rfl
  | cbcDec =>
    rw [validateError_cbcDec] at hv
    have hmod := State.multiple_of_checked (s := s) hv (by simp [State.decChecks])
    obtain ⟨t, hends⟩ := (DecRest.of_decValidated hl hd hidx hmod).endsIn
    exact ⟨_, t, rfl, hends⟩

/-- Settles O58: an illegal word and a failing check end in VALIDATE, and `State.runLength` is the rest of the table. -/
theorem runLengths : Obligations.RunLengths := by
  intro s w n hs hn
  rw [State.regWrite_cmd hs.quiescent] at hn ⊢
  suffices hends : ∃ t, EndsIn n (s.commandStart w) t by
    obtain ⟨t, hends⟩ := hends
    exact ⟨hends.busy_before hs.legal hs.alone, t, hends.runSteps hs.legal hs.alone, hends.end_quiescent⟩
  cases hd : decode w with
  | error e =>
    simp only [hd] at hn
    subst hn
    exact ⟨_, .turn rfl (engineTurn_illegal (s := s.commandStart w) rfl hd) (.quiescent rfl)⟩
  | ok i =>
    simp only [hd] at hn
    cases hv : validateError i (s.commandStart w) with
    | some k =>
      simp only [hv] at hn
      subst hn
      exact ⟨_, .of_exec rfl hd (exec_validate_raised (s := s.commandStart w) hd rfl hv) (.quiescent rfl)⟩
    | none =>
      have hlength : n = (s.commandStart w).runLength i := by
        rw [hn, hv]
        cases i <;> rfl
      exact hlength ▸ endsIn_runLength hs.legal rfl rfl hd hv

end Sys2Proof.Machine
end

section
/-! PROOFS. A busy engine's step is its command's (44_control.md R194), a placed word is an accepted CMD write (R191),
and what the host's writes do and do not change (R190, R200 to R202). -/

namespace Sys2Proof.Machine

/-! ### The step of a busy engine (R194) -/

/-- Settles O5: the engine's turn is `exec` of the decoded command, and neither reads the schedule. -/
theorem stepRunsDecodedCommand : Obligations.StepRunsDecodedCommand := fun s _ hl hb hd =>
  ⟨fun he => step_exec hl he hb hd,
    fun rest he => (step_engineEvent hl he).trans (engineTurn_eq_exec (s := { s with events := rest }) hb hd)⟩

theorem decodeTableWord_eq_some_iff {nbits w : Nat} {i : Instr} :
    decodeTableWord nbits w = some i ↔ decode (BitVec.ofNat 32 (w % 2 ^ nbits)) = .ok i := by
  rw [decodeTableWord]
  cases decode (BitVec.ofNat 32 (w % 2 ^ nbits)) <;> simp [Except.toOption]

/-- Settles O6: the word is placed by command start, with the schedule empty. -/
theorem placedWordRunsNext : Obligations.PlacedWordRunsNext := by
  intro s w i hl hw hd
  have hstep := step_exec (s := s.withFetchWord 32 w) hl rfl rfl (decodeTableWord_eq_some_iff.mp hd)
  have hcmd := congrArg (BitVec.ofNat 32) (Nat.mod_eq_of_lt hw)
  exact ⟨hstep, rfl, hcmd, rfl, rfl, rfl, rfl, rfl⟩

/-! ### The host's writes (R190, R200 to R202) -/

/-- Settles O9: an accepted write is `State.commandStart`. -/
theorem commandStart : Obligations.CommandStart := by
  refine fun s v => ⟨fun hb => ?_, fun hb => State.regWrite_busy hb 0x00 v⟩
  rw [State.regWrite_cmd hb]
  exact ⟨rfl, rfl, rfl, rfl, rfl, rfl, Memory.read_zeros, rfl, rfl, rfl, rfl, rfl, rfl, rfl⟩

/-- Settles O10: the result is not read from the length registers. -/
theorem lengthRegistersTakeAnyValue : Obligations.LengthRegistersTakeAnyValue := by
  intro s v hb
  rw [State.regWrite_lenA hb, State.regWrite_lenB hb]
  exact ⟨rfl, rfl, rfl, rfl⟩

/-- Only CMD, LEN_A and LEN_B are written (R202). -/
theorem State.regWrite_readOnly (s : State) {off : Nat} (hcmd : off ≠ 0x00) (hlenA : off ≠ 0x0C)
    (hlenB : off ≠ 0x10) (v : Word) : s.regWrite off v = s := by
  rcases s.regWrite_cases off v with ⟨-, hoff, -⟩ | ⟨-, hoff, -⟩ | ⟨-, hoff, -⟩ | he
  · exact absurd hoff hcmd
  · exact absurd hoff hlenA
  · exact absurd hoff hlenB
  · exact he

/-- Settles O11: a busy engine drops every write, and every engine the writes to what no write changes. -/
theorem droppedWrites : Obligations.DroppedWrites := fun s =>
  ⟨fun hb => ⟨State.regWrite_busy hb, State.memWrite_busy hb⟩,
    fun _ v hcmd hlenA hlenB => s.regWrite_readOnly hcmd hlenA hlenB v,
    s.memWrite_out, fun space _ v hout => State.memWrite_outOfRange hout space v⟩

end Sys2Proof.Machine
end

section
/-! PROOFS. Entry to FAILED (60_exceptions.md R222), and which kinds of error the engine ever records in ERR (R212,
R213). -/

namespace Sys2Proof.Machine

/-! ### Entry to FAILED (R222) -/

/-- Settles O17: ERR holds the code of R211, and the rest is `State.raise` itself. -/
theorem entryToFailed : Obligations.EntryToFailed := fun s k =>
  ⟨(s.raise_regRead_err k).trans (by cases k <;> rfl), rfl, rfl, Memory.read_zeros, rfl, rfl, rfl⟩

/-! ### The kinds that the engine records (R212, R213) -/

/-- The kinds of R211 that some rule of the engine raises: all but the two of the cipher's constructor and port. -/
def engineKinds : List ErrorKind := [.invalidLength, .lengthMismatch, .padding, .illegalCommand, .capacity]

theorem ne_cipherError_of_mem_engineKinds :
    ∀ k ∈ engineKinds, k ≠ .invalidKeyLength ∧ k ≠ .invalidBlockLength := by decide

/-- The rows of R193 raise the engine's kinds. -/
theorem validateError_mem_engineKinds {i : Instr} {s : State} {k : ErrorKind} (h : validateError i s = some k) :
    k ∈ engineKinds := by
  have hrows : ∀ row ∈ checkTable, row.error ∈ engineKinds := by decide
  obtain ⟨row, hfind, rfl⟩ := Option.map_eq_some_iff.mp h
  exact hrows row (List.mem_of_find?_eq_some hfind)

theorem unpad_error_mem_engineKinds {data : Bytes} {m : Nat} {k : ErrorKind} (h : unpad data m = .error k) :
    k ∈ engineKinds := by
  rcases unpad_error h with ⟨rfl, -⟩ | ⟨rfl, -⟩ <;> decide

/-- What an engine step can do to ERR: leave it, or record one of the engine's kinds. -/
def errKeptOrRaised (s t : State) : Prop := t.err = s.err ∨ ∃ k ∈ engineKinds, t.err = some k

theorem errKeptOrRaised_raise (s : State) {k : ErrorKind} (hk : k ∈ engineKinds) : errKeptOrRaised s (s.raise k) :=
  .inr ⟨k, hk, rfl⟩

theorem errKeptOrRaised_unpadStep (s : State) (m : Nat) : errKeptOrRaised s (s.unpadStep m) := by
  rcases s.unpadStep_cases m with ⟨r, -, he⟩ | ⟨k, hk, he⟩ <;> rw [he]
  · exact .inl rfl
  · exact errKeptOrRaised_raise s (unpad_error_mem_engineKinds hk)

theorem errKeptOrRaised_of_exec_validate {i : Instr} {s t : State} (hd : decode s.cmd = .ok i)
    (hp : s.phase = .validate) (hx : exec i s = .next t) : errKeptOrRaised s t := by
  cases hv : validateError i s with
  | none =>
    cases (exec_validate_passed hd hp hv).symm.trans hx
    exact .inl (s.validated_err i)
  | some k =>
    cases (exec_validate_raised hd hp hv).symm.trans hx
    exact errKeptOrRaised_raise s (validateError_mem_engineKinds hv)

/-- Only VALIDATE and UNPAD raise; every other step leaves ERR alone. -/
theorem errKeptOrRaised_of_exec {i : Instr} {s t : State} (hd : decode s.cmd = .ok i) (hx : exec i s = .next t) :
    errKeptOrRaised s t := by
  cases exec_inv hx with
  | raised hp => exact errKeptOrRaised_of_exec_validate hd hp hx
  | unpadStep _ | decUnpad _ => exact errKeptOrRaised_unpadStep s _
  | _ => exact .inl rfl

theorem errKeptOrRaised_of_eventStep {s t : State} (h : EventStep s t) : errKeptOrRaised s t := by
  cases h with
  | command _ hd hx => exact errKeptOrRaised_of_exec hd hx
  | illegal _ _ => exact errKeptOrRaised_raise s (by decide)
  | idle _ => exact .inl rfl

/-- No host access raises an error (R210): ERR is kept, or cleared by command start and reset. -/
theorem State.hostAccess_err (s : State) (x : Access) :
    (s.hostAccess x).err = s.err ∨ (s.hostAccess x).err = none := by
  cases x with
  | regRead off => exact .inl rfl
  | regWrite off v =>
    rcases s.regWrite_cases off v with ⟨-, -, he⟩ | ⟨-, -, he⟩ | ⟨-, -, he⟩ | he <;> rw [State.hostAccess, he]
    · exact .inr rfl
    all_goals exact .inl rfl
  | memRead space addr => exact .inl rfl
  | memWrite space addr v =>
    rcases s.memWrite_cases space addr v with ⟨-, -, -, he⟩ | ⟨-, -, -, he⟩ | he <;> rw [State.hostAccess, he] <;>
      exact .inl rfl
  | reset => exact .inr rfl

/-- Everything one event can do to ERR. -/
theorem step_err {s t : State} (h : step s = .next t) :
    t.err = s.err ∨ t.err = none ∨ ∃ k ∈ engineKinds, t.err = some k := by
  obtain ⟨-, ⟨-, hev⟩ | ⟨rest, -, hev⟩ | ⟨x, rest, -, rfl⟩⟩ := step_inv h
  · exact (errKeptOrRaised_of_eventStep hev).imp_right .inr
  · exact (errKeptOrRaised_of_eventStep hev).imp_right .inr
  · exact (State.hostAccess_err { s with events := rest } x).imp_right .inl

/-- Settles O32: ERR after an event is the old one, none, or one of the engine's kinds. -/
theorem cipherErrorsNeverRaised : Obligations.CipherErrorsNeverRaised := by
  intro s t hkey hblock h
  rcases step_err h with he | he | ⟨k, hk, he⟩ <;> rw [he]
  · exact ⟨hkey, hblock⟩
  · exact ⟨nofun, nofun⟩
  · obtain ⟨hkey', hblock'⟩ := ne_cipherError_of_mem_engineKinds k hk
    exact ⟨mt Option.some.inj hkey', mt Option.some.inj hblock'⟩

end Sys2Proof.Machine
end

section
/-! PROOFS. Which bytes of A and B an engine step can depend on (70_reset_and_hazards.md R243): a step commutes with a
change of the buffers from LEN_A and LEN_B on. -/

namespace Sys2Proof.Machine

/-! ### Other operand buffers -/

/-- A state with other contents of A and B. -/
def State.withBuffers (s : State) (a b : Memory) : State := { s with a := a, b := b }

/-- Buffers that hold the operand A below LEN_A and the operand B below LEN_B, and anything from there on. -/
structure State.HeldBy (s : State) (a b : Memory) : Prop where
  readA : ∀ addr, addr < s.lenA.toNat → a.read addr = s.a.read addr
  readB : ∀ addr, addr < s.lenB.toNat → b.read addr = s.b.read addr

/-- In PROCESS an XOR has operands of one length, as its VALIDATE step has checked (R193). -/
theorem pathLaw.process_xor_lens {s : State} (h : pathLaw s) (hp : s.phase = .process)
    (hd : decode s.cmd = .ok .xor) : s.lenA = s.lenB := by
  simp only [pathLaw, hp, hd] at h
  obtain ⟨-, -, hlen, -⟩ | ⟨henc, -⟩ | ⟨hdec, -⟩ := h
  · exact hlen
  · cases henc
  · cases hdec

/-- VALIDATE reads lengths, and no byte of a buffer (R193). -/
theorem validateError_withBuffers (i : Instr) (s : State) (a b : Memory) :
    validateError i (s.withBuffers a b) = validateError i s := rfl

/-- The UNPAD step reads W only (R140). -/
theorem State.unpadStep_withBuffers (s : State) (a b : Memory) (m : Nat) :
    (s.withBuffers a b).unpadStep m = (s.unpadStep m).withBuffers a b := by
  have hwork : (s.withBuffers a b).work = s.work := rfl
  rw [State.unpadStep, State.unpadStep, hwork]
  cases unpad s.work m <;> rfl

namespace State.HeldBy

variable {s : State} {a b : Memory}

/-! ### What the steps read of A and B -/

theorem readBytesA (h : s.HeldBy a b) {addr n : Nat} (hend : addr + n ≤ s.lenA.toNat) :
    a.readBytes addr n = s.a.readBytes addr n :=
  Memory.readBytes_congr fun j hj => h.readA (addr + j) (by omega)

theorem readBytesB (h : s.HeldBy a b) {n : Nat} (hend : n ≤ s.lenB.toNat) : b.readBytes 0 n = s.b.readBytes 0 n :=
  Memory.readBytes_congr fun j hj => h.readB (0 + j) (by omega)

theorem operandA (h : s.HeldBy a b) : (s.withBuffers a b).operandA = s.operandA :=
  h.readBytesA (Nat.zero_add _).le

/-- The XOR step reads LEN_A bytes of B (R154). -/
theorem xorOperandB (h : s.HeldBy a b) (hlen : s.lenA = s.lenB) :
    (s.withBuffers a b).b.readBytes 0 (s.withBuffers a b).lenA.toNat = s.b.readBytes 0 s.lenA.toNat :=
  h.readBytesB (hlen ▸ le_rfl)

theorem iv (h : s.HeldBy a b) (hiv : s.lenB.toNat = s.config.L) : (s.withBuffers a b).iv = s.iv :=
  h.readBytesB hiv.ge

theorem decInput (h : s.HeldBy a b) (hend : s.blockIndex * s.config.L + s.config.L ≤ s.lenA.toNat) :
    (s.withBuffers a b).decInput = s.decInput :=
  h.readBytesA hend

theorem paddedWork (h : s.HeldBy a b) (m : Nat) : (s.withBuffers a b).paddedWork m = s.paddedWork m := by
  rw [State.paddedWork_eq, State.paddedWork_eq, h.operandA]
  rfl

/-! ### The steps on other buffers -/

theorem padStep (h : s.HeldBy a b) (bl : BitVec 8) :
    (s.withBuffers a b).padStep bl = (s.padStep bl).withBuffers a b := by
  rw [State.padStep, h.paddedWork]
  rfl

theorem encPadStep (h : s.HeldBy a b) : (s.withBuffers a b).encPadStep = s.encPadStep.withBuffers a b := by
  rw [State.encPadStep, h.paddedWork]
  rfl

theorem xorStep (h : s.HeldBy a b) (hlen : s.lenA = s.lenB) :
    (s.withBuffers a b).xorStep = s.xorStep.withBuffers a b := by
  rw [State.xorStep, h.operandA, h.xorOperandB hlen]
  rfl

theorem decStep (h : s.HeldBy a b) (hend : s.blockIndex * s.config.L + s.config.L ≤ s.lenA.toNat) :
    (s.withBuffers a b).decStep = s.decStep.withBuffers a b := by
  rw [State.decStep, h.decInput hend]
  rfl

/-- The VALIDATE step of a command that passes its checks: the IV is below LEN_B, since its length was checked. -/
theorem validated (h : s.HeldBy a b) {i : Instr} (hv : validateError i s = none) :
    ∃ a' b', (s.withBuffers a b).validated i = (s.validated i).withBuffers a' b' := by
  cases i with
  | clear => exact ⟨_, _, rfl⟩
  | pad bl | xor => exact ⟨a, b, rfl⟩
  | unpad bl =>
    refine ⟨a, b, ?_⟩
    rw [State.validated, State.unpadValidated, h.operandA]
    rfl
  | cbcEnc =>
    rw [validateError_cbcEnc] at hv
    refine ⟨a, b, ?_⟩
    rw [State.validated, State.encValidated, h.iv (State.ivLen_of_checked hv (by simp [State.encChecks]))]
    rfl
  | cbcDec =>
    rw [validateError_cbcDec] at hv
    refine ⟨a, b, ?_⟩
    rw [State.validated, State.decValidated, h.iv (State.ivLen_of_checked hv (by simp [State.decChecks]))]
    rfl

theorem exec_validate (h : s.HeldBy a b) {i : Instr} {t : State} (hd : decode s.cmd = .ok i)
    (hp : s.phase = .validate) (hx : exec i s = .next t) :
    ∃ a' b', exec i (s.withBuffers a b) = .next (t.withBuffers a' b') := by
  cases hv : validateError i s with
  | none =>
    cases (exec_validate_passed hd hp hv).symm.trans hx
    obtain ⟨a', b', he⟩ := h.validated hv
    exact ⟨a', b', he ▸ exec_validate_passed (s := s.withBuffers a b) hd hp hv⟩
  | some k =>
    cases (exec_validate_raised hd hp hv).symm.trans hx
    exact ⟨a, b, exec_validate_raised (s := s.withBuffers a b) hd hp hv⟩

end State.HeldBy

/-- Every engine step answers the same but for A and B, whatever the buffers hold from LEN_A and LEN_B on. -/
theorem EngineInv.exec_withBuffers {s t : State} {a b : Memory} {i : Instr} (hs : EngineInv s) (h : s.HeldBy a b)
    (hd : decode s.cmd = .ok i) (hx : exec i s = .next t) :
    ∃ a' b', exec i (s.withBuffers a b) = .next (t.withBuffers a' b') := by
  by_cases hv : s.phase = .validate
  · exact h.exec_validate hd hv hx
  refine ⟨a, b, ?_⟩
  cases exec_inv hx with
  | raised hp | clear hp => exact absurd hp hv
  | padOk hp _ | unpadOk hp _ | xorOk hp _ | encOk hp _ | decOk hp _ => exact absurd hp hv
  | padStep hp => exact h.padStep _ ▸ execPad_pad (s := s.withBuffers a b) _ hp
  | unpadStep hp => exact s.unpadStep_withBuffers a b _ ▸ execUnpad_unpad (s := s.withBuffers a b) _ hp
  | xorStep hp =>
    exact h.xorStep (hs.path.process_xor_lens hp hd) ▸ execXor_process (s := s.withBuffers a b) hp
  | encPadStep hp => exact h.encPadStep ▸ execCbcEnc_pad (s := s.withBuffers a b) hp
  | encStep hp => exact execCbcEnc_process (s := s.withBuffers a b) hp
  | decStep hp =>
    obtain ⟨hend, -⟩ := hs.block_process hp hd (.inr rfl)
    obtain ⟨-, hwlen⟩ := hs.path.process_cbcDec hp hd
    exact h.decStep (hwlen ▸ hend) ▸ execCbcDec_process (s := s.withBuffers a b) hp
  | decUnpad hp => exact s.unpadStep_withBuffers a b _ ▸ execCbcDec_unpad (s := s.withBuffers a b) hp

/-- Settles O41: the step on the other buffers is the step of `s`, with the other buffers in it. -/
theorem unwrittenBytesDoNotMatter : Obligations.UnwrittenBytesDoNotMatter := by
  intro s a' b' i t hs hd hA hB hx
  obtain ⟨a, b, he⟩ := hs.exec_withBuffers (a := a') (b := b') ⟨hA, hB⟩ hd hx
  exact ⟨t.withBuffers a b, he, rfl⟩

end Sys2Proof.Machine
end

section
/-! PROOFS. The example words of 30_encoding.md (R99). -/

namespace Sys2Proof

/-- The word the encoder gives for a well-formed command decodes to it (R99). -/
theorem decode_of_eq_encode {w : Word} {i : Instr} (hw : w = encode i) (hwf : i.wf = true) : decode w = .ok i :=
  hw ▸ decodeEncodeRoundTrip.1 i hwf

/-- Settles O1: each legal word is its command's encoding, and each illegal one meets a condition of R97. -/
theorem exampleWordsDecode : Obligations.ExampleWordsDecode := by
  refine ⟨decode_of_eq_encode rfl rfl, decode_of_eq_encode rfl rfl, decode_of_eq_encode rfl rfl,
    decode_of_eq_encode rfl rfl, decode_of_eq_encode rfl rfl, decode_of_eq_encode rfl rfl,
    decode_of_eq_encode rfl rfl, decode_of_eq_encode rfl rfl, fun w hw => (decode_error_iff w).mpr ?_⟩
  simp only [List.mem_cons, List.not_mem_nil, or_false] at hw
  obtain rfl | rfl | rfl | rfl | rfl := hw
  · have unassigned : 6 ≤ (0x00000006#32).toNat % 256 := by decide
    exact .inr (.inl unassigned)
  · have reserved : (0x00010004#32).toNat / 65536 ≠ 0 := by decide
    exact .inl reserved
  · have operandNotZero : (0x00001004#32).toNat / 256 % 256 ≠ 0 := by decide
    exact .inr (.inr (.inl ⟨by decide, operandNotZero⟩))
  · have operandZero : (0x00000001#32).toNat / 256 % 256 = 0 := by decide
    exact .inr (.inr (.inr ⟨by decide, operandZero⟩))
  · have operandNotZero : (0x00000100#32).toNat / 256 % 256 ≠ 0 := by decide
    exact .inr (.inr (.inl ⟨by decide, operandNotZero⟩))

end Sys2Proof
end
